-- ==== Sys2Proof/Word.lean ====
section
/-! DEFINITION. The word types of the block: 64-bit data words (R6), octets (R51), the 72-bit command
word (R70) and the 80-bit response word (R75). -/

namespace Sys2Proof

/-- A 64-bit data word (R6, R9). -/
abbrev Word := BitVec 64

/-- One octet; bit 0 is its least significant bit (R51). -/
abbrev Byte := BitVec 8

/-- A command: opcode in bits 71..64, operand in bits 63..0 (R70). -/
abbrev CommandWord := BitVec 72

/-- A response: status in bits 79..72, `P` in bits 71..8, `Q` in bits 7..0 (R75). -/
abbrev ResponseWord := BitVec 80

end Sys2Proof
end

