-- ==== Sys2Proof/Syntax.lean ====
section
/-! DEFINITION. The fifteen commands of the block (R73), one constructor per row of the opcode table. An
operand has exactly the width of its field (R71), so every term is a command that has a word. -/

namespace Sys2Proof

/-- A command with its operand (R71, R73). -/
inductive Instr where
  /-- `SET_START v` (R160), format V. -/
  | setStart (v : Word)
  /-- `SET_STEP v` (R161), format V. -/
  | setStep (v : Word)
  /-- `REG_RD r` (R162), format R. -/
  | regRd (r : Word)
  /-- `RESET` (R163), format Z. -/
  | reset
  /-- `SRC_ERR` (R164), format Z. -/
  | srcErr
  /-- `MAP_TOINDEX v` (R98), format V. -/
  | mapToIndex (v : Word)
  /-- `MAP_TOVALUE i` (R99), format U. -/
  | mapToValue (i : Word)
  /-- `MAP_SPLIT i` (R100), format U. -/
  | mapSplit (i : Word)
  /-- `ENC_BEGIN` (R120), format Z. -/
  | encBegin
  /-- `ENC_PUSH v` (R121), format V. -/
  | encPush (v : Word)
  /-- `ENC_END` (R126), format Z. -/
  | encEnd
  /-- `SCAN_BEGIN_LIST p` (R140), format P. -/
  | scanBeginList (p : BitVec 2)
  /-- `SCAN_BEGIN_COUNT p` (R141), format P. -/
  | scanBeginCount (p : BitVec 2)
  /-- `SCAN_BYTE b` (R142, R143), format O. -/
  | scanByte (b : Byte)
  /-- `SCAN_END` (R146), format Z. -/
  | scanEnd
  deriving DecidableEq, Repr

end Sys2Proof
end

