-- ==== Sys2Proof/WellFormed.lean ====
section
/-! DEFINITION. When a command word is well-formed (R74), written from the match and mask columns of
spec/opcode_table.json and independently of the decoder; and when the operand of an assembler line is in its
format's range (R77). A term of `Instr` needs no check: its fields have the widths of R71. -/

namespace Sys2Proof

/-- One row of the opcode table: the bits under `mask` have the values in `bits`. -/
structure TableRow where
  bits : CommandWord
  mask : CommandWord
  deriving DecidableEq, Repr

/-- The match and mask columns of the fifteen rows, in the table's order. -/
def opcodeTable : List TableRow :=
  [ ⟨0x010000000000000000, 0xFF0000000000000000⟩
  , ⟨0x020000000000000000, 0xFF0000000000000000⟩
  , ⟨0x030000000000000000, 0xFF0000000000000000⟩
  , ⟨0x040000000000000000, 0xFFFFFFFFFFFFFFFFFF⟩
  , ⟨0x050000000000000000, 0xFFFFFFFFFFFFFFFFFF⟩
  , ⟨0x100000000000000000, 0xFF0000000000000000⟩
  , ⟨0x110000000000000000, 0xFF0000000000000000⟩
  , ⟨0x120000000000000000, 0xFF0000000000000000⟩
  , ⟨0x200000000000000000, 0xFFFFFFFFFFFFFFFFFF⟩
  , ⟨0x210000000000000000, 0xFF0000000000000000⟩
  , ⟨0x220000000000000000, 0xFFFFFFFFFFFFFFFFFF⟩
  , ⟨0x300000000000000000, 0xFFFFFFFFFFFFFFFFFC⟩
  , ⟨0x310000000000000000, 0xFFFFFFFFFFFFFFFFFC⟩
  , ⟨0x320000000000000000, 0xFFFFFFFFFFFFFFFF00⟩
  , ⟨0x330000000000000000, 0xFFFFFFFFFFFFFFFFFF⟩ ]

/-- R74: a word is well-formed when its opcode is one of the fifteen and the must-be-zero bits of its format
are zero. -/
def wordWellFormed (w : CommandWord) : Bool :=
  opcodeTable.any fun r => w &&& r.mask == r.bits

/-- The six operand formats (R71). -/
inductive Format where
  /-- no operand -/
  | z
  /-- signed value -/
  | v
  /-- unsigned index -/
  | u
  /-- register number -/
  | r
  /-- octet -/
  | o
  /-- polarity -/
  | p
  deriving DecidableEq, Repr

/-- R77: the numbers an assembler line may write as the decimal operand of each format. -/
def Format.inRange : Format → Int → Bool
  | .z, _ => false
  | .v, n => -(2 ^ 63) ≤ n && n ≤ 2 ^ 63 - 1
  | .u, n => 0 ≤ n && n ≤ 2 ^ 64 - 1
  | .r, n => 0 ≤ n && n ≤ 2 ^ 64 - 1
  | .o, n => 0 ≤ n && n ≤ 255
  | .p, n => 0 ≤ n && n ≤ 3

end Sys2Proof
end

