-- ==== Sys2Proof/Decode.lean ====
section
/-! DEFINITION. The decoder and the encoder of command words (R70 to R74), both written from the opcode
map of R73. The decoder is total on all `2^72` words and names what it rejects. -/

namespace Sys2Proof

/-- Why a word is no command (R74). -/
inductive DecodeError where
  /-- the opcode is not one of the fifteen -/
  | unknownOpcode (op : Byte)
  /-- a must-be-zero operand bit of the opcode's format is 1 -/
  | nonzeroMustBeZero (op : Byte)
  deriving DecidableEq, Repr

/-- `cmd[71:64]` (R70). -/
def opcodeField (w : CommandWord) : Byte := w.extractLsb' 64 8

/-- `cmd[63:0]` (R70). -/
def operandField (w : CommandWord) : Word := w.extractLsb' 0 64

/-- Format Z: the operand must be 0 (R71). -/
def decodeZ (op : Byte) (x : Word) (i : Instr) : Except DecodeError Instr :=
  if x = 0 then .ok i else .error (.nonzeroMustBeZero op)

/-- Format O: `cmd[63:8]` must be 0, the octet is `cmd[7:0]` (R71). -/
def decodeO (op : Byte) (x : Word) (f : Byte → Instr) : Except DecodeError Instr :=
  if x.extractLsb' 8 56 = 0 then .ok (f (x.extractLsb' 0 8)) else .error (.nonzeroMustBeZero op)

/-- Format P: `cmd[63:2]` must be 0, the polarity is `cmd[1:0]` (R71). -/
def decodeP (op : Byte) (x : Word) (f : BitVec 2 → Instr) : Except DecodeError Instr :=
  if x.extractLsb' 2 62 = 0 then .ok (f (x.extractLsb' 0 2)) else .error (.nonzeroMustBeZero op)

/-- The decoder: match the opcode, then check the must-be-zero bits of its format (R73, R74). -/
def decode (w : CommandWord) : Except DecodeError Instr :=
  let op := opcodeField w
  let x := operandField w
  match op.toNat with
  | 0x01 => .ok (.setStart x)
  | 0x02 => .ok (.setStep x)
  | 0x03 => .ok (.regRd x)
  | 0x04 => decodeZ op x .reset
  | 0x05 => decodeZ op x .srcErr
  | 0x10 => .ok (.mapToIndex x)
  | 0x11 => .ok (.mapToValue x)
  | 0x12 => .ok (.mapSplit x)
  | 0x20 => decodeZ op x .encBegin
  | 0x21 => .ok (.encPush x)
  | 0x22 => decodeZ op x .encEnd
  | 0x30 => decodeP op x .scanBeginList
  | 0x31 => decodeP op x .scanBeginCount
  | 0x32 => decodeO op x .scanByte
  | 0x33 => decodeZ op x .scanEnd
  | _ => .error (.unknownOpcode op)

/-- A command word from its opcode and its operand (R70). -/
def commandWord (op : Byte) (x : Word) : CommandWord := op ++ x

/-- The word of a command (R71, R73). -/
def encode : Instr → CommandWord
  | .setStart v => commandWord 0x01 v
  | .setStep v => commandWord 0x02 v
  | .regRd r => commandWord 0x03 r
  | .reset => commandWord 0x04 0
  | .srcErr => commandWord 0x05 0
  | .mapToIndex v => commandWord 0x10 v
  | .mapToValue i => commandWord 0x11 i
  | .mapSplit i => commandWord 0x12 i
  | .encBegin => commandWord 0x20 0
  | .encPush v => commandWord 0x21 v
  | .encEnd => commandWord 0x22 0
  | .scanBeginList p => commandWord 0x30 (p.setWidth 64)
  | .scanBeginCount p => commandWord 0x31 (p.setWidth 64)
  | .scanByte b => commandWord 0x32 (b.setWidth 64)
  | .scanEnd => commandWord 0x33 0

/-- The command this decoder reads from the word whose bits are `w`, bit 0 the least significant (R70). A
command has one length, 72 bits, so a shorter `nbits` means that the bits above it are zero. -/
def decodeTableWord (nbits w : Nat) : Option Instr :=
  if nbits ≤ 72 ∧ w < 2 ^ nbits then
    match decode (BitVec.ofNat 72 w) with
    | .ok i => some i
    | .error _ => none
  else none

end Sys2Proof
end

