-- ==== Sys2Proof/Config.lean ====
section
/-! DEFINITION. What one instance fixes and the spec leaves open: the buffer capacity `B` (R7, D5), the
octets of `BUF` that no rule determines (R38, R211) and the answers of the sink (R56). Each open value is
a constant without a body, so nothing can be proved of which value it is. -/

namespace Sys2Proof

/-- One answer of the sink to a burst (R56): the whole burst is taken, or the write fails after some
octets. The number of octets taken is `k` modulo the length of the burst, so that every `k` is a legal draw
(log entry 5). -/
inductive SinkAnswer where
  | ok
  | fail (k : Nat)
  deriving DecidableEq, Repr, Inhabited

/-- The configuration of one instance. It is no state of the block (R20): it stands beside the state because
a step is a function of the state alone, and no command and no reset writes it (log entry 1). -/
structure Config where
  /-- `B`, the buffer capacity in octets; the spec's constraint on it is `Config.Legal` (R7). -/
  bufSize : Nat
  deriving DecidableEq, Repr

/-- R7: `1 <= B < 2^61`. -/
abbrev Config.Legal (c : Config) : Prop := 1 ≤ c.bufSize ∧ c.bufSize < 2 ^ 61

/-- An unconstrained natural number: the draw from which the open parameter `B` is taken (log entry 1). -/
opaque Config.capacityDraw : Nat

/-- The configuration of the instance that `State.reset` describes. Its `B` ranges over exactly the values
R7 allows as `Config.capacityDraw` ranges over the natural numbers. -/
def Config.implementation : Config where
  bufSize := 1 + Config.capacityDraw % (2 ^ 61 - 1)

/-- The free value of octet `a` of `BUF` after the reset with draw number `n` (R38; log entry 2). -/
opaque Config.freeOctet (n a : Nat) : Byte

/-- The free answer number `n` of the sink, used when the host has named no answer (R56; log entry 5). -/
opaque Config.sinkDraw (n : Nat) : SinkAnswer

end Sys2Proof
end

