-- ==== Sys2Proof/Machine/State.lean ====
section
/-! DEFINITION. Everything the spec gives the machine (R20), the environment's record of what it put out
(R36), what the host has laid at its interface and it has not taken yet (R192), and the state after reset
(R38). -/

namespace Sys2Proof.Machine

/-- The control state `STATE` (R29). -/
inductive Control where
  /-- no stream is open -/
  | idle
  /-- an encode stream is open -/
  | enc
  /-- a list-mode scan is open -/
  | list
  /-- a count-mode scan is open -/
  | count
  /-- a fault has been taken and no reset since -/
  | fault
  deriving DecidableEq, Repr

/-- The status of a response (R76). -/
inductive Status where
  | ok
  | skipUnsorted
  | skipDuplicate
  | belowStart
  | notRepresentable
  | arithOverflow
  | errIllegalCmd
  | errFaulted
  | errState
  | errNotConfigured
  | errBadOperand
  | faultIoWrite
  | faultIoRead
  | faultInvariant
  | faultArith
  deriving DecidableEq, Repr

/-- The four faults of the block (R182). Taking one leads to a next state, in `STATE = FAULT` (R183). -/
inductive FaultCause where
  /-- a burst was refused by the sink (R127) -/
  | ioWrite
  /-- the host reported a read error (R164) -/
  | ioRead
  /-- the index in the window is not below `8*B` (R125) -/
  | invariant
  /-- a value or a count does not fit (R147, R148) -/
  | arith
  deriving DecidableEq, Repr

/-- What an octet of `BUF` holds where no cell is listed. -/
inductive Fill where
  /-- zero, after a zero fill (R54 (a)) -/
  | zeros
  /-- the free octets of the reset with this draw number (R38; log entry 2) -/
  | unspecified (draw : Nat)
  deriving DecidableEq, Repr

/-- The live buffer `BUF` (R33): the listed octets, by address, over a fill. `Memory.wf` is its canonical
form. -/
structure Memory where
  fill : Fill
  cells : List Host.Cell
  deriving DecidableEq, Repr

/-- What octet `a` reads as when it is not listed: the one definition of it. -/
def Memory.unlisted (m : Memory) (a : Nat) : Byte :=
  match m.fill with
  | .zeros => 0
  | .unspecified n => Config.freeOctet n a

/-- The canonical form: addresses strictly rising, and no cell that says what an unlisted octet reads as. -/
abbrev Memory.wf (m : Memory) : Prop :=
  (m.cells.map Prod.fst).Pairwise (· < ·) ∧ ∀ c ∈ m.cells, c.2 ≠ m.unlisted c.1

/-- What the host lays at the block's interface (R192). -/
inductive PortEvent where
  /-- a command word on the command port (R70) -/
  | command (w : CommandWord)
  /-- an assertion of the reset input between commands (R210) -/
  | resetInput
  /-- a command word, and an assertion of the reset input before its response, once the command has put out `n`
  octets or values (R210; log entry 6) -/
  | resetDuring (w : CommandWord) (n : Nat)
  deriving DecidableEq, Repr

/-- The state of one instance and of its environment. -/
structure State where
  /-- configuration, written by nothing (R7, R20; log entry 1) -/
  cfg : Config
  /-- `START` (R21) -/
  start : Word
  /-- `STEP` (R22) -/
  step : Word
  /-- `BOTTOM` (R23) -/
  bottom : Word
  /-- `BEYOND` (R24) -/
  beyond : Word
  /-- `PREV` (R25) -/
  prev : Word
  /-- `CURSOR` (R26) -/
  cursor : Word
  /-- `COUNT` (R27) -/
  count : Word
  /-- `START_SET` (R21, R28) -/
  startSet : Bool
  /-- `STEP_SET` (R22, R28) -/
  stepSet : Bool
  /-- `PREV_VALID` (R25, R28) -/
  prevValid : Bool
  /-- `BEYOND_OVF` (R24, R28) -/
  beyondOvf : Bool
  /-- `CURSOR_OVF` (R26, R28) -/
  cursorOvf : Bool
  /-- `POL` (R28) -/
  pol : BitVec 2
  /-- `STATE` (R29) -/
  control : Control
  /-- `FCODE` (R30) -/
  fcode : Byte
  /-- `FINFO` (R30) -/
  finfo : Word
  /-- `BUF` (R33) -/
  buf : Memory
  /-- what the host has presented and the block has not taken, the next first (log entry 4) -/
  port : List PortEvent
  /-- the answers the host has named for the coming bursts, the next first (log entry 5) -/
  sinkAnswers : List SinkAnswer
  /-- the model's own counter of free values taken (log entries 2 and 5) -/
  draws : Nat
  /-- `OUT`: the octets the sink has accepted (R36, R56) -/
  out : List Byte
  /-- `VAL`: the values emitted (R36, R57) -/
  vals : List Int
  /-- `RSP`: the responses given (R36, R75) -/
  rsp : List ResponseWord
  deriving DecidableEq, Repr

/-- Where the model stops because the spec gives no result. Raised only in states no run reaches
(`STEP <= 0` with `STEP_SET = 1`, or a window above the value it must hold, both against R39). -/
inductive Fault where
  /-- Raised by `MAP_TOINDEX` and `ENC_PUSH` when they would take a quotient or remainder that R10 says no
  rule takes: of a negative dividend, or by a divisor below 1. Safe: the model stops where the spec says
  nothing (log entry 7). -/
  | undefinedQuotient
  deriving DecidableEq, Repr

/-- Why `exec` gives an instruction no meaning. -/
inductive Refusal where
  /-- Raised by `exec` alone, for an instruction that has no meaning in the model yet; no arm of it does so
  now. Safe. -/
  | notModelled (mnemonic : String)
  deriving DecidableEq, Repr

/-- The machine right after its first reset (R38, R211): every register and flag 0, `STATE = IDLE`, `BUF`
unspecified, nothing put out yet and nothing presented. -/
def State.reset : State where
  cfg := Config.implementation
  start := 0
  step := 0
  bottom := 0
  beyond := 0
  prev := 0
  cursor := 0
  count := 0
  startSet := false
  stepSet := false
  prevValid := false
  beyondOvf := false
  cursorOvf := false
  pol := 0
  control := .idle
  fcode := 0
  finfo := 0
  buf := ⟨.unspecified 0, []⟩
  port := []
  sinkAnswers := []
  draws := 1
  out := []
  vals := []
  rsp := []

end Sys2Proof.Machine
end

