-- ==== Sys2Proof/Machine/Operands.lean ====
section
/-! DEFINITION. How operands and registers are read as numbers (R9 to R11, R72), the arithmetic of the
IndexMapper over them (R92 to R96, R101), the legal operands of the commands that refuse one, and the bits of
an octet (R51, R144). -/

namespace Sys2Proof.Machine

/-- `MIN` (R9). -/
def minInt : Int := -(2 ^ 63)

/-- `MAX` (R9). -/
def maxInt : Int := 2 ^ 63 - 1

/-- `u64`: the unsigned reading of a word (R9), formats U and R (R72). -/
def u64 (w : Word) : Nat := w.toNat

/-- `s64`: the signed reading of a word (R9), format V (R72). -/
def s64 (w : Word) : Int := w.toInt

/-- `wrap64`: the word whose unsigned reading is `z mod 2^64` (R9). -/
def wrap64 (z : Int) : Word := BitVec.ofInt 64 z

/-- `fits_i64` (R9). -/
def fitsI64 (z : Int) : Bool := minInt ≤ z && z ≤ maxInt

/-- `zext_8` of an octet operand (R11), format O. -/
def zext8 (b : Byte) : Nat := b.toNat

/-- Quotient and remainder, taken only of a non-negative dividend by a positive divisor (R10, R93). -/
def quotRem (a b : Int) : Option (Nat × Nat) :=
  if 0 ≤ a ∧ 0 < b then some ((a / b).toNat, (a % b).toNat) else none

/-- The exact difference of two values (R92). -/
def diff (v s : Word) : Int := s64 v - s64 s

/-- The exact multiply-add `s64(s) + u64(i)*s64(t)` (R101). -/
def mad (i s t : Word) : Int := s64 s + u64 i * s64 t

/-- The outcomes of `toIndex` (R94). -/
inductive IndexOf where
  | belowStart
  | notRepresentable
  | index (i : Nat)
  deriving DecidableEq, Repr

/-- `toIndex(v)` for a `start` and a `step` (R94); none where R10 gives no quotient. -/
def toIndex (start step v : Word) : Option IndexOf :=
  if diff v start < 0 then some .belowStart
  else
    match quotRem (diff v start) (s64 step) with
    | none => none
    | some (q, r) => if r ≠ 0 then some .notRepresentable else some (.index q)

/-- `toValue(i)` for a `start` and a `step`; none is `overflow` (R95). -/
def toValue (start step i : Word) : Option Int :=
  if maxInt < mad i start step then none else some (mad i start step)

/-- `split(i)`: octet and bit of an index (R96). -/
def split (i : Nat) : Nat × Nat := (i / 8, i % 8)

/-- The steps `SET_STEP` takes: `s64(v) >= 1` (R161). -/
def stepOperandOk (v : Word) : Bool := 0 < s64 v

/-- The polarities of list mode: 0 and 1 (R140). -/
def listPolarityOk (p : BitVec 2) : Bool := p.toNat ≤ 1

/-- The polarities of count mode: 0, 1 and 2 for "any" (R141). -/
def countPolarityOk (p : BitVec 2) : Bool := p.toNat ≤ 2

/-- Bit `j` of an octet, bit 0 the least significant (R51). -/
def bitOf (b : Byte) (j : Nat) : Bool := b.getLsbD j

/-- Whether a bit equals `POL` (R142). -/
def bitMatches (pol : BitVec 2) (bit : Bool) : Bool := pol.toNat == bit.toNat

/-- `popcount[x] = x[0] + ... + x[7]` (R144). -/
def popcount (x : Byte) : Nat := ((List.range 8).map fun j => (bitOf x j).toNat).sum

/-- The increment of count mode for one octet (R143). -/
def countIncrement (pol : BitVec 2) (b : Byte) : Nat :=
  if pol = 1 then popcount b else if pol = 0 then 8 - popcount b else 8

end Sys2Proof.Machine
end

