-- ==== Sys2Proof/Machine/Flags.lean ====
section
/-! DEFINITION. The overflow flag of the checked addition (R14, R24, R26), the codes of the control state,
of the faults and of the statuses (R29, R76, R182), and the two views made of flags: `STATUS` (R31) and
`FAULT_OUT` (R188). -/

namespace Sys2Proof.Machine

/-- `cadd(a, d)`: the wrapped sum and the flag that the exact sum exceeds `MAX` (R14). -/
def cadd (a : Word) (d : Int) : Word × Bool := (wrap64 (s64 a + d), decide (maxInt < s64 a + d))

/-- `SPAN = 8*B*s64(STEP)` (R37 (a)). -/
def span (s : State) : Int := 8 * s.cfg.bufSize * s64 s.step

/-- The number of a control state (R29). -/
def Control.code : Control → BitVec 3
  | .idle => 0
  | .enc => 1
  | .list => 2
  | .count => 3
  | .fault => 4

/-- `FCODE` of a fault (R182). -/
def FaultCause.code : FaultCause → Byte
  | .ioWrite => 1
  | .ioRead => 2
  | .invariant => 3
  | .arith => 4

/-- The status a command that takes a fault answers with (R182). -/
def FaultCause.status : FaultCause → Status
  | .ioWrite => .faultIoWrite
  | .ioRead => .faultIoRead
  | .invariant => .faultInvariant
  | .arith => .faultArith

/-- The status codes (R76). -/
def Status.code : Status → Byte
  | .ok => 0x00
  | .skipUnsorted => 0x10
  | .skipDuplicate => 0x11
  | .belowStart => 0x12
  | .notRepresentable => 0x13
  | .arithOverflow => 0x30
  | .errIllegalCmd => 0x80
  | .errFaulted => 0x81
  | .errState => 0x82
  | .errNotConfigured => 0x83
  | .errBadOperand => 0x84
  | .faultIoWrite => 0xF1
  | .faultIoRead => 0xF2
  | .faultInvariant => 0xF3
  | .faultArith => 0xF4

/-- The view `STATUS`, from bit 63 down to bit 0 (R31). -/
def statusWord (s : State) : Word :=
  (0 : BitVec 53) ++ s.pol ++ BitVec.ofBool s.cursorOvf ++ BitVec.ofBool s.beyondOvf
    ++ BitVec.ofBool s.prevValid ++ BitVec.ofBool s.stepSet ++ BitVec.ofBool s.startSet
    ++ (0 : BitVec 1) ++ s.control.code

/-- The output `FAULT_OUT` (R188). -/
def faultOut (s : State) : Bool := s.control == .fault

end Sys2Proof.Machine
end

