-- ==== Sys2Proof/Machine/Ops.lean ====
section
/-! DEFINITION. The operations every command is made of: the accesses to `BUF` (R54), the sink and the value
stream (R56, R57), the response (R75), the checks every command makes before it executes (R167), taking a
fault (R183) and the way out of it (R163, R210), and taking the next event from the port (R35). -/

namespace Sys2Proof.Machine

/-! ### The live buffer -/

/-- The listed octet at address `a`. -/
def cellAt : List Host.Cell → Nat → Option Byte
  | [], _ => none
  | c :: cs, a => if c.1 = a then some c.2 else cellAt cs a

/-- List octet `a` as `b`, keeping the addresses rising. -/
def putCell : List Host.Cell → Nat → Byte → List Host.Cell
  | [], a, b => [(a, b)]
  | c :: cs, a, b =>
    if a < c.1 then (a, b) :: c :: cs
    else if a = c.1 then (a, b) :: cs
    else c :: putCell cs a b

/-- No longer list octet `a`. -/
def dropCell (cs : List Host.Cell) (a : Nat) : List Host.Cell := cs.filter fun c => c.1 ≠ a

/-- `BUF[a]` (R12). -/
def Memory.read (m : Memory) (a : Nat) : Byte := (cellAt m.cells a).getD (m.unlisted a)

/-- `BUF[a] <- b` (R12), in canonical form. -/
def Memory.write (m : Memory) (a : Nat) (b : Byte) : Memory :=
  { m with cells := if b = m.unlisted a then dropCell m.cells a else putCell m.cells a b }

/-- The buffer after `MemWrite(0, B, zeros(B))` (R54 (a)). -/
def Memory.zeros : Memory := ⟨.zeros, []⟩

/-- `MemRead(0, n)` (R54 (c), (d)). -/
def Memory.readFront (m : Memory) (n : Nat) : List Byte := (List.range n).map m.read

/-- `BUF[o] <- BUF[o] | (1 << j)` (R54 (b), R124). -/
def Memory.setBit (m : Memory) (o j : Nat) : Memory := m.write o (m.read o ||| (1 : Byte) <<< j)

/-- The trim scan over the first `n` octets, from the highest downward: one more than the number of the
highest non-zero octet, 0 if there is none (R54 (d), R126). -/
def Memory.tailLength (m : Memory) : Nat → Nat
  | 0 => 0
  | n + 1 => if m.read n ≠ 0 then n + 1 else m.tailLength n

/-! ### Responses and streams -/

/-- The 80-bit response word (R75). -/
def responseWord (st : Status) (p : Word) (q : Byte) : ResponseWord := st.code ++ p ++ q

/-- `Respond(status, P, Q)` (R13, R75). -/
def respond (st : Status) (p : Word) (q : Byte) (s : State) : State :=
  { s with rsp := s.rsp ++ [responseWord st p q] }

/-- `refuse E` and every disposition: a response with no payload and no other change (R13, R180). -/
def refuse (st : Status) (s : State) : State := respond st 0 0 s

/-- `Emit(v)` (R57). -/
def emit (v : Int) (s : State) : State := { s with vals := s.vals ++ [v] }

/-- The sink's next answer: the one the host has named, or a free value (R56; log entry 5). -/
def sinkAnswer (s : State) : SinkAnswer :=
  match s.sinkAnswers with
  | [] => Config.sinkDraw s.draws
  | a :: _ => a

/-- The state once the sink's next answer has been used. -/
def useSinkAnswer (s : State) : State :=
  match s.sinkAnswers with
  | [] => { s with draws := s.draws + 1 }
  | _ :: rest => { s with sinkAnswers := rest }

/-- The octets of a burst that the sink takes under an answer (R56). -/
def octetsTaken (a : SinkAnswer) (seq : List Byte) : List Byte :=
  match a with
  | .ok => seq
  | .fail k => seq.take (k % seq.length)

/-- `OUT <- OUT ++ seq` (R56). -/
def appendOut (seq : List Byte) (s : State) : State := { s with out := s.out ++ seq }

/-- `SinkWrite(seq)` (R56): whether the sink answers `ok`, and the state after. -/
def sinkWrite (seq : List Byte) (s : State) : Bool × State :=
  (sinkAnswer s == .ok, appendOut (octetsTaken (sinkAnswer s) seq) (useSinkAnswer s))

/-! ### Taking a fault, and the way out of it -/

/-- Fault entry, `raise F(info)` (R183). -/
def raise (f : FaultCause) (info : Int) (s : State) : State :=
  respond f.status 0 0 { s with fcode := f.code, finfo := wrap64 info, control := .fault }

/-- What both resets do to the block (R38, R163, R210): every register and flag to its reset value, `BUF`
unspecified; the configuration and the environment's side are kept (R36, R211). -/
def resetBlock (s : State) : State :=
  { s with
    start := 0, step := 0, bottom := 0, beyond := 0, prev := 0, cursor := 0, count := 0
    startSet := false, stepSet := false, prevValid := false, beyondOvf := false, cursorOvf := false
    pol := 0, control := .idle, fcode := 0, finfo := 0
    buf := ⟨.unspecified s.draws, []⟩, draws := s.draws + 1 }

/-! ### The checks before a command executes -/

/-- The answer of a command. -/
abbrev Answer := Host.Outcome State Fault Refusal

/-- Legal in `IDLE` only (R166). -/
def inIdle (c : Control) : Bool := c == .idle

/-- Legal in `ENC` only (R166). -/
def inEnc (c : Control) : Bool := c == .enc

/-- Legal in `LIST` and `COUNT` (R166). -/
def inScan (c : Control) : Bool := c == .list || c == .count

/-- Legal while a stream is open (R164, R166). -/
def inStream (c : Control) : Bool := c == .enc || c == .list || c == .count

/-- Legal in every state but `FAULT` (R166). -/
def notInFault (c : Control) : Bool := c != .fault

/-- Legal in every state (R166). -/
def always (_ : Control) : Bool := true

/-- The first refusal that applies, in the order of R167: faulted, state, configuration, operand. -/
def refusalOf (legal : Control → Bool) (needsConfig operandOk : Bool) (s : State) : Option Status :=
  if s.control = .fault ∧ legal .fault = false then some .errFaulted
  else if legal s.control = false then some .errState
  else if needsConfig = true ∧ (s.startSet && s.stepSet) = false then some .errNotConfigured
  else if operandOk = false then some .errBadOperand
  else none

/-- Refuse the command if a check fails, else execute it (R167). -/
def checked (legal : Control → Bool) (needsConfig operandOk : Bool) (run : State → Answer) (s : State) :
    Answer :=
  match refusalOf legal needsConfig operandOk s with
  | some e => .next (refuse e s)
  | none => run s

/-! ### The port -/

/-- The next event at the block's interface and the state once it is taken (R35, R192). -/
def takeEvent (s : State) : Option (PortEvent × State) :=
  match s.port with
  | [] => none
  | e :: rest => some (e, { s with port := rest })

/-- The answer to a word that is no command (R74). -/
def refuseIllegal (_ : DecodeError) (s : State) : Answer := .next (refuse .errIllegalCmd s)

/-- What a step does when nothing is presented: "between commands the block holds its state" (R191). -/
def holdState (s : State) : Answer := .next s

/-- The reset input: the state effect of a reset, and no response (R210). -/
def applyResetInput (s : State) : Answer := .next (resetBlock s)

/-- A history that was `before` and would be `after`, cut at `n` more elements. -/
def gainUpTo {α : Type} (n : Nat) (before after : List α) : List α :=
  before ++ (after.drop before.length).take n

/-- The reset input asserted while a command executes, in place of waiting for its response (R210, R219): of
what the command, begun in `s`, would answer `a` with, only its first `n` octets and values have been put out,
there is no response, and the block is reset. The sink's answers that the whole command would have used are used
up (log entry 6). -/
def cutShort (n : Nat) (s : State) (a : Answer) : Answer :=
  match a with
  | .next t =>
    .next (resetBlock
      { s with
        out := gainUpTo n s.out t.out, vals := gainUpTo n s.vals t.vals
        sinkAnswers := t.sinkAnswers, draws := t.draws })
  | .fault f => .fault f
  | .refused r => .refused r

/-- Lay a command word at the port, ahead of what stands there. -/
def presentWord (w : CommandWord) (s : State) : State := { s with port := .command w :: s.port }

end Sys2Proof.Machine
end

