-- ==== Sys2Proof/Machine/ValueGuard.lean ====
section
/-! DEFINITION. The value guard, the first stage of `ENC_PUSH` (R110 to R115). -/

namespace Sys2Proof.Machine

/-- The outcomes of the guard (R110), and the stop where R10 gives no remainder. -/
inductive GuardOutcome where
  /-- a disposition; no state has changed -/
  | skip (st : Status)
  /-- accepted; the state holds the new `PREV` -/
  | accept (s : State)
  /-- no remainder is defined (R10), in states no run reaches -/
  | undefined
  deriving DecidableEq, Repr

/-- Accept `v`: `PREV <- v`, `PREV_VALID <- 1` (R115). -/
def acceptValue (v : Word) (s : State) : State := { s with prev := v, prevValid := true }

/-- `guard(v)`, the checks in the order of R111: ordering (R112), below start (R113), off the grid (R114). -/
def guardValue (v : Word) (s : State) : GuardOutcome :=
  if s.prevValid = true ∧ s64 v < s64 s.prev then .skip .skipUnsorted
  else if s.prevValid = true ∧ s64 v = s64 s.prev then .skip .skipDuplicate
  else
    match toIndex s.start s.step v with
    | none => .undefined
    | some .belowStart => .skip .belowStart
    | some .notRepresentable => .skip .notRepresentable
    | some (.index _) => .accept (acceptValue v s)

end Sys2Proof.Machine
end

