-- ==== Sys2Proof/Machine/Encoder.lean ====
section
/-! DEFINITION. The BitmapEncoder: `ENC_BEGIN`, `ENC_PUSH`, `ENC_END` (R120 to R127). -/

namespace Sys2Proof.Machine

/-- `ENC_BEGIN` (R120). -/
def execEncBegin (s : State) : Answer :=
  checked inIdle true true
    (fun s =>
      .next (respond .ok 0 0
        { s with
          bottom := s.start
          beyond := (cadd s.start (span s)).1, beyondOvf := (cadd s.start (span s)).2
          prev := 0, prevValid := false
          buf := .zeros
          control := .enc })) s

/-- The advance of the window that ends an iteration of the flush loop: `BOTTOM <- BEYOND`, then
`(BEYOND, BEYOND_OVF) <- cadd(BOTTOM, SPAN)` (R122). -/
def advanceWindow (s : State) : State :=
  { s with
    bottom := s.beyond
    beyond := (cadd s.beyond (span s)).1, beyondOvf := (cadd s.beyond (span s)).2 }

/-- The condition of the flush loop (R122). -/
def mustFlush (v : Int) (s : State) : Bool := !s.beyondOvf && s64 s.beyond ≤ v

/-- How the flush loop ends. -/
structure FlushEnd where
  /-- bursts the sink accepted in this command -/
  bursts : Nat
  /-- whether a burst failed (R127) -/
  failed : Bool
  /-- the state at that point -/
  st : State
  deriving DecidableEq, Repr

/-- The burst of iteration `k`: the accumulated buffer first, then zeros (R122). -/
def flushBurst (k : Nat) (s : State) : List Byte :=
  if k = 0 then s.buf.readFront s.cfg.bufSize else List.replicate s.cfg.bufSize 0

/-- The flush loop of `ENC_PUSH` (R122, R127), `k` bursts done. The fuel bounds the iterations; that of
`flushFuel` is never used up when `SPAN >= 1` (R220). -/
def flushLoop (v : Int) : (fuel k : Nat) → State → FlushEnd
  | 0, k, s => ⟨k, false, s⟩
  | fuel + 1, k, s =>
    if mustFlush v s then
      match sinkWrite (flushBurst k s) s with
      | (false, s1) => ⟨k, true, s1⟩
      | (true, s1) => flushLoop v fuel (k + 1) (advanceWindow s1)
    else ⟨k, false, s⟩

/-- Enough iterations for every loop that ends: each one raises `BEYOND` by `SPAN >= 1` (R220). -/
def flushFuel (v : Int) (s : State) : Nat := (v - s64 s.beyond).toNat + 1

/-- The buffer reset after a flush (R123). -/
def resetAfterFlush (bursts : Nat) (s : State) : State :=
  if 0 < bursts then { s with buf := .zeros } else s

/-- Steps (3) to (6) of `ENC_PUSH`, after `k` bursts: buffer reset (R123), index and invariant check (R125),
bit set (R124), response. -/
def placeBit (v : Int) (k : Nat) (s : State) : Answer :=
  let s := resetAfterFlush k s
  match quotRem (v - s64 s.bottom) (s64 s.step) with
  | none => .fault .undefinedQuotient
  | some (idx, _) =>
    if 8 * s.cfg.bufSize ≤ idx then .next (raise .invariant idx s)
    else .next (respond .ok (BitVec.ofNat 64 k) 0
      { s with buf := s.buf.setBit (split idx).1 (split idx).2 })

/-- Steps (2) to (6) of `ENC_PUSH`, for an accepted value (R121). -/
def pushAccepted (v : Int) (s : State) : Answer :=
  let e := flushLoop v (flushFuel v s) 0 s
  if e.failed then .next (raise .ioWrite s.cfg.bufSize e.st) else placeBit v e.bursts e.st

/-- `ENC_PUSH v` (R121). -/
def execEncPush (v : Word) (s : State) : Answer :=
  checked inEnc false true
    (fun s =>
      match guardValue v s with
      | .undefined => .fault .undefinedQuotient
      | .skip st => .next (respond st 0 0 s)
      | .accept s1 => pushAccepted (s64 v) s1) s

/-- Close the stream: `STATE <- IDLE` (R126, R146). -/
def closeStream (p : Word) (s : State) : State := respond .ok p 0 { s with control := .idle }

/-- The tail of an encode stream: `n` octets in one burst, nothing when `n = 0` (R126, R127). -/
def writeTail (n : Nat) (s : State) : State :=
  if n = 0 then closeStream 0 s
  else
    match sinkWrite (s.buf.readFront n) s with
    | (false, s1) => raise .ioWrite n s1
    | (true, s1) => closeStream (BitVec.ofNat 64 n) s1

/-- `ENC_END` (R126). -/
def execEncEnd (s : State) : Answer :=
  checked inEnc false true (fun s => .next (writeTail (s.buf.tailLength s.cfg.bufSize) s)) s

end Sys2Proof.Machine
end

