-- ==== Sys2Proof/Machine/IndexMapper.lean ====
section
/-! DEFINITION. The commands of the IndexMapper: `MAP_TOINDEX`, `MAP_TOVALUE`, `MAP_SPLIT` (R98 to R100). They
change nothing but `RSP` (R102). -/

namespace Sys2Proof.Machine

/-- `MAP_TOINDEX v` (R98). -/
def execMapToIndex (v : Word) (s : State) : Answer :=
  checked notInFault true true
    (fun s =>
      match toIndex s.start s.step v with
      | none => .fault .undefinedQuotient
      | some .belowStart => .next (respond .belowStart 0 0 s)
      | some .notRepresentable => .next (respond .notRepresentable 0 0 s)
      | some (.index i) => .next (respond .ok (BitVec.ofNat 64 i) 0 s)) s

/-- `MAP_TOVALUE i` (R99). -/
def execMapToValue (i : Word) (s : State) : Answer :=
  checked notInFault true true
    (fun s =>
      match toValue s.start s.step i with
      | none => .next (respond .arithOverflow 0 0 s)
      | some z => .next (respond .ok (wrap64 z) 0 s)) s

/-- `MAP_SPLIT i` (R100). -/
def execMapSplit (i : Word) (s : State) : Answer :=
  checked notInFault false true
    (fun s =>
      .next (respond .ok (BitVec.ofNat 64 (split (u64 i)).1) (BitVec.ofNat 8 (split (u64 i)).2) s)) s

end Sys2Proof.Machine
end

