-- ==== Sys2Proof/Machine/Scanner.lean ====
section
/-! DEFINITION. The BitmapScanner: `SCAN_BEGIN_LIST`, `SCAN_BEGIN_COUNT`, `SCAN_BYTE`, `SCAN_END`
(R140 to R148). -/

namespace Sys2Proof.Machine

/-- `SCAN_BEGIN_LIST p` (R140). -/
def execScanBeginList (p : BitVec 2) (s : State) : Answer :=
  checked inIdle true (listPolarityOk p)
    (fun s =>
      .next (respond .ok 0 0 { s with cursor := s.start, cursorOvf := false, pol := p, control := .list })) s

/-- `SCAN_BEGIN_COUNT p` (R141). -/
def execScanBeginCount (p : BitVec 2) (s : State) : Answer :=
  checked inIdle false (countPolarityOk p)
    (fun s => .next (respond .ok 0 0 { s with count := 0, pol := p, control := .count })) s

/-- The advance of the cursor after each bit, with its sticky flag (R142). -/
def advanceCursor (s : State) : State :=
  { s with
    cursor := (cadd s.cursor (s64 s.step)).1
    cursorOvf := s.cursorOvf || (cadd s.cursor (s64 s.step)).2 }

/-- How the loop over the bits of one octet ends. -/
structure ListEnd where
  /-- values emitted by this command -/
  emitted : Nat
  /-- the bit at which a value had to be emitted while `CURSOR_OVF = 1` (R147) -/
  faultBit : Option Nat
  /-- the state at that point -/
  st : State
  deriving DecidableEq, Repr

/-- List mode over the bits `js` of octet `b`, `n` values emitted so far (R142). -/
def listBits (b : Byte) : (js : List Nat) → (n : Nat) → State → ListEnd
  | [], n, s => ⟨n, none, s⟩
  | j :: js, n, s =>
    if bitMatches s.pol (bitOf b j) then
      if s.cursorOvf then ⟨n, some j, s⟩
      else listBits b js (n + 1) (advanceCursor (emit (s64 s.cursor) s))
    else listBits b js n (advanceCursor s)

/-- `SCAN_BYTE b` in `STATE = LIST` (R142). -/
def scanByteList (b : Byte) (s : State) : State :=
  let e := listBits b (List.range 8) 0 s
  match e.faultBit with
  | some j => raise .arith (j + 256 * zext8 b : Nat) e.st
  | none => respond .ok (BitVec.ofNat 64 e.emitted) 0 e.st

/-- `SCAN_BYTE b` in `STATE = COUNT` (R143). -/
def scanByteCount (b : Byte) (s : State) : State :=
  let inc := countIncrement s.pol b
  if 2 ^ 64 - 1 < u64 s.count + inc then raise .arith inc s
  else respond .ok (BitVec.ofNat 64 inc) 0 { s with count := s.count + BitVec.ofNat 64 inc }

/-- `SCAN_BYTE b` (R142, R143). -/
def execScanByte (b : Byte) (s : State) : Answer :=
  checked inScan false true
    (fun s => .next (if s.control = .list then scanByteList b s else scanByteCount b s)) s

/-- `SCAN_END` (R146). -/
def execScanEnd (s : State) : Answer :=
  checked inScan false true
    (fun s =>
      .next (respond .ok (if s.control = .count then s.count else 0) 0 { s with control := .idle })) s

end Sys2Proof.Machine
end

