-- ==== Sys2Proof/Machine/System.lean ====
section
/-! DEFINITION. The system commands: `SET_START`, `SET_STEP`, `REG_RD`, `RESET`, `SRC_ERR` (R160 to R164). -/

namespace Sys2Proof.Machine

/-- `SET_START v` (R160). -/
def execSetStart (v : Word) (s : State) : Answer :=
  checked inIdle false true (fun s => .next (respond .ok 0 0 { s with start := v, startSet := true })) s

/-- `SET_STEP v` (R161). -/
def execSetStep (v : Word) (s : State) : Answer :=
  checked inIdle false (stepOperandOk v)
    (fun s => .next (respond .ok 0 0 { s with step := v, stepSet := true })) s

/-- `x[r]`: the register numbers of R32; none for the numbers that name no register. -/
def readRegister (r : Nat) (s : State) : Option Word :=
  match r with
  | 0 => some s.start
  | 1 => some s.step
  | 2 => some s.bottom
  | 3 => some s.beyond
  | 4 => some s.prev
  | 5 => some s.cursor
  | 6 => some s.count
  | 7 => some (statusWord s)
  | 8 => some (s.fcode.setWidth 64)
  | 9 => some s.finfo
  | 10 => some (BitVec.ofNat 64 s.cfg.bufSize)
  | _ => none

/-- `REG_RD r` (R162). -/
def execRegRd (r : Word) (s : State) : Answer :=
  checked always false (readRegister (u64 r) s).isSome
    (fun s => .next (respond .ok ((readRegister (u64 r) s).getD 0) 0 s)) s

/-- `RESET` (R163). -/
def execReset (s : State) : Answer :=
  checked always false true (fun s => .next (respond .ok 0 0 (resetBlock s))) s

/-- `SRC_ERR` (R164). -/
def execSrcErr (s : State) : Answer :=
  checked inStream false true (fun s => .next (raise .ioRead 0 s)) s

end Sys2Proof.Machine
end

