-- ==== Sys2Proof/Machine/Dispatch.lean ====
section
/-! DEFINITION. `exec`: one arm per command, each one call of that command's meaning. -/

namespace Sys2Proof.Machine

def exec (i : Instr) (s : State) : Host.Outcome State Fault Refusal :=
  match i with
  | .setStart v => Sys2Proof.Machine.execSetStart v s
  | .setStep v => Sys2Proof.Machine.execSetStep v s
  | .regRd r => Sys2Proof.Machine.execRegRd r s
  | .reset => Sys2Proof.Machine.execReset s
  | .srcErr => Sys2Proof.Machine.execSrcErr s
  | .mapToIndex v => Sys2Proof.Machine.execMapToIndex v s
  | .mapToValue u => Sys2Proof.Machine.execMapToValue u s
  | .mapSplit u => Sys2Proof.Machine.execMapSplit u s
  | .encBegin => Sys2Proof.Machine.execEncBegin s
  | .encPush v => Sys2Proof.Machine.execEncPush v s
  | .encEnd => Sys2Proof.Machine.execEncEnd s
  | .scanBeginList p => Sys2Proof.Machine.execScanBeginList p s
  | .scanBeginCount p => Sys2Proof.Machine.execScanBeginCount p s
  | .scanByte b => Sys2Proof.Machine.execScanByte b s
  | .scanEnd => Sys2Proof.Machine.execScanEnd s

end Sys2Proof.Machine
end

