-- ==== Sys2Proof/Machine/Port.lean ====
section
/-! DEFINITION. What the block does with a command word from the port (R70, R74). -/

namespace Sys2Proof.Machine

/-- Execute the command a word decodes to, or refuse a word that is none (R74, R167 (1)). -/
def runWord (w : CommandWord) (s : State) : Answer :=
  match decode w with
  | .ok i => exec i s
  | .error e => refuseIllegal e s

end Sys2Proof.Machine
end

