-- ==== Sys2Proof/Machine/Step.lean ====
section
/-! DEFINITION. One step of the block: take what the host presents next and carry it out whole (R15, R35). -/

namespace Sys2Proof.Machine

/-- One step: the next command, decoded and executed or refused as illegal (R74); an assertion of the reset
input, between commands or during one (R210); or, with nothing presented, no change (R191). -/
def step (s : State) : Host.Outcome State Fault Refusal :=
  match takeEvent s with
  | none => holdState s
  | some (.resetInput, s1) => applyResetInput s1
  | some (.command w, s1) => runWord w s1
  | some (.resetDuring w n, s1) => cutShort n s1 (runWord w s1)

/-- `s` with the command word whose bits are `w` next on the port: the command the next step takes. -/
def State.withFetchWord (s : State) (nbits w : Nat) : State :=
  presentWord (BitVec.ofNat 72 (w % 2 ^ nbits)) s

end Sys2Proof.Machine
end

