-- ==== Sys2Proof/Safety.lean ====
section
/-! DEFINITION. The terms claims use: the tables of R73, R165 and R166 written apart from the meanings, the
invariant of the reachable states (R39), runs of commands, and the bitmap that a set of values stands for
(R129, R149). -/

namespace Sys2Proof.Machine

/-- R166: which command executes in which state (the `x` of its table). -/
def legalIn : Instr → Control → Bool
  | .setStart _, c | .setStep _, c | .encBegin, c | .scanBeginList _, c | .scanBeginCount _, c =>
    match c with
    | .idle => true
    | .enc | .list | .count | .fault => false
  | .regRd _, _ | .reset, _ => true
  | .srcErr, c =>
    match c with
    | .enc | .list | .count => true
    | .idle | .fault => false
  | .mapToIndex _, c | .mapToValue _, c | .mapSplit _, c =>
    match c with
    | .idle | .enc | .list | .count => true
    | .fault => false
  | .encPush _, c | .encEnd, c =>
    match c with
    | .enc => true
    | .idle | .list | .count | .fault => false
  | .scanByte _, c | .scanEnd, c =>
    match c with
    | .list | .count => true
    | .idle | .enc | .fault => false

/-- R73, column 5: which commands need `START_SET = STEP_SET = 1`. -/
def needsConfig : Instr → Bool
  | .mapToIndex _ | .mapToValue _ | .encBegin | .scanBeginList _ => true
  | .setStart _ | .setStep _ | .regRd _ | .reset | .srcErr | .mapSplit _ | .encPush _ | .encEnd
  | .scanBeginCount _ | .scanByte _ | .scanEnd => false

/-- The operands a command does not refuse (R161, R162, R140, R141). -/
def operandLegal : Instr → Bool
  | .setStep v => 0 < v.toInt
  | .regRd r => r.toNat ≤ 10
  | .scanBeginList p => p.toNat < 2
  | .scanBeginCount p => p.toNat < 3
  | .setStart _ | .reset | .srcErr | .mapToIndex _ | .mapToValue _ | .mapSplit _ | .encBegin | .encPush _
  | .encEnd | .scanByte _ | .scanEnd => true

/-- Whether `START` and `STEP` have been loaded (R212). -/
abbrev Configured (s : State) : Prop := s.startSet = true ∧ s.stepSet = true

/-- R165: the changes of `STATE` a command can make, from its second argument to its third; `RESET` leads to
`IDLE` from anywhere, and a refused command leaves `STATE` as it is. -/
def transition : Instr → Control → Control → Bool
  | .reset, _, d => d == .idle
  | .encBegin, c, d => d == c || c == .idle && d == .enc
  | .scanBeginList _, c, d => d == c || c == .idle && d == .list
  | .scanBeginCount _, c, d => d == c || c == .idle && d == .count
  | .encPush _, c, d => d == c || c == .enc && d == .fault
  | .encEnd, c, d => if c == .enc then d == .idle || d == .fault else d == c
  | .srcErr, c, d => if c == .enc || c == .list || c == .count then d == .fault else d == c
  | .scanByte _, c, d => d == c || (c == .list || c == .count) && d == .fault
  | .scanEnd, c, d => if c == .list || c == .count then d == .idle else d == c
  | .setStart _, c, d | .setStep _, c, d | .regRd _, c, d | .mapToIndex _, c, d | .mapToValue _, c, d
  | .mapSplit _, c, d => d == c

/-- Bit number `k` of the buffer: bit `k mod 8` of octet `k div 8` (R51). -/
def bufBit (m : Memory) (k : Nat) : Bool := bitOf (m.read (k / 8)) (k % 8)

/-- The index of a value in the live window (R125). -/
def windowIndex (v : Int) (s : State) : Nat := ((v - s64 s.bottom) / s64 s.step).toNat

/-- What R39 says of an open encode stream, as far as one state shows it: (b), (c) and of (d) the highest set
bit. -/
structure EncInv (s : State) : Prop where
  configured : Configured s
  fill : s.buf.fill = .zeros
  window : ∃ w : Nat, s64 s.bottom = s64 s.start + w * span s
  overflow : s.beyondOvf = decide (maxInt < s64 s.bottom + span s)
  beyond : s.beyond = wrap64 (s64 s.bottom + span s)
  prevLow : s.prevValid = true → s64 s.bottom ≤ s64 s.prev
  prevGrid : s.prevValid = true → (s64 s.prev - s64 s.start) % s64 s.step = 0
  prevHigh : s.prevValid = true → s.beyondOvf = true ∨ s64 s.prev < s64 s.beyond
  noneYet : s.prevValid = false → s.buf = .zeros ∧ s.bottom = s.start
  prevBit : s.prevValid = true → bufBit s.buf (windowIndex (s64 s.prev) s) = true
  highest : s.prevValid = true → ∀ k, bufBit s.buf k = true → k ≤ windowIndex (s64 s.prev) s

/-- What R26 and R39 (e) say of an open list scan. -/
structure ListInv (s : State) : Prop where
  configured : Configured s
  polarity : s.pol.toNat ≤ 1
  cursor : ∃ n : Nat, s.cursor = wrap64 (s64 s.start + n * s64 s.step) ∧
    s.cursorOvf = decide (maxInt < s64 s.start + n * s64 s.step)

/-- The invariant of the reachable states (R39), with the canonical form of `BUF`. -/
structure Inv (s : State) : Prop where
  capacity : s.cfg.Legal
  bufWf : s.buf.wf
  bufBound : ∀ c ∈ s.buf.cells, c.1 < s.cfg.bufSize
  stepPositive : s.stepSet = true → 1 ≤ s64 s.step
  enc : s.control = .enc → EncInv s
  list : s.control = .list → ListInv s
  polarity : s.pol.toNat ≤ 2
  faultCode : s.control = .fault ↔ s.fcode ≠ 0
  faultCodes : s.fcode.toNat ≤ 4
  faultInfo : s.fcode = 0 → s.finfo = 0

/-- `v` passes the guard: above the previous value, at or above `START`, on the step grid (R112 to R115). -/
abbrev Accepted (v : Word) (s : State) : Prop :=
  (s.prevValid = true → s64 s.prev < s64 v) ∧ s64 s.start ≤ s64 v ∧
    (s64 v - s64 s.start) % s64 s.step = 0

/-- The window bursts that `v` lies above the live window: 0 inside it (R128 (e), R131). -/
def windowsAbove (v : Int) (s : State) : Nat := ((v - s64 s.bottom) / span s).toNat

/-- What a flush over `n` windows writes: the accumulated buffer, then `n - 1` zero buffers (R122, R131). -/
def flushedOctets (n : Nat) (s : State) : List Byte :=
  if n = 0 then [] else s.buf.readFront s.cfg.bufSize ++ List.replicate ((n - 1) * s.cfg.bufSize) 0

/-- The buffer a bit is set in after `n` bursts (R123). -/
def bufAfterFlush (n : Nat) (s : State) : Memory := if n = 0 then s.buf else .zeros

/-- A response with no payload and no other change: what every refusal and every disposition is (R180). -/
abbrev OnlyAnswers (st : Status) (s : State) : Answer :=
  .next { s with rsp := s.rsp ++ [responseWord st 0 0] }

/-- The bits of octet `b`, of the numbers in `js`, that equal `POL` (R142). -/
def matchingBits (b : Byte) (js : List Nat) (s : State) : List Nat :=
  js.filter fun j => bitMatches s.pol (bitOf b j)

/-- The exact value of the cursor `j` bits further on (R26). -/
def cursorAt (j : Nat) (s : State) : Int := s64 s.cursor + j * s64 s.step

/-- Whether the cursor `j` bits further on has passed `MAX` (R26, R147). -/
abbrev CursorPast (j : Nat) (s : State) : Prop := s.cursorOvf = true ∨ maxInt < cursorAt j s

/-- Commands one after the other, each from the state the last one left (R35, R58). -/
def execAll : List Instr → State → Answer
  | [], s => .next s
  | i :: is, s =>
    match exec i s with
    | .next t => execAll is t
    | .fault f => .fault f
    | .refused r => .refused r

/-- Octet `p` of the infinite stream `M` of R129 for the values `A`: bit `j` is 1 exactly when
`start + (8p + j)*step` is in `A`. -/
def bitmapOctet (start step : Int) (A : List Int) (p : Nat) : Byte :=
  BitVec.ofFnLE fun j : Fin 8 => decide (start + (8 * p + j.val : Nat) * step ∈ A)

/-- The encoding of a strictly increasing list of representable values: the shortest prefix of `M` that holds
every set bit (R129). -/
def bitmapOf (start step : Int) (A : List Int) : List Byte :=
  match A.getLast? with
  | none => []
  | some m => (List.range (((m - start) / step).toNat / 8 + 1)).map (bitmapOctet start step A)

/-- The values of `vs` the guard accepts in a fresh stream, in order (R118): each representable and above the
last one accepted (`prev`). -/
def acceptedFrom (start step : Int) : (prev : Option Int) → List Int → List Int
  | _, [] => []
  | prev, v :: vs =>
    if (∀ p ∈ prev, p < v) ∧ start ≤ v ∧ (v - start) % step = 0 then
      v :: acceptedFrom start step (some v) vs
    else acceptedFrom start step prev vs

/-- The values a list scan stands for (R149): those of the bits of the octets that match, in increasing
order. -/
def matchingValues (start step : Int) (pol : BitVec 2) (bs : List Byte) : List Int :=
  ((List.range (8 * bs.length)).filter fun i => bitMatches pol (bitOf (bs.getD (i / 8) 0) (i % 8))).map
    fun i : Nat => start + i * step

end Sys2Proof.Machine
end

