-- ==== Sys2Proof/Certificates/Slice0/Obligations.lean ====
section
/-! DEFINITION. The statements about the model, each a reading of the spec's rules named in its docstring. -/

open Sys2Proof Sys2Proof.Machine

/-! ### Words and steps -/

/-- R70 to R73: no bit of an encoding is dropped; the decoder reads every command back from its word. -/
def Obligations.EncodedCommandDecodesToItself : Prop :=
  ∀ i : Instr, decode (encode i) = .ok i

/-- R70 to R74: a word that decodes is the word of the command it decodes to, so no two words are one command
and no bit of a word is ignored. -/
def Obligations.DecodedWordIsTheCommandsWord : Prop :=
  ∀ (w : CommandWord) (i : Instr), decode w = .ok i → encode i = w

/-- R73, R74 against the match and mask columns of the opcode table: the decoder accepts exactly the words of
the fifteen rows. -/
def Obligations.DecoderAcceptsExactlyTheTable : Prop :=
  ∀ w : CommandWord, (∃ i, decode w = .ok i) ↔ wordWellFormed w = true

/-- R71, R73: words written out from the encoding, one or more of each family, decode to their commands. -/
def Obligations.SampleWordsDecodeAsWritten : Prop :=
  decode 0x01FFFFFFFFFFFFFFEC = .ok (.setStart 0xFFFFFFFFFFFFFFEC) ∧
  decode 0x03000000000000000A = .ok (.regRd 10) ∧
  decode 0x040000000000000000 = .ok .reset ∧
  decode 0x1200000000000F4243 = .ok (.mapSplit 1000003) ∧
  decode 0x210000000000000030 = .ok (.encPush 48) ∧
  decode 0x220000000000000000 = .ok .encEnd ∧
  decode 0x310000000000000002 = .ok (.scanBeginCount 2) ∧
  decode 0x3200000000000000A5 = .ok (.scanByte 0xA5)

/-- R74: a word that is none of the fifteen commands, or has a must-be-zero bit 1, is answered
`ERR_ILLEGAL_CMD` and changes nothing, in every state. That a presented word stands on `port` and a step takes
it off is the model's choice (log entry 4). -/
def Obligations.IllegalWordIsRefusedInEveryState : Prop :=
  ∀ (s : State) (w : CommandWord) (rest : List PortEvent),
    s.port = .command w :: rest → wordWellFormed w = false →
      step s = .next { s with port := rest, rsp := s.rsp ++ [responseWord .errIllegalCmd 0 0] }

/-- R15, R35: a step takes the next command word off the port and is the execution of the command it decodes
to; the rest of the port stays. The port as a list of what is presented is the model's choice (log entry 4). -/
def Obligations.StepExecutesTheDecodedCommand : Prop :=
  ∀ (s : State) (w : CommandWord) (rest : List PortEvent) (i : Instr),
    s.port = .command w :: rest → decode w = .ok i → step s = exec i { s with port := rest }

/-- R191: with nothing presented a step changes nothing. The port is the model's choice (log entry 4). -/
def Obligations.IdlePortHoldsTheState : Prop :=
  ∀ s : State, s.port = [] → step s = .next s

/-- R75, R76: the response word holds the status in bits 79..72, `P` in 71..8 and `Q` in 7..0; and the code of
each of the fifteen statuses. -/
def Obligations.ResponseWordHoldsItsThreeFields : Prop :=
  ∀ (st : Status) (p : Word) (q : Byte),
    (responseWord st p q).extractLsb' 72 8 = st.code ∧ (responseWord st p q).extractLsb' 8 64 = p ∧
      (responseWord st p q).extractLsb' 0 8 = q ∧
      st.code =
        (match st with
          | .ok => 0x00
          | .skipUnsorted => 0x10
          | .skipDuplicate => 0x11
          | .belowStart => 0x12
          | .notRepresentable => 0x13
          | .arithOverflow => 0x30
          | .errIllegalCmd => 0x80
          | .errFaulted => 0x81
          | .errState => 0x82
          | .errNotConfigured => 0x83
          | .errBadOperand => 0x84
          | .faultIoWrite => 0xF1
          | .faultIoRead => 0xF2
          | .faultInvariant => 0xF3
          | .faultArith => 0xF4)

/-- R75, R13: every command gives exactly one response, the last of `RSP`; `P` and `Q` are 0 unless the status
is `OK`, and `Q` is 0 for every command but `MAP_SPLIT`. -/
def Obligations.EveryCommandAnswersExactlyOnce : Prop :=
  ∀ (i : Instr) (s t : State), exec i s = .next t →
    ∃ (st : Status) (p : Word) (q : Byte), t.rsp = s.rsp ++ [responseWord st p q] ∧
      (st ≠ .ok → p = 0 ∧ q = 0) ∧ ((∀ x, i ≠ .mapSplit x) → q = 0)

/-! ### The checks of every command -/

/-- R184: in `FAULT` every command but `RESET` and `REG_RD` is refused `ERR_FAULTED` and changes nothing. -/
def Obligations.FaultStateRefusesAllButResetAndRead : Prop :=
  ∀ (i : Instr) (s : State), s.control = .fault → i ≠ .reset → (∀ r, i ≠ .regRd r) →
    exec i s = OnlyAnswers .errFaulted s

/-- R166: a command the table does not allow in the current state is refused `ERR_STATE` and changes nothing. -/
def Obligations.CommandOutsideItsStatesIsRefused : Prop :=
  ∀ (i : Instr) (s : State), s.control ≠ .fault → legalIn i s.control = false →
    exec i s = OnlyAnswers .errState s

/-- R167 (4), R212: before `START` and `STEP` are both loaded, the commands that need them are refused
`ERR_NOT_CONFIGURED`, whatever their operand. -/
def Obligations.UnconfiguredCommandIsRefused : Prop :=
  ∀ (i : Instr) (s : State), needsConfig i = true → legalIn i s.control = true → ¬ Configured s →
    exec i s = OnlyAnswers .errNotConfigured s

/-- R167 (5): an operand outside the command's legal set is refused `ERR_BAD_OPERAND`, once the checks before
it have passed. -/
def Obligations.BadOperandIsRefusedLast : Prop :=
  ∀ (i : Instr) (s : State), operandLegal i = false → legalIn i s.control = true →
    (needsConfig i = true → Configured s) → exec i s = OnlyAnswers .errBadOperand s

/-! ### System commands -/

/-- R160, whole: its word, its effect in `IDLE` for every operand, and its refusals elsewhere. -/
def Obligations.SetStartLoadsStartInIdle : Prop :=
  ∀ (v : Word) (s : State),
    encode (.setStart v) = (0x01 : Byte) ++ v ∧
    (s.control = .idle → exec (.setStart v) s =
      .next { s with start := v, startSet := true, rsp := s.rsp ++ [responseWord .ok 0 0] }) ∧
    (s.control = .fault → exec (.setStart v) s = OnlyAnswers .errFaulted s) ∧
    (s.control ≠ .idle → s.control ≠ .fault → exec (.setStart v) s = OnlyAnswers .errState s)

/-- R161, whole: its word, its effect for a positive step, and its refusals in their order. -/
def Obligations.SetStepLoadsAPositiveStepInIdle : Prop :=
  ∀ (v : Word) (s : State),
    encode (.setStep v) = (0x02 : Byte) ++ v ∧
    (s.control = .idle → 1 ≤ v.toInt → exec (.setStep v) s =
      .next { s with step := v, stepSet := true, rsp := s.rsp ++ [responseWord .ok 0 0] }) ∧
    (s.control = .idle → v.toInt ≤ 0 → exec (.setStep v) s = OnlyAnswers .errBadOperand s) ∧
    (s.control = .fault → exec (.setStep v) s = OnlyAnswers .errFaulted s) ∧
    (s.control ≠ .idle → s.control ≠ .fault → exec (.setStep v) s = OnlyAnswers .errState s)

/-- R162 with the register numbers of R32: its word; in every state `REG_RD` answers the numbered register,
refuses the numbers above 10, and changes nothing. -/
def Obligations.RegisterReadAnswersTheNumberedRegister : Prop :=
  ∀ s : State,
    let answers (r x : Word) : Prop :=
      exec (.regRd r) s = .next { s with rsp := s.rsp ++ [responseWord .ok x 0] }
    (∀ r : Word, encode (.regRd r) = (0x03 : Byte) ++ r) ∧
    answers 0 s.start ∧ answers 1 s.step ∧ answers 2 s.bottom ∧ answers 3 s.beyond ∧ answers 4 s.prev ∧
    answers 5 s.cursor ∧ answers 6 s.count ∧ answers 7 (statusWord s) ∧ answers 8 (s.fcode.setWidth 64) ∧
    answers 9 s.finfo ∧ answers 10 (BitVec.ofNat 64 s.cfg.bufSize) ∧
    (∀ r : Word, 10 < r.toNat → exec (.regRd r) s = OnlyAnswers .errBadOperand s)

/-- R31: the layout of `STATUS`, every bit of it. -/
def Obligations.StatusWordHasItsLayout : Prop :=
  ∀ s : State,
    ((statusWord s).extractLsb' 0 3).toNat =
      (match s.control with | .idle => 0 | .enc => 1 | .list => 2 | .count => 3 | .fault => 4) ∧
    (statusWord s).getLsbD 3 = false ∧ (statusWord s).getLsbD 4 = s.startSet ∧
    (statusWord s).getLsbD 5 = s.stepSet ∧ (statusWord s).getLsbD 6 = s.prevValid ∧
    (statusWord s).getLsbD 7 = s.beyondOvf ∧ (statusWord s).getLsbD 8 = s.cursorOvf ∧
    (statusWord s).extractLsb' 9 2 = s.pol ∧ (statusWord s).extractLsb' 11 53 = 0

/-- R163, R38: in every state `RESET` gives every register, flag and code its reset value, answers `OK` and
leaves the configuration and the environment's side alone (log entries 1, 3, 4 and 5). `BUF` becomes
unspecified: nothing is said of it. -/
def Obligations.ResetCommandRestoresTheResetValues : Prop :=
  ∀ s : State, ∃ t, exec .reset s = .next t ∧
    t.start = 0 ∧ t.step = 0 ∧ t.bottom = 0 ∧ t.beyond = 0 ∧ t.prev = 0 ∧ t.cursor = 0 ∧ t.count = 0 ∧
    t.startSet = false ∧ t.stepSet = false ∧ t.prevValid = false ∧ t.beyondOvf = false ∧
    t.cursorOvf = false ∧ t.pol = 0 ∧ t.control = .idle ∧ t.fcode = 0 ∧ t.finfo = 0 ∧
    t.rsp = s.rsp ++ [responseWord .ok 0 0] ∧ t.out = s.out ∧ t.vals = s.vals ∧ t.cfg = s.cfg ∧
    t.port = s.port ∧ t.sinkAnswers = s.sinkAnswers

/-- R210, R211: the reset input, between commands, has the same effect on the block as `RESET`, and gives no response. The
input as an event on the port is the model's choice (log entry 4). -/
def Obligations.ResetInputActsAsResetWithoutResponse : Prop :=
  ∀ (s : State) (rest : List PortEvent), s.port = .resetInput :: rest →
    ∃ t u, step s = .next t ∧ exec .reset { s with port := rest } = .next u ∧
      t = { u with rsp := s.rsp } ∧ t.control = .idle ∧ faultOut t = false

/-- R164: with a stream open `SRC_ERR` takes the `IO_READ` fault: `FCODE` 2, `FINFO` 0, status `0xF2`, and
nothing else changes; in `IDLE` and in `FAULT` it is refused. -/
def Obligations.SourceErrorTakesTheReadFault : Prop :=
  ∀ s : State,
    encode .srcErr = 0x050000000000000000 ∧
    (s.control = .enc ∨ s.control = .list ∨ s.control = .count → exec .srcErr s =
      .next { s with
        fcode := 2, finfo := 0, control := .fault
        rsp := s.rsp ++ [(0xF2 : Byte) ++ (0 : Word) ++ (0 : Byte)] }) ∧
    (s.control = .idle → exec .srcErr s = OnlyAnswers .errState s) ∧
    (s.control = .fault → exec .srcErr s = OnlyAnswers .errFaulted s)

/-! ### IndexMapper -/

/-- R98, R94: the word of `MAP_TOINDEX`, its refusals, and its answer: the exact quotient, or which of the two
conditions failed, the first one first. Nothing but `RSP` changes. -/
def Obligations.ToIndexAnswersTheExactIndex : Prop :=
  ∀ (v : Word) (s : State),
    encode (.mapToIndex v) = (0x10 : Byte) ++ v ∧
    (s.control = .fault → exec (.mapToIndex v) s = OnlyAnswers .errFaulted s) ∧
    (s.control ≠ .fault → ¬ Configured s → exec (.mapToIndex v) s = OnlyAnswers .errNotConfigured s) ∧
    (s.control ≠ .fault → Configured s → 1 ≤ s.step.toInt →
      (v.toInt < s.start.toInt → exec (.mapToIndex v) s = OnlyAnswers .belowStart s) ∧
      (s.start.toInt ≤ v.toInt → (v.toInt - s.start.toInt) % s.step.toInt ≠ 0 →
        exec (.mapToIndex v) s = OnlyAnswers .notRepresentable s) ∧
      (s.start.toInt ≤ v.toInt → (v.toInt - s.start.toInt) % s.step.toInt = 0 →
        ∃ p : Word, (p.toNat : Int) = (v.toInt - s.start.toInt) / s.step.toInt ∧
          exec (.mapToIndex v) s = .next { s with rsp := s.rsp ++ [responseWord .ok p 0] }))

/-- R99, R95: the word of `MAP_TOVALUE`, its refusals, and its answer: `START + i*STEP` exactly, or
`ARITH_OVERFLOW` when it exceeds `MAX`. Nothing but `RSP` changes. -/
def Obligations.ToValueAnswersOrOverflows : Prop :=
  ∀ (i : Word) (s : State),
    encode (.mapToValue i) = (0x11 : Byte) ++ i ∧
    (s.control = .fault → exec (.mapToValue i) s = OnlyAnswers .errFaulted s) ∧
    (s.control ≠ .fault → ¬ Configured s → exec (.mapToValue i) s = OnlyAnswers .errNotConfigured s) ∧
    (s.control ≠ .fault → Configured s → 1 ≤ s.step.toInt →
      (2 ^ 63 ≤ s.start.toInt + i.toNat * s.step.toInt →
        exec (.mapToValue i) s = OnlyAnswers .arithOverflow s) ∧
      (s.start.toInt + i.toNat * s.step.toInt < 2 ^ 63 →
        ∃ p : Word, p.toInt = s.start.toInt + i.toNat * s.step.toInt ∧
          exec (.mapToValue i) s = .next { s with rsp := s.rsp ++ [responseWord .ok p 0] }))

/-- R100, R96: `MAP_SPLIT` answers octet `i div 8` and bit `i mod 8`, with no configuration needed. -/
def Obligations.SplitAnswersOctetAndBit : Prop :=
  ∀ (i : Word) (s : State),
    encode (.mapSplit i) = (0x12 : Byte) ++ i ∧
    (s.control ≠ .fault → exec (.mapSplit i) s =
      .next { s with rsp := s.rsp ++ [responseWord .ok (i >>> 3) (i.setWidth 8 &&& 7)] }) ∧
    (s.control = .fault → exec (.mapSplit i) s = OnlyAnswers .errFaulted s)

/-- R97: for a positive step `toIndex` and `toValue` are inverse to each other and strictly increasing, and
the indices that have a value are those up to `(MAX - START) div STEP`. -/
def Obligations.IndexAndValueAreInverseBijections : Prop :=
  ∀ start step : Word, 1 ≤ s64 step →
    (∀ v i, toIndex start step v = some (.index i) →
      i < 2 ^ 64 ∧ toValue start step (BitVec.ofNat 64 i) = some (s64 v)) ∧
    (∀ i z, toValue start step i = some z → toIndex start step (wrap64 z) = some (.index (u64 i))) ∧
    (∀ v v' i i', toIndex start step v = some (.index i) → toIndex start step v' = some (.index i') →
      (s64 v < s64 v' ↔ i < i')) ∧
    (∀ i, (toValue start step i).isSome = true ↔ (u64 i : Int) ≤ (maxInt - s64 start) / s64 step)

/-- R102: the three mapper commands change nothing but `RSP`, in every state. -/
def Obligations.MapperChangesOnlyResponses : Prop :=
  ∀ (x : Word) (s t : State),
    exec (.mapToIndex x) s = .next t ∨ exec (.mapToValue x) s = .next t ∨ exec (.mapSplit x) s = .next t →
      ∃ r : ResponseWord, t = { s with rsp := s.rsp ++ [r] }

/-! ### Value guard and BitmapEncoder -/

/-- R120: the word of `ENC_BEGIN`, its refusals in their order, and its effect: the window opens at `START` with
the checked bound, no previous value and a zero buffer. -/
def Obligations.EncodeBeginOpensTheFirstWindow : Prop :=
  ∀ s : State,
    encode .encBegin = 0x200000000000000000 ∧
    (s.control = .fault → exec .encBegin s = OnlyAnswers .errFaulted s) ∧
    (s.control ≠ .fault → s.control ≠ .idle → exec .encBegin s = OnlyAnswers .errState s) ∧
    (s.control = .idle → ¬ Configured s → exec .encBegin s = OnlyAnswers .errNotConfigured s) ∧
    (s.control = .idle → Configured s →
      let bound : Int := s64 s.start + 8 * s.cfg.bufSize * s64 s.step
      (1 ≤ s64 s.step → bound ≤ maxInt → s64 (wrap64 bound) = bound) ∧
      ∃ m : Memory, (∀ a, m.read a = 0) ∧ exec .encBegin s =
        .next { s with
          bottom := s.start, beyond := wrap64 bound, beyondOvf := decide (maxInt < bound)
          prev := 0, prevValid := false, buf := m, control := .enc
          rsp := s.rsp ++ [responseWord .ok 0 0] })

/-- R111 to R114: a value the guard does not accept gets the disposition of the first check that applies, in
the source's order, and changes nothing. -/
def Obligations.GuardReportsTheFirstCheckThatApplies : Prop :=
  ∀ (v : Word) (s : State), s.control = .enc → 1 ≤ s64 s.step →
    (s.prevValid = true → s64 v < s64 s.prev → exec (.encPush v) s = OnlyAnswers .skipUnsorted s) ∧
    (s.prevValid = true → s64 v = s64 s.prev → exec (.encPush v) s = OnlyAnswers .skipDuplicate s) ∧
    ((s.prevValid = true → s64 s.prev < s64 v) → s64 v < s64 s.start →
      exec (.encPush v) s = OnlyAnswers .belowStart s) ∧
    ((s.prevValid = true → s64 s.prev < s64 v) → s64 s.start ≤ s64 v →
      (s64 v - s64 s.start) % s64 s.step ≠ 0 → exec (.encPush v) s = OnlyAnswers .notRepresentable s)

/-- R115, R124, R125: the word of `ENC_PUSH` (R71, R73); and an accepted value of the live window becomes `PREV` and sets the one bit of its index;
every other octet, register and stream is as before. -/
def Obligations.PushInsideTheWindowSetsOneBit : Prop :=
  ∀ (v : Word) (s : State),
    encode (.encPush v) = (0x21 : Byte) ++ v ∧
    (Inv s → s.control = .enc → Accepted v s → s.beyondOvf = true ∨ s64 v < s64 s.beyond →
    ∃ t, exec (.encPush v) s = .next t ∧ windowIndex (s64 v) s < 8 * s.cfg.bufSize ∧
      (∀ a, t.buf.read a =
        if a = windowIndex (s64 v) s / 8 then s.buf.read a ||| (1 : Byte) <<< (windowIndex (s64 v) s % 8)
        else s.buf.read a) ∧
      t = { s with
        prev := v, prevValid := true, buf := t.buf, rsp := s.rsp ++ [responseWord .ok 0 0] })

/-- R130: an accepted value equal to `BEYOND` makes exactly one burst, the accumulated buffer, and sets bit 0
of the next window. The sink's answers are the ones the host has named (log entry 5). -/
def Obligations.BoundaryValueFlushesExactlyOnce : Prop :=
  ∀ (v : Word) (s : State) (rest : List SinkAnswer), Inv s → s.control = .enc → Accepted v s →
    s.beyondOvf = false → v = s.beyond → s.sinkAnswers = .ok :: rest →
    ∃ t, exec (.encPush v) s = .next t ∧ t.out = s.out ++ s.buf.readFront s.cfg.bufSize ∧
      t.bottom = s.beyond ∧ t.rsp = s.rsp ++ [responseWord .ok 1 0] ∧
      (∀ a, t.buf.read a = if a = 0 then 1 else 0) ∧
      (t.beyondOvf = false → s64 t.beyond = s64 v + span s)

/-- R121, R122, R123, R128 (e), R131: an accepted value `n` windows above the live one, with the sink taking
every burst, writes the accumulated buffer and `n - 1` zero buffers, leaves the window of number
`(v - START) div SPAN` with the one bit of index `((v - START) div STEP) mod 8*B` set in a buffer that is new
when `n > 0`, and answers `n`. The sink's answers are the ones the host has named (log entry 5). -/
def Obligations.PushCrossesTheGapInClosedForm : Prop :=
  ∀ (v : Word) (s : State) (rest : List SinkAnswer), Inv s → s.control = .enc → Accepted v s →
    s.sinkAnswers = List.replicate (windowsAbove (s64 v) s) .ok ++ rest →
    ∃ t, exec (.encPush v) s = .next t ∧
      s64 t.bottom = s64 s.start + (s64 v - s64 s.start) / span s * span s ∧
      s64 t.bottom = s64 s.bottom + windowsAbove (s64 v) s * span s ∧
      t.out = s.out ++ flushedOctets (windowsAbove (s64 v) s) s ∧
      (∀ a, t.buf.read a =
        let idx := ((s64 v - s64 s.start) / s64 s.step % (8 * s.cfg.bufSize)).toNat
        let old := (bufAfterFlush (windowsAbove (s64 v) s) s).read a
        if a = idx / 8 then old ||| (1 : Byte) <<< (idx % 8) else old) ∧
      t = { s with
        bottom := t.bottom, beyond := wrap64 (s64 t.bottom + span s)
        beyondOvf := decide (maxInt < s64 t.bottom + span s), prev := v, prevValid := true, buf := t.buf
        sinkAnswers := rest, out := t.out
        rsp := s.rsp ++ [responseWord .ok (BitVec.ofNat 64 (windowsAbove (s64 v) s)) 0] }

/-- R127, R183, for the flush loop: when the sink takes `m` bursts and fails the next, the block is in `FAULT`
with `FCODE` 1 and `FINFO = B`, the window advanced by the `m` bursts alone, `PREV` written, `BUF` as it was,
and a proper prefix of the failed burst in `OUT`, its first `k` octets. The sink's answers are the ones the
host has named, and a `k` past the end of the burst counts as a shorter one (log entry 5). -/
def Obligations.FailedFlushLeavesThePreciseFault : Prop :=
  ∀ (v : Word) (s : State) (m k : Nat) (rest : List SinkAnswer), Inv s → s.control = .enc → Accepted v s →
    m < windowsAbove (s64 v) s → s.sinkAnswers = List.replicate m .ok ++ .fail k :: rest →
    ∃ t, exec (.encPush v) s = .next t ∧ s64 t.bottom = s64 s.bottom + m * span s ∧
      (∃ n, n < s.cfg.bufSize ∧ (k < s.cfg.bufSize → n = k) ∧
        t.out = s.out ++ flushedOctets m s ++
          (if m = 0 then s.buf.readFront s.cfg.bufSize else List.replicate s.cfg.bufSize 0).take n) ∧
      t = { s with
        bottom := t.bottom, beyond := wrap64 (s64 t.bottom + span s)
        beyondOvf := decide (maxInt < s64 t.bottom + span s), prev := v, prevValid := true
        control := .fault, fcode := 1, finfo := BitVec.ofNat 64 s.cfg.bufSize
        sinkAnswers := rest, out := t.out
        rsp := s.rsp ++ [(0xF1 : Byte) ++ (0 : Word) ++ (0 : Byte)] }

/-- R125, R128: the `INVARIANT` fault (`FCODE` 3) cannot be taken by any command from a state that meets the
invariant. -/
def Obligations.InvariantFaultIsUnreachable : Prop :=
  ∀ (i : Instr) (s t : State), Inv s → s.fcode ≠ 3 → exec i s = .next t → t.fcode ≠ 3

/-- R132: once the window bound has overflowed, every push of the stream leaves the window where it is and
writes nothing to the sink, nor uses one of its answers (log entry 5). -/
def Obligations.OverflowedWindowNeverFlushes : Prop :=
  ∀ (v : Word) (s t : State), s.control = .enc → s.beyondOvf = true → exec (.encPush v) s = .next t →
    t.beyondOvf = true ∧ t.bottom = s.bottom ∧ t.beyond = s.beyond ∧ t.out = s.out ∧
      t.sinkAnswers = s.sinkAnswers

/-- R126, R127: `ENC_END` writes the octets up to the highest non-zero one in one burst, nothing for an
all-zero buffer; a failed burst is the `IO_WRITE` fault with the burst's length. The registers and `BUF` stay.
The sink's answer is the one its next draw names (log entry 5). -/
def Obligations.EncodeEndWritesTheTrimmedTail : Prop :=
  ∀ s : State, s.control = .enc →
    ((∀ j < s.cfg.bufSize, s.buf.read j = 0) → exec .encEnd s =
      .next { s with control := .idle, rsp := s.rsp ++ [responseWord .ok 0 0] }) ∧
    (∀ last < s.cfg.bufSize, s.buf.read last ≠ 0 →
      (∀ j, last < j → j < s.cfg.bufSize → s.buf.read j = 0) →
      (sinkAnswer s = .ok → exec .encEnd s =
        .next { useSinkAnswer s with
          control := .idle, out := s.out ++ s.buf.readFront (last + 1)
          rsp := s.rsp ++ [responseWord .ok (BitVec.ofNat 64 (last + 1)) 0] }) ∧
      (∀ k, sinkAnswer s = .fail k → ∃ n, n < last + 1 ∧ (k < last + 1 → n = k) ∧ exec .encEnd s =
        .next { useSinkAnswer s with
          control := .fault, fcode := 1, finfo := BitVec.ofNat 64 (last + 1)
          out := s.out ++ (s.buf.readFront (last + 1)).take n
          rsp := s.rsp ++ [(0xF1 : Byte) ++ (0 : Word) ++ (0 : Byte)] }))

/-- R129: the octets of a whole encode stream are the shortest prefix of the bitmap of the accepted values
that holds every set bit, whatever values are pushed and whatever `B` is, when the sink takes every burst (the
answers the host has named, log entry 5). -/
def Obligations.StreamWritesTheMinimalBitmap : Prop :=
  ∀ (s : State) (vs : List Word), Inv s → s.control = .idle → Configured s →
    (∀ a ∈ s.sinkAnswers, a = .ok) →
    (∀ v ∈ vs, ((s64 v - s64 s.start) / span s).toNat + 1 ≤ s.sinkAnswers.length) →
    ∃ t, execAll (.encBegin :: (vs.map .encPush ++ [.encEnd])) s = .next t ∧ t.control = .idle ∧
      t.out = s.out ++ bitmapOf (s64 s.start) (s64 s.step)
        (acceptedFrom (s64 s.start) (s64 s.step) none (vs.map s64))

/-! ### BitmapScanner -/

/-- R140: the word of `SCAN_BEGIN_LIST p`, its refusals in their order, and its effect for the polarities 0
and 1. -/
def Obligations.ListScanBeginsAtStart : Prop :=
  ∀ (p : BitVec 2) (s : State),
    encode (.scanBeginList p) = (0x30 : Byte) ++ p.setWidth 64 ∧
    (s.control = .fault → exec (.scanBeginList p) s = OnlyAnswers .errFaulted s) ∧
    (s.control ≠ .fault → s.control ≠ .idle → exec (.scanBeginList p) s = OnlyAnswers .errState s) ∧
    (s.control = .idle → ¬ Configured s → exec (.scanBeginList p) s = OnlyAnswers .errNotConfigured s) ∧
    (s.control = .idle → Configured s → p = 2 ∨ p = 3 →
      exec (.scanBeginList p) s = OnlyAnswers .errBadOperand s) ∧
    (s.control = .idle → Configured s → p = 0 ∨ p = 1 → exec (.scanBeginList p) s =
      .next { s with
        cursor := s.start, cursorOvf := false, pol := p, control := .list
        rsp := s.rsp ++ [responseWord .ok 0 0] })

/-- R141: the word of `SCAN_BEGIN_COUNT p`, its refusals in their order, and its effect for the polarities 0, 1
and 2 ("any"), with no configuration needed. -/
def Obligations.CountScanBeginsAtZero : Prop :=
  ∀ (p : BitVec 2) (s : State),
    encode (.scanBeginCount p) = (0x31 : Byte) ++ p.setWidth 64 ∧
    (s.control = .fault → exec (.scanBeginCount p) s = OnlyAnswers .errFaulted s) ∧
    (s.control ≠ .fault → s.control ≠ .idle → exec (.scanBeginCount p) s = OnlyAnswers .errState s) ∧
    (s.control = .idle → p = 3 → exec (.scanBeginCount p) s = OnlyAnswers .errBadOperand s) ∧
    (s.control = .idle → p = 0 ∨ p = 1 ∨ p = 2 → exec (.scanBeginCount p) s =
      .next { s with count := 0, pol := p, control := .count, rsp := s.rsp ++ [responseWord .ok 0 0] })

/-- R142: the word of `SCAN_BYTE` (R71, R73); and in list mode an octet whose matching bits all stand for values up to `MAX` emits those values in
ascending order of the bits, and moves the cursor eight steps on, with its sticky flag. -/
def Obligations.ListOctetEmitsTheMatchingValues : Prop :=
  ∀ (b : Byte) (s : State),
    encode (.scanByte b) = (0x32 : Byte) ++ b.setWidth 64 ∧
    (s.control = .list → 1 ≤ s64 s.step → (∀ j ∈ matchingBits b (List.range 8) s, ¬ CursorPast j s) →
    exec (.scanByte b) s =
      .next { s with
        cursor := wrap64 (cursorAt 8 s), cursorOvf := decide (CursorPast 8 s)
        vals := s.vals ++ (matchingBits b (List.range 8) s).map fun j => cursorAt j s
        rsp := s.rsp ++
          [responseWord .ok (BitVec.ofNat 64 (matchingBits b (List.range 8) s).length) 0] })

/-- R142, R147, R183: the first matching bit whose value is past `MAX` takes the `ARITH` fault with
`FINFO = j + 256*b`, after the values of the lower matching bits, with the cursor at the faulting bit. -/
def Obligations.ListOctetFaultsAtTheFirstValuePastMax : Prop :=
  ∀ (b : Byte) (j : Nat) (s : State), s.control = .list → 1 ≤ s64 s.step → j < 8 →
    bitMatches s.pol (bitOf b j) = true → CursorPast j s →
    (∀ i ∈ matchingBits b (List.range j) s, ¬ CursorPast i s) →
    exec (.scanByte b) s =
      .next { s with
        cursor := wrap64 (cursorAt j s), cursorOvf := true
        vals := s.vals ++ (matchingBits b (List.range j) s).map fun i => cursorAt i s
        control := .fault, fcode := 4, finfo := BitVec.ofNat 64 (j + 256 * b.toNat)
        rsp := s.rsp ++ [(0xF4 : Byte) ++ (0 : Word) ++ (0 : Byte)] }

/-- R143, R144, R148: in count mode an octet adds the number of its bits that match, all eight for "any"; an
increment past `2^64 - 1` is the `ARITH` fault and leaves `COUNT`. -/
def Obligations.CountOctetAddsTheMatchingBits : Prop :=
  ∀ (b : Byte) (s : State), s.control = .count → s.pol ≠ 3 →
    ∃ n : Nat, n = (if s.pol = 2 then 8 else (matchingBits b (List.range 8) s).length) ∧
    (s.count.toNat + n < 2 ^ 64 → ∃ c : Word, c.toNat = s.count.toNat + n ∧ exec (.scanByte b) s =
      .next { s with count := c, rsp := s.rsp ++ [responseWord .ok (BitVec.ofNat 64 n) 0] }) ∧
    (2 ^ 64 ≤ s.count.toNat + n → exec (.scanByte b) s =
      .next { s with
        control := .fault, fcode := 4, finfo := BitVec.ofNat 64 n
        rsp := s.rsp ++ [(0xF4 : Byte) ++ (0 : Word) ++ (0 : Byte)] })

/-- R146: `SCAN_END` closes the scan; list mode answers 0, count mode the count; the scanner's
registers keep their values. -/
def Obligations.ScanEndClosesTheScan : Prop :=
  ∀ s : State,
    encode .scanEnd = 0x330000000000000000 ∧
    (s.control = .list → exec .scanEnd s =
      .next { s with control := .idle, rsp := s.rsp ++ [responseWord .ok 0 0] }) ∧
    (s.control = .count → exec .scanEnd s =
      .next { s with control := .idle, rsp := s.rsp ++ [responseWord .ok s.count 0] }) ∧
    (s.control = .fault → exec .scanEnd s = OnlyAnswers .errFaulted s) ∧
    (s.control = .idle ∨ s.control = .enc → exec .scanEnd s = OnlyAnswers .errState s)

/-- R149, list mode: a whole scan emits, in increasing order, the values of the matching bits of its octets,
provided each is at most `MAX`. -/
def Obligations.ListScanEmitsEveryMatchingValue : Prop :=
  ∀ (s : State) (p : BitVec 2) (bs : List Byte), s.control = .idle → Configured s → 1 ≤ s64 s.step →
    p = 0 ∨ p = 1 →
    (∀ v ∈ matchingValues (s64 s.start) (s64 s.step) p bs, v ≤ maxInt) →
    ∃ t, execAll (.scanBeginList p :: (bs.map .scanByte ++ [.scanEnd])) s = .next t ∧ t.control = .idle ∧
      t.vals = s.vals ++ matchingValues (s64 s.start) (s64 s.step) p bs

/-- R149, list mode, the other case: a scan that meets a matching bit whose value is past `MAX` ends in the
`ARITH` fault, having emitted all the smaller values and nothing else. -/
def Obligations.ListScanFaultsAfterTheLastValue : Prop :=
  ∀ (s : State) (p : BitVec 2) (bs : List Byte), s.control = .idle → Configured s → 1 ≤ s64 s.step →
    p = 0 ∨ p = 1 →
    (∃ v ∈ matchingValues (s64 s.start) (s64 s.step) p bs, maxInt < v) →
    ∃ t, execAll (.scanBeginList p :: bs.map .scanByte) s = .next t ∧ t.control = .fault ∧ t.fcode = 4 ∧
      t.vals = s.vals ++ (matchingValues (s64 s.start) (s64 s.step) p bs).filter fun v => v ≤ maxInt

/-- R150 (c): for any octets, the count of 0 bits and the count of 1 bits add up to the count of "any", which
is eight times the number of octets; each is what the last response carries. -/
def Obligations.CountsOfAnyStreamAreConsistent : Prop :=
  ∀ (s : State) (bs : List Byte), s.control = .idle → 8 * bs.length < 2 ^ 64 →
    ∃ t0 t1 t2,
      execAll (.scanBeginCount 0 :: (bs.map .scanByte ++ [.scanEnd])) s = .next t0 ∧
      execAll (.scanBeginCount 1 :: (bs.map .scanByte ++ [.scanEnd])) s = .next t1 ∧
      execAll (.scanBeginCount 2 :: (bs.map .scanByte ++ [.scanEnd])) s = .next t2 ∧
      t0.rsp.getLast? = some (responseWord .ok t0.count 0) ∧
      t1.rsp.getLast? = some (responseWord .ok t1.count 0) ∧
      t2.rsp.getLast? = some (responseWord .ok t2.count 0) ∧
      t0.count.toNat + t1.count.toNat = t2.count.toNat ∧ t2.count.toNat = 8 * bs.length

/-- R150 (a), (b): decoding the encoding of any finite strictly increasing list of representable values with
polarity 1 and the same Progression emits exactly those values, and does not fault. -/
def Obligations.DecodeOfEncodeIsTheValues : Prop :=
  ∀ (s : State) (V : List Int), s.control = .idle → Configured s → 1 ≤ s64 s.step →
    V.Pairwise (· < ·) →
    (∀ v ∈ V, s64 s.start ≤ v ∧ v ≤ maxInt ∧ (v - s64 s.start) % s64 s.step = 0) →
    ∃ t, execAll (.scanBeginList 1 ::
        ((bitmapOf (s64 s.start) (s64 s.step) V).map .scanByte ++ [.scanEnd])) s = .next t ∧
      t.control = .idle ∧ t.vals = s.vals ++ V

/-! ### The whole machine -/

/-- R38, R32: right after reset the registers 0 to 9 read 0, `BUFSIZE` reads `B`, the block is in `IDLE` and
`FAULT_OUT` is 0. That the histories start empty, and where `B` comes from, is the model's choice (log entries
3 and 1). -/
def Obligations.ResetStateReadsAsTheSpecSays : Prop :=
  State.reset.control = .idle ∧ faultOut State.reset = false ∧ statusWord State.reset = 0 ∧
  State.reset.cfg.Legal ∧
  (∀ r : Word, r.toNat < 10 → exec (.regRd r) State.reset =
    .next { State.reset with rsp := [responseWord .ok 0 0] }) ∧
  exec (.regRd 10) State.reset =
    .next { State.reset with rsp := [responseWord .ok (BitVec.ofNat 64 State.reset.cfg.bufSize) 0] }

/-- R39: the invariant holds right after reset; its `B` is a legal one (log entry 1). -/
def Obligations.ResetStateMeetsTheInvariant : Prop := Inv State.reset

/-- R39: every step, from every state that meets the invariant, leads to a state that meets it, whatever the
port holds (log entries 4 and 6) and however the sink answers (log entry 5). -/
def Obligations.EveryStepKeepsTheInvariant : Prop :=
  ∀ s t : State, Inv s → step s = .next t → Inv t

/-- R10, R15, R39, R210: from every state that meets the invariant a step answers a next state, so the model's
stop (log entry 7) is never met there: with any event on the port, a command, the reset input or a command the
reset input cuts short (log entries 4 and 6), and with any answers of the sink (log entry 5). -/
def Obligations.EveryStepCompletesUnderTheInvariant : Prop :=
  ∀ s : State, Inv s → ∃ t, step s = .next t

/-- R165: the changes of `STATE` are those of the table, and no others. -/
def Obligations.ControlStateChangesOnlyByTheTable : Prop :=
  ∀ (i : Instr) (s t : State), exec i s = .next t → transition i s.control t.control = true

/-- R184, R185: in `FAULT` a step that takes neither `RESET` nor the reset input, alone or during a command, leaves the block, its fault
registers and its outputs as they are, with `FAULT_OUT` at 1. The port is the model's choice (log entry 4). -/
def Obligations.FaultIsStickyUntilReset : Prop :=
  ∀ s t : State, s.control = .fault → step s = .next t →
    (∀ rest, s.port ≠ .resetInput :: rest) → (∀ w n rest, s.port ≠ .resetDuring w n :: rest) →
    (∀ rest, s.port ≠ .command (encode .reset) :: rest) →
    faultOut t = true ∧ t = { s with port := t.port, rsp := t.rsp }

/-- R21, R22, R218: while a stream is open no command but `RESET` changes the Progression or its set flags. -/
def Obligations.ProgressionIsFixedWhileAStreamIsOpen : Prop :=
  ∀ (i : Instr) (s t : State), s.control ≠ .idle → i ≠ .reset → exec i s = .next t →
    t.start = s.start ∧ t.step = s.step ∧ t.startSet = s.startSet ∧ t.stepSet = s.stepSet

/-- R36, R56, R57: the three histories only grow at their end, through every step, a reset among them.
That the histories stand in the state is the model's choice (log entry 3). -/
def Obligations.HistoriesOnlyGrow : Prop :=
  ∀ s t : State, step s = .next t → s.out <+: t.out ∧ s.vals <+: t.vals ∧ s.rsp <+: t.rsp

/-- R7, R20: `B` is constant for the life of the block: no step changes the configuration
(where the model holds it is log entry 1). -/
def Obligations.CapacityNeverChanges : Prop :=
  ∀ s t : State, step s = .next t → t.cfg = s.cfg

/-- R33, R54, R23 to R25: `BUF` and the encoder's cursor are written by `ENC_BEGIN`, `ENC_PUSH` and `RESET`
and by no other command. -/
def Obligations.OnlyTheEncoderWritesItsState : Prop :=
  ∀ (i : Instr) (s t : State), i ≠ .encBegin → (∀ v, i ≠ .encPush v) → i ≠ .reset → exec i s = .next t →
    t.buf = s.buf ∧ t.bottom = s.bottom ∧ t.beyond = s.beyond ∧ t.beyondOvf = s.beyondOvf ∧
      t.prev = s.prev ∧ t.prevValid = s.prevValid

/-- R26, R27, R28: the scanner's cursor, count and polarity are written by the scanner's commands and `RESET`
and by no other command. -/
def Obligations.OnlyTheScannerWritesItsState : Prop :=
  ∀ (i : Instr) (s t : State), (∀ p, i ≠ .scanBeginList p) → (∀ p, i ≠ .scanBeginCount p) →
    (∀ b, i ≠ .scanByte b) → i ≠ .reset → exec i s = .next t →
    t.cursor = s.cursor ∧ t.cursorOvf = s.cursorOvf ∧ t.count = s.count ∧ t.pol = s.pol ∧ t.vals = s.vals

/-- R210, R211, R219: the reset input asserted while a command executes, in place of its response. Where the
command alone would lead to `u`, the block is in the reset state, `BUF` unspecified, with no response; of what
the command would put out, the first `n` octets and values stand in `OUT` and `VAL`, and nothing else. The event
on the port, the cut at any `n`, and the sink's answers used up are the model's choices (log entries 4, 5, 6). -/
def Obligations.ResetInputCutsACommandShort : Prop :=
  ∀ (s : State) (w : CommandWord) (n : Nat) (rest : List PortEvent), Inv s → s.port = .resetDuring w n :: rest →
    ∃ (u : State) (buf : Memory) (draws : Nat) (out : List Byte) (vals : List Int),
      step { s with port := .command w :: rest } = .next u ∧
      (out <+: u.out ∧ out.length = min (s.out.length + n) u.out.length) ∧
      (vals <+: u.vals ∧ vals.length = min (s.vals.length + n) u.vals.length) ∧
      step s = .next { State.reset with
        cfg := s.cfg, buf := buf, draws := draws, port := rest, sinkAnswers := u.sinkAnswers
        out := out, vals := vals, rsp := s.rsp }
end

