-- ==== Sys2Proof/Laws/Memory.lean ====
section
/-! SUPPORT. The laws of the live buffer: a write is read back, leaves every other octet alone and keeps the
canonical form and the bounds; the bits of the buffer after a bit is set; the trim scan (R51, R54). -/

namespace Sys2Proof.Machine

/-! ### Cells -/

theorem cellAt_putCell (cs : List Host.Cell) (a : Nat) (b : Byte) (x : Nat)
    (h : (cs.map Prod.fst).Pairwise (· < ·)) :
    cellAt (putCell cs a b) x = if a = x then some b else cellAt cs x := by
  induction cs with
  | nil => simp [putCell, cellAt]
  | cons c cs ih =>
    simp only [List.map_cons, List.pairwise_cons] at h
    simp only [putCell]
    split
    · simp [cellAt]
    · split
      · next h2 => subst h2; simp only [cellAt]; split <;> rfl
      · next h1 h2 =>
        simp only [cellAt, ih h.2]
        by_cases hx : c.1 = x
        · subst hx; simp [h2]
        · simp [hx]

theorem cellAt_dropCell (cs : List Host.Cell) (a x : Nat) :
    cellAt (dropCell cs a) x = if a = x then none else cellAt cs x := by
  induction cs with
  | nil => simp [dropCell, cellAt]
  | cons c cs ih =>
    unfold dropCell at ih ⊢
    by_cases hc : c.1 = a
    · simp only [List.filter_cons, hc, ne_eq, not_true_eq_false, decide_false, Bool.false_eq_true, if_false, ih,
        cellAt]
      split <;> rfl
    · simp only [List.filter_cons, ne_eq, hc, not_false_eq_true, decide_true, if_true, cellAt, ih]
      by_cases hx : c.1 = x
      · have : a ≠ x := fun e => hc (hx.trans e.symm)
        simp [hx, this]
      · simp [hx]

theorem mem_putCell {cs : List Host.Cell} {a : Nat} {b : Byte} {c : Host.Cell} (h : c ∈ putCell cs a b) :
    c = (a, b) ∨ c ∈ cs := by
  induction cs with
  | nil => simpa [putCell] using h
  | cons d cs ih =>
    simp only [putCell] at h
    split at h
    · simpa using h
    · split at h
      · simp only [List.mem_cons] at h ⊢; tauto
      · simp only [List.mem_cons] at h ⊢
        rcases h with h | h
        · exact .inr (.inl h)
        · rcases ih h with h | h
          · exact .inl h
          · exact .inr (.inr h)

theorem putCell_sorted {cs : List Host.Cell} {a : Nat} {b : Byte}
    (h : (cs.map Prod.fst).Pairwise (· < ·)) : ((putCell cs a b).map Prod.fst).Pairwise (· < ·) := by
  induction cs with
  | nil => simp [putCell]
  | cons c cs ih =>
    have hc := h
    simp only [List.map_cons, List.pairwise_cons] at h
    simp only [putCell]
    split
    · next h1 =>
      simp only [List.map_cons, List.pairwise_cons, List.mem_cons]
      refine ⟨?_, h⟩
      rintro x (rfl | hx)
      · exact h1
      · exact Nat.lt_trans h1 (h.1 x hx)
    · split
      · next h2 => subst h2; simpa using hc
      · next h1 h2 =>
        simp only [List.map_cons, List.pairwise_cons, List.mem_map]
        refine ⟨?_, ih h.2⟩
        rintro x ⟨d, hd, rfl⟩
        rcases mem_putCell hd with rfl | hd
        · simp only; omega
        · exact h.1 _ (List.mem_map.2 ⟨d, hd, rfl⟩)

/-! ### Reading and writing -/

@[simp] theorem Memory.write_fill (m : Memory) (a : Nat) (b : Byte) : (m.write a b).fill = m.fill := rfl

@[simp] theorem Memory.write_unlisted (m : Memory) (a : Nat) (b : Byte) :
    (m.write a b).unlisted = m.unlisted := rfl

@[simp] theorem Memory.zeros_read (a : Nat) : Memory.zeros.read a = 0 := rfl

@[simp] theorem Memory.zeros_fill : Memory.zeros.fill = .zeros := rfl

@[simp] theorem Memory.zeros_cells : Memory.zeros.cells = [] := rfl

/-- Reading after a write: the octet written, and every other octet as before (R54). -/
theorem Memory.read_write {m : Memory} (h : m.wf) (a : Nat) (b : Byte) (x : Nat) :
    (m.write a b).read x = if a = x then b else m.read x := by
  unfold Memory.read
  rw [Memory.write_unlisted]
  unfold Memory.write
  by_cases hb : b = m.unlisted a
  · simp only [hb, if_true, cellAt_dropCell]
    by_cases hx : a = x
    · subst hx; simp
    · simp [hx]
  · simp only [hb, if_false, cellAt_putCell _ _ _ _ h.1]
    by_cases hx : a = x
    · simp [hx]
    · simp [hx]

/-- A write keeps the canonical form. -/
theorem Memory.write_wf {m : Memory} (h : m.wf) (a : Nat) (b : Byte) : (m.write a b).wf := by
  unfold Memory.wf
  rw [Memory.write_unlisted]
  unfold Memory.write
  by_cases hb : b = m.unlisted a
  · simp only [hb, if_true]
    refine ⟨h.1.sublist ((List.filter_sublist).map _), fun c hc => h.2 c ?_⟩
    exact (List.mem_filter.1 hc).1
  · simp only [hb, if_false]
    refine ⟨putCell_sorted h.1, fun c hc => ?_⟩
    rcases mem_putCell hc with rfl | hc
    · exact hb
    · exact h.2 c hc

/-- A write below `n` keeps every listed address below `n`. -/
theorem Memory.write_bound {m : Memory} {n a : Nat} {b : Byte} (h : ∀ c ∈ m.cells, c.1 < n) (ha : a < n) :
    ∀ c ∈ (m.write a b).cells, c.1 < n := by
  unfold Memory.write
  intro c hc
  simp only at hc
  split at hc
  · exact h c (List.mem_filter.1 hc).1
  · rcases mem_putCell hc with rfl | hc
    · exact ha
    · exact h c hc

theorem Memory.zeros_wf : Memory.zeros.wf := by simp [Memory.wf]

theorem Memory.unspecified_wf (n : Nat) : Memory.wf ⟨.unspecified n, []⟩ := by simp [Memory.wf]

theorem Memory.setBit_wf {m : Memory} (h : m.wf) (o j : Nat) : (m.setBit o j).wf := Memory.write_wf h _ _

@[simp] theorem Memory.setBit_fill (m : Memory) (o j : Nat) : (m.setBit o j).fill = m.fill := rfl

theorem Memory.setBit_bound {m : Memory} {n o j : Nat} (h : ∀ c ∈ m.cells, c.1 < n) (ho : o < n) :
    ∀ c ∈ (m.setBit o j).cells, c.1 < n := Memory.write_bound h ho

theorem Memory.read_setBit {m : Memory} (h : m.wf) (o j x : Nat) :
    (m.setBit o j).read x = if o = x then m.read o ||| (1 : Byte) <<< j else m.read x :=
  Memory.read_write h _ _ _

/-- An address that is not listed reads as the fill. -/
theorem Memory.read_of_unlisted {m : Memory} {a : Nat} (h : ∀ c ∈ m.cells, c.1 ≠ a) :
    m.read a = m.unlisted a := by
  have : cellAt m.cells a = none := by
    generalize m.cells = cs at h
    induction cs with
    | nil => rfl
    | cons c cs ih =>
      rw [cellAt, if_neg (h c (by simp))]
      exact ih fun d hd => h d (by simp [hd])
  simp [Memory.read, this]

/-- Octets at and above the bound of the listed addresses read as the fill. -/
theorem Memory.read_above {m : Memory} {n a : Nat} (h : ∀ c ∈ m.cells, c.1 < n) (ha : n ≤ a) :
    m.read a = m.unlisted a :=
  Memory.read_of_unlisted fun c hc e => by have := h c hc; omega

/-! ### Equal buffers are equal data -/

theorem cellAt_some_mem {cs : List Host.Cell} {a : Nat} {b : Byte} (h : cellAt cs a = some b) : (a, b) ∈ cs := by
  induction cs with
  | nil => simp [cellAt] at h
  | cons c cs ih =>
    simp only [cellAt] at h
    split at h
    · next hc => obtain rfl := Option.some.inj h; subst hc; simp
    · exact List.mem_cons_of_mem _ (ih h)

theorem cellAt_none_of_lt {cs : List Host.Cell} {a : Nat} (h : ∀ x ∈ cs.map Prod.fst, a < x) :
    cellAt cs a = none := by
  induction cs with
  | nil => rfl
  | cons c cs ih =>
    simp only [List.map_cons, List.mem_cons, forall_eq_or_imp] at h
    rw [cellAt, if_neg (by omega)]
    exact ih h.2

theorem cells_ext {cs ds : List Host.Cell} (hc : (cs.map Prod.fst).Pairwise (· < ·))
    (hd : (ds.map Prod.fst).Pairwise (· < ·)) (h : ∀ a, cellAt cs a = cellAt ds a) : cs = ds := by
  induction cs generalizing ds with
  | nil =>
    cases ds with
    | nil => rfl
    | cons d ds => have := h d.1; simp [cellAt] at this
  | cons c cs ih =>
    cases ds with
    | nil => have := h c.1; simp [cellAt] at this
    | cons d ds =>
      simp only [List.map_cons, List.pairwise_cons] at hc hd
      have he : c.1 = d.1 := by
        rcases Nat.lt_trichotomy c.1 d.1 with hl | hl | hl
        · have h1 := h c.1
          rw [cellAt, if_pos rfl, cellAt, if_neg (by omega),
            cellAt_none_of_lt fun x hx => Nat.lt_trans hl (hd.1 x hx)] at h1
          cases h1
        · exact hl
        · have h1 := h d.1
          rw [cellAt, if_neg (by omega), cellAt_none_of_lt fun x hx => Nat.lt_trans hl (hc.1 x hx), cellAt,
            if_pos rfl] at h1
          cases h1
      have hb : c.2 = d.2 := by
        have h1 := h c.1
        rw [cellAt, if_pos rfl, cellAt, if_pos he.symm] at h1
        exact Option.some.inj h1
      have htl : cs = ds := by
        refine ih hc.2 hd.2 fun a => ?_
        have h1 := h a
        rw [cellAt, cellAt] at h1
        by_cases ha : c.1 = a
        · rw [cellAt_none_of_lt fun x hx => ha ▸ hc.1 x hx,
            cellAt_none_of_lt fun x hx => ha ▸ he ▸ hd.1 x hx]
        · rwa [if_neg ha, if_neg (he ▸ ha)] at h1
      rw [htl, Prod.ext he hb]

/-- Two buffers in canonical form over one fill that read alike are the same data. -/
theorem Memory.ext_of_read {m n : Memory} (hm : m.wf) (hn : n.wf) (hf : m.fill = n.fill)
    (h : ∀ a, m.read a = n.read a) : m = n := by
  have hu : m.unlisted = n.unlisted := by funext a; simp [Memory.unlisted, hf]
  have hc : m.cells = n.cells := by
    refine cells_ext hm.1 hn.1 fun a => ?_
    have ha := h a
    unfold Memory.read at ha
    rw [hu] at ha
    cases h1 : cellAt m.cells a with
    | none =>
      cases h2 : cellAt n.cells a with
      | none => rfl
      | some b =>
        rw [h1, h2] at ha
        exact absurd ha.symm (hn.2 _ (cellAt_some_mem h2))
    | some b =>
      cases h2 : cellAt n.cells a with
      | none =>
        rw [h1, h2] at ha
        exact absurd ha (hu ▸ hm.2 _ (cellAt_some_mem h1))
      | some c => rw [h1, h2] at ha; simpa using ha
  cases m; cases n; simp_all

/-! ### Bits -/

theorem bitOf_zero (j : Nat) : bitOf 0 j = false := by simp [bitOf]

@[simp] theorem bufBit_zeros (k : Nat) : bufBit .zeros k = false := by simp [bufBit, bitOf]

theorem bitOf_or_shift (b : Byte) {j : Nat} (hj : j < 8) (x : Nat) :
    bitOf (b ||| (1 : Byte) <<< j) x = (bitOf b x || decide (x = j)) := by
  simp only [bitOf, BitVec.getLsbD_or, BitVec.getLsbD_shiftLeft]
  congr 1
  by_cases h : x = j
  · subst h; simp [hj]
  · rw [decide_eq_false h]
    by_cases h2 : x < j
    · simp [h2]
    · have : x - j ≠ 0 := by omega
      simp [this]

/-- The bits of the buffer after bit number `k` is set (R124). -/
theorem bufBit_setBit {m : Memory} (h : m.wf) (k x : Nat) :
    bufBit (m.setBit (k / 8) (k % 8)) x = (bufBit m x || decide (x = k)) := by
  unfold bufBit
  rw [Memory.read_setBit h]
  by_cases ho : k / 8 = x / 8
  · rw [if_pos ho, bitOf_or_shift _ (Nat.mod_lt _ (by decide)), ho]
    congr 2
    exact propext ⟨fun h => by omega, fun h => by rw [h]⟩
  · rw [if_neg ho]
    have : x ≠ k := fun e => ho (by rw [e])
    simp [this]

/-- An octet is zero exactly when none of its bits is set. -/
theorem byte_eq_zero_iff (b : Byte) : b = 0 ↔ ∀ j < 8, bitOf b j = false := by
  constructor
  · rintro rfl j _; exact bitOf_zero j
  · intro h
    apply BitVec.eq_of_getLsbD_eq
    intro i hi
    simpa [bitOf] using h i hi

theorem read_eq_zero_iff (m : Memory) (a : Nat) : m.read a = 0 ↔ ∀ k, k / 8 = a → bufBit m k = false := by
  rw [byte_eq_zero_iff]
  constructor
  · intro h k hk; rw [bufBit, hk]; exact h _ (Nat.mod_lt _ (by decide))
  · intro h j hj
    have := h (8 * a + j) (by omega)
    rwa [bufBit, show (8 * a + j) / 8 = a by omega, show (8 * a + j) % 8 = j by omega] at this

/-! ### The trim scan -/

/-- The trim scan answers `n` for a non-zero octet `n - 1` with only zeros above it (R126). -/
theorem Memory.tailLength_eq {m : Memory} {B last : Nat} (hl : last < B) (hn : m.read last ≠ 0)
    (hz : ∀ j, last < j → j < B → m.read j = 0) : m.tailLength B = last + 1 := by
  induction B with
  | zero => omega
  | succ n ih =>
    unfold Memory.tailLength
    by_cases he : last = n
    · subst he; rw [if_pos hn]
    · rw [if_neg (by simpa using hz n (by omega) (by omega))]
      exact ih (by omega) fun j h1 h2 => hz j h1 (by omega)

/-- The trim scan answers 0 when every octet is zero (R126). -/
theorem Memory.tailLength_zero {m : Memory} {B : Nat} (hz : ∀ j < B, m.read j = 0) : m.tailLength B = 0 := by
  induction B with
  | zero => rfl
  | succ n ih =>
    unfold Memory.tailLength
    rw [if_neg (by simpa using hz n (by omega))]
    exact ih fun j h => hz j (by omega)

/-- What the trim scan can answer. -/
theorem Memory.tailLength_cases (m : Memory) (B : Nat) :
    (m.tailLength B = 0 ∧ ∀ j < B, m.read j = 0) ∨
    ∃ last, m.tailLength B = last + 1 ∧ last < B ∧ m.read last ≠ 0 ∧
      ∀ j, last < j → j < B → m.read j = 0 := by
  induction B with
  | zero => exact .inl ⟨rfl, by simp⟩
  | succ n ih =>
    unfold Memory.tailLength
    by_cases h : m.read n ≠ 0
    · exact .inr ⟨n, by rw [if_pos h], by omega, h, fun j h1 h2 => by omega⟩
    · simp only [ne_eq, not_not] at h
      simp only [h, ne_eq, not_true_eq_false, if_false]
      rcases ih with ⟨h1, h2⟩ | ⟨last, h1, h2, h3, h4⟩
      · refine .inl ⟨h1, fun j hj => ?_⟩
        rcases Nat.lt_succ_iff_lt_or_eq.1 hj with hj | rfl
        · exact h2 j hj
        · exact h
      · refine .inr ⟨last, h1, by omega, h3, fun j h5 h6 => ?_⟩
        rcases Nat.lt_succ_iff_lt_or_eq.1 h6 with hj | rfl
        · exact h4 j h5 hj
        · exact h

@[simp] theorem Memory.readFront_length (m : Memory) (n : Nat) : (m.readFront n).length = n := by
  simp [Memory.readFront]

end Sys2Proof.Machine
end

