-- ==== Sys2Proof/Laws/Bitmap.lean ====
section
/-! SUPPORT. The bitmap of R129 octet by octet, and runs of commands one after the other. -/

namespace Sys2Proof.Machine

/-- A run in two parts. -/
theorem execAll_append {xs : List Instr} {s t : State} (h : execAll xs s = .next t) (ys : List Instr) :
    execAll (xs ++ ys) s = execAll ys t := by
  induction xs generalizing s with
  | nil => cases h; rfl
  | cons x xs ih =>
    simp only [execAll, List.cons_append] at h ⊢
    split at h
    · exact ih h
    · cases h
    · cases h

/-- Bit `j` of octet `p` of the bitmap (R129). -/
theorem bitOf_bitmapOctet (a d : Int) (A : List Int) (p : Nat) {j : Nat} (hj : j < 8) :
    bitOf (bitmapOctet a d A p) j = decide (a + (8 * p + j : Nat) * d ∈ A) := by
  unfold bitOf bitmapOctet
  rw [BitVec.getLsbD_ofFnLE]; simp [hj]

theorem octet_ext {x y : Byte} (h : ∀ j < 8, bitOf x j = bitOf y j) : x = y :=
  BitVec.eq_of_getLsbD_eq fun i hi => h i hi

/-- One more value sets one bit. -/
theorem bitmapOctet_append {a d : Int} (hd : 1 ≤ d) (A : List Int) (k p : Nat) :
    bitmapOctet a d (A ++ [a + k * d]) p =
      if p = k / 8 then bitmapOctet a d A p ||| (1 : Byte) <<< (k % 8) else bitmapOctet a d A p := by
  apply octet_ext
  intro j hj
  have hk : ∀ m : Nat, (a + (m : Int) * d = a + k * d) ↔ m = k := by
    intro m
    constructor
    · intro h
      have h : (m : Int) * d = k * d := by omega
      exact_mod_cast Int.eq_of_mul_eq_mul_right (by omega) h
    · rintro rfl; rfl
  rw [bitOf_bitmapOctet _ _ _ _ hj]
  split
  · rw [bitOf_or_shift _ (Nat.mod_lt _ (by decide)), bitOf_bitmapOctet _ _ _ _ hj]
    simp only [List.mem_append, List.mem_singleton, hk, Bool.decide_or]
    congr 1
    exact decide_eq_decide.2 (by omega)
  · rw [bitOf_bitmapOctet _ _ _ _ hj]
    simp only [List.mem_append, List.mem_singleton, hk, Bool.decide_or]
    rw [decide_eq_false (show ¬ 8 * p + j = k by omega), Bool.or_false]

/-- An octet above every value is zero. -/
theorem bitmapOctet_zero {a d : Int} (hd : 1 ≤ d) (A : List Int) (p : Nat)
    (h : ∀ x ∈ A, x < a + (8 * p : Nat) * d) : bitmapOctet a d A p = 0 := by
  apply octet_ext
  intro j hj
  rw [bitOf_bitmapOctet _ _ _ _ hj, bitOf_zero, decide_eq_false_iff_not]
  intro hm
  have := h _ hm
  have : ((8 * p : Nat) : Int) * d ≤ (8 * p + j : Nat) * d := by
    have : ((8 * p : Nat) : Int) ≤ (8 * p + j : Nat) := by push_cast; omega
    nlinarith
  omega

end Sys2Proof.Machine
end

