-- ==== Sys2Proof/Laws/State.lean ====
section
/-! SUPPORT. One lemma per field and named update of the state, so that no later proof unfolds an update. -/

namespace Sys2Proof.Machine

/-- The environment's side of the sink set to given contents. -/
def withSink (a : List SinkAnswer) (d : Nat) (o : List Byte) (s : State) : State :=
  { s with sinkAnswers := a, draws := d, out := o }

@[simp] theorem respond_cfg (st : Status) (p : Word) (q : Byte) (s : State) : (respond st p q s).cfg = s.cfg := rfl
@[simp] theorem respond_start (st : Status) (p : Word) (q : Byte) (s : State) : (respond st p q s).start = s.start := rfl
@[simp] theorem respond_step (st : Status) (p : Word) (q : Byte) (s : State) : (respond st p q s).step = s.step := rfl
@[simp] theorem respond_bottom (st : Status) (p : Word) (q : Byte) (s : State) : (respond st p q s).bottom = s.bottom := rfl
@[simp] theorem respond_beyond (st : Status) (p : Word) (q : Byte) (s : State) : (respond st p q s).beyond = s.beyond := rfl
@[simp] theorem respond_prev (st : Status) (p : Word) (q : Byte) (s : State) : (respond st p q s).prev = s.prev := rfl
@[simp] theorem respond_cursor (st : Status) (p : Word) (q : Byte) (s : State) : (respond st p q s).cursor = s.cursor := rfl
@[simp] theorem respond_count (st : Status) (p : Word) (q : Byte) (s : State) : (respond st p q s).count = s.count := rfl
@[simp] theorem respond_startSet (st : Status) (p : Word) (q : Byte) (s : State) : (respond st p q s).startSet = s.startSet := rfl
@[simp] theorem respond_stepSet (st : Status) (p : Word) (q : Byte) (s : State) : (respond st p q s).stepSet = s.stepSet := rfl
@[simp] theorem respond_prevValid (st : Status) (p : Word) (q : Byte) (s : State) : (respond st p q s).prevValid = s.prevValid := rfl
@[simp] theorem respond_beyondOvf (st : Status) (p : Word) (q : Byte) (s : State) : (respond st p q s).beyondOvf = s.beyondOvf := rfl
@[simp] theorem respond_cursorOvf (st : Status) (p : Word) (q : Byte) (s : State) : (respond st p q s).cursorOvf = s.cursorOvf := rfl
@[simp] theorem respond_pol (st : Status) (p : Word) (q : Byte) (s : State) : (respond st p q s).pol = s.pol := rfl
@[simp] theorem respond_control (st : Status) (p : Word) (q : Byte) (s : State) : (respond st p q s).control = s.control := rfl
@[simp] theorem respond_fcode (st : Status) (p : Word) (q : Byte) (s : State) : (respond st p q s).fcode = s.fcode := rfl
@[simp] theorem respond_finfo (st : Status) (p : Word) (q : Byte) (s : State) : (respond st p q s).finfo = s.finfo := rfl
@[simp] theorem respond_buf (st : Status) (p : Word) (q : Byte) (s : State) : (respond st p q s).buf = s.buf := rfl
@[simp] theorem respond_port (st : Status) (p : Word) (q : Byte) (s : State) : (respond st p q s).port = s.port := rfl
@[simp] theorem respond_sinkAnswers (st : Status) (p : Word) (q : Byte) (s : State) : (respond st p q s).sinkAnswers = s.sinkAnswers := rfl
@[simp] theorem respond_draws (st : Status) (p : Word) (q : Byte) (s : State) : (respond st p q s).draws = s.draws := rfl
@[simp] theorem respond_out (st : Status) (p : Word) (q : Byte) (s : State) : (respond st p q s).out = s.out := rfl
@[simp] theorem respond_vals (st : Status) (p : Word) (q : Byte) (s : State) : (respond st p q s).vals = s.vals := rfl
@[simp] theorem respond_rsp (st : Status) (p : Word) (q : Byte) (s : State) : (respond st p q s).rsp = s.rsp ++ [responseWord st p q] := rfl

@[simp] theorem emit_cfg (v : Int) (s : State) : (emit v s).cfg = s.cfg := rfl
@[simp] theorem emit_start (v : Int) (s : State) : (emit v s).start = s.start := rfl
@[simp] theorem emit_step (v : Int) (s : State) : (emit v s).step = s.step := rfl
@[simp] theorem emit_bottom (v : Int) (s : State) : (emit v s).bottom = s.bottom := rfl
@[simp] theorem emit_beyond (v : Int) (s : State) : (emit v s).beyond = s.beyond := rfl
@[simp] theorem emit_prev (v : Int) (s : State) : (emit v s).prev = s.prev := rfl
@[simp] theorem emit_cursor (v : Int) (s : State) : (emit v s).cursor = s.cursor := rfl
@[simp] theorem emit_count (v : Int) (s : State) : (emit v s).count = s.count := rfl
@[simp] theorem emit_startSet (v : Int) (s : State) : (emit v s).startSet = s.startSet := rfl
@[simp] theorem emit_stepSet (v : Int) (s : State) : (emit v s).stepSet = s.stepSet := rfl
@[simp] theorem emit_prevValid (v : Int) (s : State) : (emit v s).prevValid = s.prevValid := rfl
@[simp] theorem emit_beyondOvf (v : Int) (s : State) : (emit v s).beyondOvf = s.beyondOvf := rfl
@[simp] theorem emit_cursorOvf (v : Int) (s : State) : (emit v s).cursorOvf = s.cursorOvf := rfl
@[simp] theorem emit_pol (v : Int) (s : State) : (emit v s).pol = s.pol := rfl
@[simp] theorem emit_control (v : Int) (s : State) : (emit v s).control = s.control := rfl
@[simp] theorem emit_fcode (v : Int) (s : State) : (emit v s).fcode = s.fcode := rfl
@[simp] theorem emit_finfo (v : Int) (s : State) : (emit v s).finfo = s.finfo := rfl
@[simp] theorem emit_buf (v : Int) (s : State) : (emit v s).buf = s.buf := rfl
@[simp] theorem emit_port (v : Int) (s : State) : (emit v s).port = s.port := rfl
@[simp] theorem emit_sinkAnswers (v : Int) (s : State) : (emit v s).sinkAnswers = s.sinkAnswers := rfl
@[simp] theorem emit_draws (v : Int) (s : State) : (emit v s).draws = s.draws := rfl
@[simp] theorem emit_out (v : Int) (s : State) : (emit v s).out = s.out := rfl
@[simp] theorem emit_vals (v : Int) (s : State) : (emit v s).vals = s.vals ++ [v] := rfl
@[simp] theorem emit_rsp (v : Int) (s : State) : (emit v s).rsp = s.rsp := rfl

@[simp] theorem appendOut_cfg (o : List Byte) (s : State) : (appendOut o s).cfg = s.cfg := rfl
@[simp] theorem appendOut_start (o : List Byte) (s : State) : (appendOut o s).start = s.start := rfl
@[simp] theorem appendOut_step (o : List Byte) (s : State) : (appendOut o s).step = s.step := rfl
@[simp] theorem appendOut_bottom (o : List Byte) (s : State) : (appendOut o s).bottom = s.bottom := rfl
@[simp] theorem appendOut_beyond (o : List Byte) (s : State) : (appendOut o s).beyond = s.beyond := rfl
@[simp] theorem appendOut_prev (o : List Byte) (s : State) : (appendOut o s).prev = s.prev := rfl
@[simp] theorem appendOut_cursor (o : List Byte) (s : State) : (appendOut o s).cursor = s.cursor := rfl
@[simp] theorem appendOut_count (o : List Byte) (s : State) : (appendOut o s).count = s.count := rfl
@[simp] theorem appendOut_startSet (o : List Byte) (s : State) : (appendOut o s).startSet = s.startSet := rfl
@[simp] theorem appendOut_stepSet (o : List Byte) (s : State) : (appendOut o s).stepSet = s.stepSet := rfl
@[simp] theorem appendOut_prevValid (o : List Byte) (s : State) : (appendOut o s).prevValid = s.prevValid := rfl
@[simp] theorem appendOut_beyondOvf (o : List Byte) (s : State) : (appendOut o s).beyondOvf = s.beyondOvf := rfl
@[simp] theorem appendOut_cursorOvf (o : List Byte) (s : State) : (appendOut o s).cursorOvf = s.cursorOvf := rfl
@[simp] theorem appendOut_pol (o : List Byte) (s : State) : (appendOut o s).pol = s.pol := rfl
@[simp] theorem appendOut_control (o : List Byte) (s : State) : (appendOut o s).control = s.control := rfl
@[simp] theorem appendOut_fcode (o : List Byte) (s : State) : (appendOut o s).fcode = s.fcode := rfl
@[simp] theorem appendOut_finfo (o : List Byte) (s : State) : (appendOut o s).finfo = s.finfo := rfl
@[simp] theorem appendOut_buf (o : List Byte) (s : State) : (appendOut o s).buf = s.buf := rfl
@[simp] theorem appendOut_port (o : List Byte) (s : State) : (appendOut o s).port = s.port := rfl
@[simp] theorem appendOut_sinkAnswers (o : List Byte) (s : State) : (appendOut o s).sinkAnswers = s.sinkAnswers := rfl
@[simp] theorem appendOut_draws (o : List Byte) (s : State) : (appendOut o s).draws = s.draws := rfl
@[simp] theorem appendOut_out (o : List Byte) (s : State) : (appendOut o s).out = s.out ++ o := rfl
@[simp] theorem appendOut_vals (o : List Byte) (s : State) : (appendOut o s).vals = s.vals := rfl
@[simp] theorem appendOut_rsp (o : List Byte) (s : State) : (appendOut o s).rsp = s.rsp := rfl

@[simp] theorem withSink_cfg (a : List SinkAnswer) (d : Nat) (o : List Byte) (s : State) : (withSink a d o s).cfg = s.cfg := rfl
@[simp] theorem withSink_start (a : List SinkAnswer) (d : Nat) (o : List Byte) (s : State) : (withSink a d o s).start = s.start := rfl
@[simp] theorem withSink_step (a : List SinkAnswer) (d : Nat) (o : List Byte) (s : State) : (withSink a d o s).step = s.step := rfl
@[simp] theorem withSink_bottom (a : List SinkAnswer) (d : Nat) (o : List Byte) (s : State) : (withSink a d o s).bottom = s.bottom := rfl
@[simp] theorem withSink_beyond (a : List SinkAnswer) (d : Nat) (o : List Byte) (s : State) : (withSink a d o s).beyond = s.beyond := rfl
@[simp] theorem withSink_prev (a : List SinkAnswer) (d : Nat) (o : List Byte) (s : State) : (withSink a d o s).prev = s.prev := rfl
@[simp] theorem withSink_cursor (a : List SinkAnswer) (d : Nat) (o : List Byte) (s : State) : (withSink a d o s).cursor = s.cursor := rfl
@[simp] theorem withSink_count (a : List SinkAnswer) (d : Nat) (o : List Byte) (s : State) : (withSink a d o s).count = s.count := rfl
@[simp] theorem withSink_startSet (a : List SinkAnswer) (d : Nat) (o : List Byte) (s : State) : (withSink a d o s).startSet = s.startSet := rfl
@[simp] theorem withSink_stepSet (a : List SinkAnswer) (d : Nat) (o : List Byte) (s : State) : (withSink a d o s).stepSet = s.stepSet := rfl
@[simp] theorem withSink_prevValid (a : List SinkAnswer) (d : Nat) (o : List Byte) (s : State) : (withSink a d o s).prevValid = s.prevValid := rfl
@[simp] theorem withSink_beyondOvf (a : List SinkAnswer) (d : Nat) (o : List Byte) (s : State) : (withSink a d o s).beyondOvf = s.beyondOvf := rfl
@[simp] theorem withSink_cursorOvf (a : List SinkAnswer) (d : Nat) (o : List Byte) (s : State) : (withSink a d o s).cursorOvf = s.cursorOvf := rfl
@[simp] theorem withSink_pol (a : List SinkAnswer) (d : Nat) (o : List Byte) (s : State) : (withSink a d o s).pol = s.pol := rfl
@[simp] theorem withSink_control (a : List SinkAnswer) (d : Nat) (o : List Byte) (s : State) : (withSink a d o s).control = s.control := rfl
@[simp] theorem withSink_fcode (a : List SinkAnswer) (d : Nat) (o : List Byte) (s : State) : (withSink a d o s).fcode = s.fcode := rfl
@[simp] theorem withSink_finfo (a : List SinkAnswer) (d : Nat) (o : List Byte) (s : State) : (withSink a d o s).finfo = s.finfo := rfl
@[simp] theorem withSink_buf (a : List SinkAnswer) (d : Nat) (o : List Byte) (s : State) : (withSink a d o s).buf = s.buf := rfl
@[simp] theorem withSink_port (a : List SinkAnswer) (d : Nat) (o : List Byte) (s : State) : (withSink a d o s).port = s.port := rfl
@[simp] theorem withSink_sinkAnswers (a : List SinkAnswer) (d : Nat) (o : List Byte) (s : State) : (withSink a d o s).sinkAnswers = a := rfl
@[simp] theorem withSink_draws (a : List SinkAnswer) (d : Nat) (o : List Byte) (s : State) : (withSink a d o s).draws = d := rfl
@[simp] theorem withSink_out (a : List SinkAnswer) (d : Nat) (o : List Byte) (s : State) : (withSink a d o s).out = o := rfl
@[simp] theorem withSink_vals (a : List SinkAnswer) (d : Nat) (o : List Byte) (s : State) : (withSink a d o s).vals = s.vals := rfl
@[simp] theorem withSink_rsp (a : List SinkAnswer) (d : Nat) (o : List Byte) (s : State) : (withSink a d o s).rsp = s.rsp := rfl

@[simp] theorem raise_cfg (f : FaultCause) (z : Int) (s : State) : (raise f z s).cfg = s.cfg := rfl
@[simp] theorem raise_start (f : FaultCause) (z : Int) (s : State) : (raise f z s).start = s.start := rfl
@[simp] theorem raise_step (f : FaultCause) (z : Int) (s : State) : (raise f z s).step = s.step := rfl
@[simp] theorem raise_bottom (f : FaultCause) (z : Int) (s : State) : (raise f z s).bottom = s.bottom := rfl
@[simp] theorem raise_beyond (f : FaultCause) (z : Int) (s : State) : (raise f z s).beyond = s.beyond := rfl
@[simp] theorem raise_prev (f : FaultCause) (z : Int) (s : State) : (raise f z s).prev = s.prev := rfl
@[simp] theorem raise_cursor (f : FaultCause) (z : Int) (s : State) : (raise f z s).cursor = s.cursor := rfl
@[simp] theorem raise_count (f : FaultCause) (z : Int) (s : State) : (raise f z s).count = s.count := rfl
@[simp] theorem raise_startSet (f : FaultCause) (z : Int) (s : State) : (raise f z s).startSet = s.startSet := rfl
@[simp] theorem raise_stepSet (f : FaultCause) (z : Int) (s : State) : (raise f z s).stepSet = s.stepSet := rfl
@[simp] theorem raise_prevValid (f : FaultCause) (z : Int) (s : State) : (raise f z s).prevValid = s.prevValid := rfl
@[simp] theorem raise_beyondOvf (f : FaultCause) (z : Int) (s : State) : (raise f z s).beyondOvf = s.beyondOvf := rfl
@[simp] theorem raise_cursorOvf (f : FaultCause) (z : Int) (s : State) : (raise f z s).cursorOvf = s.cursorOvf := rfl
@[simp] theorem raise_pol (f : FaultCause) (z : Int) (s : State) : (raise f z s).pol = s.pol := rfl
@[simp] theorem raise_control (f : FaultCause) (z : Int) (s : State) : (raise f z s).control = .fault := rfl
@[simp] theorem raise_fcode (f : FaultCause) (z : Int) (s : State) : (raise f z s).fcode = f.code := rfl
@[simp] theorem raise_finfo (f : FaultCause) (z : Int) (s : State) : (raise f z s).finfo = wrap64 z := rfl
@[simp] theorem raise_buf (f : FaultCause) (z : Int) (s : State) : (raise f z s).buf = s.buf := rfl
@[simp] theorem raise_port (f : FaultCause) (z : Int) (s : State) : (raise f z s).port = s.port := rfl
@[simp] theorem raise_sinkAnswers (f : FaultCause) (z : Int) (s : State) : (raise f z s).sinkAnswers = s.sinkAnswers := rfl
@[simp] theorem raise_draws (f : FaultCause) (z : Int) (s : State) : (raise f z s).draws = s.draws := rfl
@[simp] theorem raise_out (f : FaultCause) (z : Int) (s : State) : (raise f z s).out = s.out := rfl
@[simp] theorem raise_vals (f : FaultCause) (z : Int) (s : State) : (raise f z s).vals = s.vals := rfl
@[simp] theorem raise_rsp (f : FaultCause) (z : Int) (s : State) : (raise f z s).rsp = s.rsp ++ [responseWord f.status 0 0] := rfl

@[simp] theorem resetBlock_cfg (s : State) : (resetBlock s).cfg = s.cfg := rfl
@[simp] theorem resetBlock_start (s : State) : (resetBlock s).start = 0 := rfl
@[simp] theorem resetBlock_step (s : State) : (resetBlock s).step = 0 := rfl
@[simp] theorem resetBlock_bottom (s : State) : (resetBlock s).bottom = 0 := rfl
@[simp] theorem resetBlock_beyond (s : State) : (resetBlock s).beyond = 0 := rfl
@[simp] theorem resetBlock_prev (s : State) : (resetBlock s).prev = 0 := rfl
@[simp] theorem resetBlock_cursor (s : State) : (resetBlock s).cursor = 0 := rfl
@[simp] theorem resetBlock_count (s : State) : (resetBlock s).count = 0 := rfl
@[simp] theorem resetBlock_startSet (s : State) : (resetBlock s).startSet = false := rfl
@[simp] theorem resetBlock_stepSet (s : State) : (resetBlock s).stepSet = false := rfl
@[simp] theorem resetBlock_prevValid (s : State) : (resetBlock s).prevValid = false := rfl
@[simp] theorem resetBlock_beyondOvf (s : State) : (resetBlock s).beyondOvf = false := rfl
@[simp] theorem resetBlock_cursorOvf (s : State) : (resetBlock s).cursorOvf = false := rfl
@[simp] theorem resetBlock_pol (s : State) : (resetBlock s).pol = 0 := rfl
@[simp] theorem resetBlock_control (s : State) : (resetBlock s).control = .idle := rfl
@[simp] theorem resetBlock_fcode (s : State) : (resetBlock s).fcode = 0 := rfl
@[simp] theorem resetBlock_finfo (s : State) : (resetBlock s).finfo = 0 := rfl
@[simp] theorem resetBlock_buf (s : State) : (resetBlock s).buf = ⟨.unspecified s.draws, []⟩ := rfl
@[simp] theorem resetBlock_port (s : State) : (resetBlock s).port = s.port := rfl
@[simp] theorem resetBlock_sinkAnswers (s : State) : (resetBlock s).sinkAnswers = s.sinkAnswers := rfl
@[simp] theorem resetBlock_draws (s : State) : (resetBlock s).draws = s.draws + 1 := rfl
@[simp] theorem resetBlock_out (s : State) : (resetBlock s).out = s.out := rfl
@[simp] theorem resetBlock_vals (s : State) : (resetBlock s).vals = s.vals := rfl
@[simp] theorem resetBlock_rsp (s : State) : (resetBlock s).rsp = s.rsp := rfl

@[simp] theorem acceptValue_cfg (v : Word) (s : State) : (acceptValue v s).cfg = s.cfg := rfl
@[simp] theorem acceptValue_start (v : Word) (s : State) : (acceptValue v s).start = s.start := rfl
@[simp] theorem acceptValue_step (v : Word) (s : State) : (acceptValue v s).step = s.step := rfl
@[simp] theorem acceptValue_bottom (v : Word) (s : State) : (acceptValue v s).bottom = s.bottom := rfl
@[simp] theorem acceptValue_beyond (v : Word) (s : State) : (acceptValue v s).beyond = s.beyond := rfl
@[simp] theorem acceptValue_prev (v : Word) (s : State) : (acceptValue v s).prev = v := rfl
@[simp] theorem acceptValue_cursor (v : Word) (s : State) : (acceptValue v s).cursor = s.cursor := rfl
@[simp] theorem acceptValue_count (v : Word) (s : State) : (acceptValue v s).count = s.count := rfl
@[simp] theorem acceptValue_startSet (v : Word) (s : State) : (acceptValue v s).startSet = s.startSet := rfl
@[simp] theorem acceptValue_stepSet (v : Word) (s : State) : (acceptValue v s).stepSet = s.stepSet := rfl
@[simp] theorem acceptValue_prevValid (v : Word) (s : State) : (acceptValue v s).prevValid = true := rfl
@[simp] theorem acceptValue_beyondOvf (v : Word) (s : State) : (acceptValue v s).beyondOvf = s.beyondOvf := rfl
@[simp] theorem acceptValue_cursorOvf (v : Word) (s : State) : (acceptValue v s).cursorOvf = s.cursorOvf := rfl
@[simp] theorem acceptValue_pol (v : Word) (s : State) : (acceptValue v s).pol = s.pol := rfl
@[simp] theorem acceptValue_control (v : Word) (s : State) : (acceptValue v s).control = s.control := rfl
@[simp] theorem acceptValue_fcode (v : Word) (s : State) : (acceptValue v s).fcode = s.fcode := rfl
@[simp] theorem acceptValue_finfo (v : Word) (s : State) : (acceptValue v s).finfo = s.finfo := rfl
@[simp] theorem acceptValue_buf (v : Word) (s : State) : (acceptValue v s).buf = s.buf := rfl
@[simp] theorem acceptValue_port (v : Word) (s : State) : (acceptValue v s).port = s.port := rfl
@[simp] theorem acceptValue_sinkAnswers (v : Word) (s : State) : (acceptValue v s).sinkAnswers = s.sinkAnswers := rfl
@[simp] theorem acceptValue_draws (v : Word) (s : State) : (acceptValue v s).draws = s.draws := rfl
@[simp] theorem acceptValue_out (v : Word) (s : State) : (acceptValue v s).out = s.out := rfl
@[simp] theorem acceptValue_vals (v : Word) (s : State) : (acceptValue v s).vals = s.vals := rfl
@[simp] theorem acceptValue_rsp (v : Word) (s : State) : (acceptValue v s).rsp = s.rsp := rfl

@[simp] theorem advanceWindow_cfg (s : State) : (advanceWindow s).cfg = s.cfg := rfl
@[simp] theorem advanceWindow_start (s : State) : (advanceWindow s).start = s.start := rfl
@[simp] theorem advanceWindow_step (s : State) : (advanceWindow s).step = s.step := rfl
@[simp] theorem advanceWindow_bottom (s : State) : (advanceWindow s).bottom = s.beyond := rfl
@[simp] theorem advanceWindow_beyond (s : State) : (advanceWindow s).beyond = wrap64 (s64 s.beyond + span s) := rfl
@[simp] theorem advanceWindow_prev (s : State) : (advanceWindow s).prev = s.prev := rfl
@[simp] theorem advanceWindow_cursor (s : State) : (advanceWindow s).cursor = s.cursor := rfl
@[simp] theorem advanceWindow_count (s : State) : (advanceWindow s).count = s.count := rfl
@[simp] theorem advanceWindow_startSet (s : State) : (advanceWindow s).startSet = s.startSet := rfl
@[simp] theorem advanceWindow_stepSet (s : State) : (advanceWindow s).stepSet = s.stepSet := rfl
@[simp] theorem advanceWindow_prevValid (s : State) : (advanceWindow s).prevValid = s.prevValid := rfl
@[simp] theorem advanceWindow_beyondOvf (s : State) : (advanceWindow s).beyondOvf = decide (maxInt < s64 s.beyond + span s) := rfl
@[simp] theorem advanceWindow_cursorOvf (s : State) : (advanceWindow s).cursorOvf = s.cursorOvf := rfl
@[simp] theorem advanceWindow_pol (s : State) : (advanceWindow s).pol = s.pol := rfl
@[simp] theorem advanceWindow_control (s : State) : (advanceWindow s).control = s.control := rfl
@[simp] theorem advanceWindow_fcode (s : State) : (advanceWindow s).fcode = s.fcode := rfl
@[simp] theorem advanceWindow_finfo (s : State) : (advanceWindow s).finfo = s.finfo := rfl
@[simp] theorem advanceWindow_buf (s : State) : (advanceWindow s).buf = s.buf := rfl
@[simp] theorem advanceWindow_port (s : State) : (advanceWindow s).port = s.port := rfl
@[simp] theorem advanceWindow_sinkAnswers (s : State) : (advanceWindow s).sinkAnswers = s.sinkAnswers := rfl
@[simp] theorem advanceWindow_draws (s : State) : (advanceWindow s).draws = s.draws := rfl
@[simp] theorem advanceWindow_out (s : State) : (advanceWindow s).out = s.out := rfl
@[simp] theorem advanceWindow_vals (s : State) : (advanceWindow s).vals = s.vals := rfl
@[simp] theorem advanceWindow_rsp (s : State) : (advanceWindow s).rsp = s.rsp := rfl

@[simp] theorem advanceCursor_cfg (s : State) : (advanceCursor s).cfg = s.cfg := rfl
@[simp] theorem advanceCursor_start (s : State) : (advanceCursor s).start = s.start := rfl
@[simp] theorem advanceCursor_step (s : State) : (advanceCursor s).step = s.step := rfl
@[simp] theorem advanceCursor_bottom (s : State) : (advanceCursor s).bottom = s.bottom := rfl
@[simp] theorem advanceCursor_beyond (s : State) : (advanceCursor s).beyond = s.beyond := rfl
@[simp] theorem advanceCursor_prev (s : State) : (advanceCursor s).prev = s.prev := rfl
@[simp] theorem advanceCursor_cursor (s : State) : (advanceCursor s).cursor = wrap64 (s64 s.cursor + s64 s.step) := rfl
@[simp] theorem advanceCursor_count (s : State) : (advanceCursor s).count = s.count := rfl
@[simp] theorem advanceCursor_startSet (s : State) : (advanceCursor s).startSet = s.startSet := rfl
@[simp] theorem advanceCursor_stepSet (s : State) : (advanceCursor s).stepSet = s.stepSet := rfl
@[simp] theorem advanceCursor_prevValid (s : State) : (advanceCursor s).prevValid = s.prevValid := rfl
@[simp] theorem advanceCursor_beyondOvf (s : State) : (advanceCursor s).beyondOvf = s.beyondOvf := rfl
@[simp] theorem advanceCursor_cursorOvf (s : State) : (advanceCursor s).cursorOvf = (s.cursorOvf || decide (maxInt < s64 s.cursor + s64 s.step)) := rfl
@[simp] theorem advanceCursor_pol (s : State) : (advanceCursor s).pol = s.pol := rfl
@[simp] theorem advanceCursor_control (s : State) : (advanceCursor s).control = s.control := rfl
@[simp] theorem advanceCursor_fcode (s : State) : (advanceCursor s).fcode = s.fcode := rfl
@[simp] theorem advanceCursor_finfo (s : State) : (advanceCursor s).finfo = s.finfo := rfl
@[simp] theorem advanceCursor_buf (s : State) : (advanceCursor s).buf = s.buf := rfl
@[simp] theorem advanceCursor_port (s : State) : (advanceCursor s).port = s.port := rfl
@[simp] theorem advanceCursor_sinkAnswers (s : State) : (advanceCursor s).sinkAnswers = s.sinkAnswers := rfl
@[simp] theorem advanceCursor_draws (s : State) : (advanceCursor s).draws = s.draws := rfl
@[simp] theorem advanceCursor_out (s : State) : (advanceCursor s).out = s.out := rfl
@[simp] theorem advanceCursor_vals (s : State) : (advanceCursor s).vals = s.vals := rfl
@[simp] theorem advanceCursor_rsp (s : State) : (advanceCursor s).rsp = s.rsp := rfl

@[simp] theorem presentWord_cfg (w : CommandWord) (s : State) : (presentWord w s).cfg = s.cfg := rfl
@[simp] theorem presentWord_start (w : CommandWord) (s : State) : (presentWord w s).start = s.start := rfl
@[simp] theorem presentWord_step (w : CommandWord) (s : State) : (presentWord w s).step = s.step := rfl
@[simp] theorem presentWord_bottom (w : CommandWord) (s : State) : (presentWord w s).bottom = s.bottom := rfl
@[simp] theorem presentWord_beyond (w : CommandWord) (s : State) : (presentWord w s).beyond = s.beyond := rfl
@[simp] theorem presentWord_prev (w : CommandWord) (s : State) : (presentWord w s).prev = s.prev := rfl
@[simp] theorem presentWord_cursor (w : CommandWord) (s : State) : (presentWord w s).cursor = s.cursor := rfl
@[simp] theorem presentWord_count (w : CommandWord) (s : State) : (presentWord w s).count = s.count := rfl
@[simp] theorem presentWord_startSet (w : CommandWord) (s : State) : (presentWord w s).startSet = s.startSet := rfl
@[simp] theorem presentWord_stepSet (w : CommandWord) (s : State) : (presentWord w s).stepSet = s.stepSet := rfl
@[simp] theorem presentWord_prevValid (w : CommandWord) (s : State) : (presentWord w s).prevValid = s.prevValid := rfl
@[simp] theorem presentWord_beyondOvf (w : CommandWord) (s : State) : (presentWord w s).beyondOvf = s.beyondOvf := rfl
@[simp] theorem presentWord_cursorOvf (w : CommandWord) (s : State) : (presentWord w s).cursorOvf = s.cursorOvf := rfl
@[simp] theorem presentWord_pol (w : CommandWord) (s : State) : (presentWord w s).pol = s.pol := rfl
@[simp] theorem presentWord_control (w : CommandWord) (s : State) : (presentWord w s).control = s.control := rfl
@[simp] theorem presentWord_fcode (w : CommandWord) (s : State) : (presentWord w s).fcode = s.fcode := rfl
@[simp] theorem presentWord_finfo (w : CommandWord) (s : State) : (presentWord w s).finfo = s.finfo := rfl
@[simp] theorem presentWord_buf (w : CommandWord) (s : State) : (presentWord w s).buf = s.buf := rfl
@[simp] theorem presentWord_port (w : CommandWord) (s : State) : (presentWord w s).port = .command w :: s.port := rfl
@[simp] theorem presentWord_sinkAnswers (w : CommandWord) (s : State) : (presentWord w s).sinkAnswers = s.sinkAnswers := rfl
@[simp] theorem presentWord_draws (w : CommandWord) (s : State) : (presentWord w s).draws = s.draws := rfl
@[simp] theorem presentWord_out (w : CommandWord) (s : State) : (presentWord w s).out = s.out := rfl
@[simp] theorem presentWord_vals (w : CommandWord) (s : State) : (presentWord w s).vals = s.vals := rfl
@[simp] theorem presentWord_rsp (w : CommandWord) (s : State) : (presentWord w s).rsp = s.rsp := rfl

@[simp] theorem useSinkAnswer_cfg (s : State) : (useSinkAnswer s).cfg = s.cfg := by
  unfold useSinkAnswer; split <;> rfl
@[simp] theorem useSinkAnswer_start (s : State) : (useSinkAnswer s).start = s.start := by
  unfold useSinkAnswer; split <;> rfl
@[simp] theorem useSinkAnswer_step (s : State) : (useSinkAnswer s).step = s.step := by
  unfold useSinkAnswer; split <;> rfl
@[simp] theorem useSinkAnswer_bottom (s : State) : (useSinkAnswer s).bottom = s.bottom := by
  unfold useSinkAnswer; split <;> rfl
@[simp] theorem useSinkAnswer_beyond (s : State) : (useSinkAnswer s).beyond = s.beyond := by
  unfold useSinkAnswer; split <;> rfl
@[simp] theorem useSinkAnswer_prev (s : State) : (useSinkAnswer s).prev = s.prev := by
  unfold useSinkAnswer; split <;> rfl
@[simp] theorem useSinkAnswer_cursor (s : State) : (useSinkAnswer s).cursor = s.cursor := by
  unfold useSinkAnswer; split <;> rfl
@[simp] theorem useSinkAnswer_count (s : State) : (useSinkAnswer s).count = s.count := by
  unfold useSinkAnswer; split <;> rfl
@[simp] theorem useSinkAnswer_startSet (s : State) : (useSinkAnswer s).startSet = s.startSet := by
  unfold useSinkAnswer; split <;> rfl
@[simp] theorem useSinkAnswer_stepSet (s : State) : (useSinkAnswer s).stepSet = s.stepSet := by
  unfold useSinkAnswer; split <;> rfl
@[simp] theorem useSinkAnswer_prevValid (s : State) : (useSinkAnswer s).prevValid = s.prevValid := by
  unfold useSinkAnswer; split <;> rfl
@[simp] theorem useSinkAnswer_beyondOvf (s : State) : (useSinkAnswer s).beyondOvf = s.beyondOvf := by
  unfold useSinkAnswer; split <;> rfl
@[simp] theorem useSinkAnswer_cursorOvf (s : State) : (useSinkAnswer s).cursorOvf = s.cursorOvf := by
  unfold useSinkAnswer; split <;> rfl
@[simp] theorem useSinkAnswer_pol (s : State) : (useSinkAnswer s).pol = s.pol := by
  unfold useSinkAnswer; split <;> rfl
@[simp] theorem useSinkAnswer_control (s : State) : (useSinkAnswer s).control = s.control := by
  unfold useSinkAnswer; split <;> rfl
@[simp] theorem useSinkAnswer_fcode (s : State) : (useSinkAnswer s).fcode = s.fcode := by
  unfold useSinkAnswer; split <;> rfl
@[simp] theorem useSinkAnswer_finfo (s : State) : (useSinkAnswer s).finfo = s.finfo := by
  unfold useSinkAnswer; split <;> rfl
@[simp] theorem useSinkAnswer_buf (s : State) : (useSinkAnswer s).buf = s.buf := by
  unfold useSinkAnswer; split <;> rfl
@[simp] theorem useSinkAnswer_port (s : State) : (useSinkAnswer s).port = s.port := by
  unfold useSinkAnswer; split <;> rfl
@[simp] theorem useSinkAnswer_out (s : State) : (useSinkAnswer s).out = s.out := by
  unfold useSinkAnswer; split <;> rfl
@[simp] theorem useSinkAnswer_vals (s : State) : (useSinkAnswer s).vals = s.vals := by
  unfold useSinkAnswer; split <;> rfl
@[simp] theorem useSinkAnswer_rsp (s : State) : (useSinkAnswer s).rsp = s.rsp := by
  unfold useSinkAnswer; split <;> rfl

@[simp] theorem resetAfterFlush_cfg (n : Nat) (s : State) : (resetAfterFlush n s).cfg = s.cfg := by
  unfold resetAfterFlush; split <;> rfl
@[simp] theorem resetAfterFlush_start (n : Nat) (s : State) : (resetAfterFlush n s).start = s.start := by
  unfold resetAfterFlush; split <;> rfl
@[simp] theorem resetAfterFlush_step (n : Nat) (s : State) : (resetAfterFlush n s).step = s.step := by
  unfold resetAfterFlush; split <;> rfl
@[simp] theorem resetAfterFlush_bottom (n : Nat) (s : State) : (resetAfterFlush n s).bottom = s.bottom := by
  unfold resetAfterFlush; split <;> rfl
@[simp] theorem resetAfterFlush_beyond (n : Nat) (s : State) : (resetAfterFlush n s).beyond = s.beyond := by
  unfold resetAfterFlush; split <;> rfl
@[simp] theorem resetAfterFlush_prev (n : Nat) (s : State) : (resetAfterFlush n s).prev = s.prev := by
  unfold resetAfterFlush; split <;> rfl
@[simp] theorem resetAfterFlush_cursor (n : Nat) (s : State) : (resetAfterFlush n s).cursor = s.cursor := by
  unfold resetAfterFlush; split <;> rfl
@[simp] theorem resetAfterFlush_count (n : Nat) (s : State) : (resetAfterFlush n s).count = s.count := by
  unfold resetAfterFlush; split <;> rfl
@[simp] theorem resetAfterFlush_startSet (n : Nat) (s : State) : (resetAfterFlush n s).startSet = s.startSet := by
  unfold resetAfterFlush; split <;> rfl
@[simp] theorem resetAfterFlush_stepSet (n : Nat) (s : State) : (resetAfterFlush n s).stepSet = s.stepSet := by
  unfold resetAfterFlush; split <;> rfl
@[simp] theorem resetAfterFlush_prevValid (n : Nat) (s : State) : (resetAfterFlush n s).prevValid = s.prevValid := by
  unfold resetAfterFlush; split <;> rfl
@[simp] theorem resetAfterFlush_beyondOvf (n : Nat) (s : State) : (resetAfterFlush n s).beyondOvf = s.beyondOvf := by
  unfold resetAfterFlush; split <;> rfl
@[simp] theorem resetAfterFlush_cursorOvf (n : Nat) (s : State) : (resetAfterFlush n s).cursorOvf = s.cursorOvf := by
  unfold resetAfterFlush; split <;> rfl
@[simp] theorem resetAfterFlush_pol (n : Nat) (s : State) : (resetAfterFlush n s).pol = s.pol := by
  unfold resetAfterFlush; split <;> rfl
@[simp] theorem resetAfterFlush_control (n : Nat) (s : State) : (resetAfterFlush n s).control = s.control := by
  unfold resetAfterFlush; split <;> rfl
@[simp] theorem resetAfterFlush_fcode (n : Nat) (s : State) : (resetAfterFlush n s).fcode = s.fcode := by
  unfold resetAfterFlush; split <;> rfl
@[simp] theorem resetAfterFlush_finfo (n : Nat) (s : State) : (resetAfterFlush n s).finfo = s.finfo := by
  unfold resetAfterFlush; split <;> rfl
@[simp] theorem resetAfterFlush_buf (n : Nat) (s : State) : (resetAfterFlush n s).buf = if 0 < n then .zeros else s.buf := by
  unfold resetAfterFlush; split <;> rfl
@[simp] theorem resetAfterFlush_port (n : Nat) (s : State) : (resetAfterFlush n s).port = s.port := by
  unfold resetAfterFlush; split <;> rfl
@[simp] theorem resetAfterFlush_sinkAnswers (n : Nat) (s : State) : (resetAfterFlush n s).sinkAnswers = s.sinkAnswers := by
  unfold resetAfterFlush; split <;> rfl
@[simp] theorem resetAfterFlush_draws (n : Nat) (s : State) : (resetAfterFlush n s).draws = s.draws := by
  unfold resetAfterFlush; split <;> rfl
@[simp] theorem resetAfterFlush_out (n : Nat) (s : State) : (resetAfterFlush n s).out = s.out := by
  unfold resetAfterFlush; split <;> rfl
@[simp] theorem resetAfterFlush_vals (n : Nat) (s : State) : (resetAfterFlush n s).vals = s.vals := by
  unfold resetAfterFlush; split <;> rfl
@[simp] theorem resetAfterFlush_rsp (n : Nat) (s : State) : (resetAfterFlush n s).rsp = s.rsp := by
  unfold resetAfterFlush; split <;> rfl

/-- Two changes of the sink's side are the last one. -/
@[simp] theorem withSink_withSink (a b : List SinkAnswer) (d e : Nat) (o p : List Byte) (s : State) :
    withSink a d o (withSink b e p s) = withSink a d o s := rfl

theorem withSink_self (s : State) : withSink s.sinkAnswers s.draws s.out s = s := rfl

@[simp] theorem span_withSink (a : List SinkAnswer) (d : Nat) (o : List Byte) (s : State) :
    span (withSink a d o s) = span s := rfl

@[simp] theorem advanceWindow_withSink (a : List SinkAnswer) (d : Nat) (o : List Byte) (s : State) :
    advanceWindow (withSink a d o s) = withSink a d o (advanceWindow s) := rfl

@[simp] theorem useSinkAnswer_cons {s : State} {a : SinkAnswer} {l : List SinkAnswer} (h : s.sinkAnswers = a :: l) :
    (useSinkAnswer s).sinkAnswers = l := by
  simp [useSinkAnswer, h]

/-- The whole state once a named answer has been used. -/
theorem useSinkAnswer_eq {s : State} {a : SinkAnswer} {l : List SinkAnswer} (h : s.sinkAnswers = a :: l) :
    useSinkAnswer s = withSink l s.draws s.out s := by
  simp [useSinkAnswer, h, withSink]

/-- Using an answer changes the sink's side alone. -/
theorem useSinkAnswer_withSink (s : State) :
    useSinkAnswer s = withSink (useSinkAnswer s).sinkAnswers (useSinkAnswer s).draws s.out s := by
  unfold useSinkAnswer; split <;> rfl

theorem appendOut_eq (o : List Byte) (s : State) :
    appendOut o s = withSink s.sinkAnswers s.draws (s.out ++ o) s := rfl

theorem refuse_eq (st : Status) (s : State) : refuse st s = respond st 0 0 s := rfl

end Sys2Proof.Machine
end

