-- ==== Sys2Proof/Laws/Ops.lean ====
section
/-! SUPPORT. What the shared operations can do: the checks before a command executes (R167), the sink (R56),
and the kinds of step. -/

namespace Sys2Proof.Machine

/-! ### The checks -/

theorem refusalOf_none {legal : Control → Bool} {cfg op : Bool} {s : State} :
    refusalOf legal cfg op s = none ↔
      legal s.control = true ∧ (cfg = true → s.startSet = true ∧ s.stepSet = true) ∧ op = true := by
  unfold refusalOf
  cases h1 : legal s.control <;> cases h2 : cfg <;> cases h3 : s.startSet <;> cases h4 : s.stepSet <;>
    cases h5 : op <;> simp <;> (try (split <;> simp_all)) <;> (intro h; simp_all)

/-- A command whose checks pass executes. -/
theorem checked_run {legal : Control → Bool} {cfg op : Bool} {run : State → Answer} {s : State}
    (h1 : legal s.control = true) (h2 : cfg = true → s.startSet = true ∧ s.stepSet = true)
    (h3 : op = true) : checked legal cfg op run s = run s := by
  rw [checked, refusalOf_none.2 ⟨h1, h2, h3⟩]

/-- In `FAULT` a command that is not legal there is refused `ERR_FAULTED` (R167 (2)). -/
theorem checked_faulted {legal : Control → Bool} {cfg op : Bool} {run : State → Answer} {s : State}
    (hf : s.control = .fault) (h : legal .fault = false) :
    checked legal cfg op run s = .next (refuse .errFaulted s) := by
  simp [checked, refusalOf, hf, h]

/-- Outside its states a command is refused `ERR_STATE` (R167 (3)). -/
theorem checked_state {legal : Control → Bool} {cfg op : Bool} {run : State → Answer} {s : State}
    (hf : s.control ≠ .fault) (h : legal s.control = false) :
    checked legal cfg op run s = .next (refuse .errState s) := by
  simp [checked, refusalOf, hf, h]

/-- Without its configuration a command is refused `ERR_NOT_CONFIGURED` (R167 (4)). -/
theorem checked_config {legal : Control → Bool} {op : Bool} {run : State → Answer} {s : State}
    (h1 : legal s.control = true) (h2 : ¬ (s.startSet = true ∧ s.stepSet = true)) :
    checked legal true op run s = .next (refuse .errNotConfigured s) := by
  have hl : ¬ (s.control = .fault ∧ legal .fault = false) := by
    rintro ⟨h, h'⟩; rw [h, h'] at h1; cases h1
  have h3 : (s.startSet && s.stepSet) = false := by
    cases h4 : s.startSet <;> cases h5 : s.stepSet <;> simp_all
  simp only [checked, refusalOf, if_neg hl, h1, h3, Bool.true_eq_false, if_false, and_self, if_true]

/-- With an operand outside its legal set a command is refused `ERR_BAD_OPERAND` (R167 (5)). -/
theorem checked_operand {legal : Control → Bool} {cfg : Bool} {run : State → Answer} {s : State}
    (h1 : legal s.control = true) (h2 : cfg = true → s.startSet = true ∧ s.stepSet = true) :
    checked legal cfg false run s = .next (refuse .errBadOperand s) := by
  have hl : ¬ (s.control = .fault ∧ legal .fault = false) := by
    rintro ⟨h, h'⟩; rw [h, h'] at h1; cases h1
  have hc : ¬ (cfg = true ∧ (s.startSet && s.stepSet) = false) := by
    rintro ⟨h, h'⟩; obtain ⟨a, b⟩ := h2 h; simp [a, b] at h'
  simp only [checked, refusalOf, if_neg hl, h1, Bool.true_eq_false, if_false, if_neg hc, if_true]

/-- Everything a checked command can do: it is refused, or its checks passed and it ran. -/
theorem checked_cases (legal : Control → Bool) (cfg op : Bool) (run : State → Answer) (s : State) :
    (∃ e, refusalOf legal cfg op s = some e ∧ checked legal cfg op run s = .next (refuse e s)) ∨
    (legal s.control = true ∧ (cfg = true → s.startSet = true ∧ s.stepSet = true) ∧ op = true ∧
      checked legal cfg op run s = run s) := by
  cases h : refusalOf legal cfg op s with
  | some e => exact .inl ⟨e, rfl, by rw [checked, h]⟩
  | none =>
    obtain ⟨h1, h2, h3⟩ := refusalOf_none.1 h
    exact .inr ⟨h1, h2, h3, checked_run h1 h2 h3⟩

/-! ### The sink -/

/-- A burst the host has answered `ok` is taken whole (R56). -/
theorem sinkWrite_ok {s : State} {l : List SinkAnswer} (h : s.sinkAnswers = .ok :: l) (seq : List Byte) :
    sinkWrite seq s = (true, withSink l s.draws (s.out ++ seq) s) := by
  simp [sinkWrite, sinkAnswer, useSinkAnswer, octetsTaken, h, appendOut, withSink]

/-- A burst the host has answered `fail(k)` is taken up to a proper prefix (R56). -/
theorem sinkWrite_fail {s : State} {k : Nat} {l : List SinkAnswer} (h : s.sinkAnswers = .fail k :: l)
    (seq : List Byte) :
    sinkWrite seq s = (false, withSink l s.draws (s.out ++ seq.take (k % seq.length)) s) := by
  simp [sinkWrite, sinkAnswer, useSinkAnswer, octetsTaken, h, appendOut, withSink]

/-- Everything a burst can do, whoever answers it: the state changes on the sink's side alone, and `OUT` grows
by the burst, or by a prefix of it. -/
theorem sinkWrite_cases (seq : List Byte) (s : State) :
    ∃ (ok : Bool) (a : List SinkAnswer) (d : Nat) (o : List Byte),
      sinkWrite seq s = (ok, withSink a d (s.out ++ o) s) ∧
        ((ok = true ∧ o = seq) ∨ ok = false ∧ ∃ k, o = seq.take (k % seq.length)) := by
  refine ⟨sinkAnswer s == .ok, (useSinkAnswer s).sinkAnswers, (useSinkAnswer s).draws,
    octetsTaken (sinkAnswer s) seq, ?_, ?_⟩
  · rw [sinkWrite, appendOut_eq]
    conv => lhs; rw [useSinkAnswer_withSink s]
    simp
  · cases h : sinkAnswer s with
    | ok => exact .inl ⟨rfl, rfl⟩
    | fail k => exact .inr ⟨rfl, k, rfl⟩

/-! ### Steps -/

/-- Everything a command word can do. -/
theorem runWord_cases (w : CommandWord) (s : State) :
    (∃ e, decode w = .error e ∧ runWord w s = .next (refuse .errIllegalCmd s)) ∨
    ∃ i, decode w = .ok i ∧ runWord w s = exec i s := by
  unfold runWord
  cases hd : decode w with
  | error e => exact .inl ⟨e, rfl, rfl⟩
  | ok i => exact .inr ⟨i, rfl, rfl⟩

/-- A history cut short begins as it was. -/
theorem prefix_gainUpTo {α : Type} (n : Nat) (before after : List α) : before <+: gainUpTo n before after :=
  ⟨_, rfl⟩

/-- A history cut short is an earlier one of the same history. -/
theorem gainUpTo_prefix {α : Type} (n : Nat) {before after : List α} (h : before <+: after) :
    gainUpTo n before after <+: after := by
  obtain ⟨gain, rfl⟩ := h
  rw [gainUpTo, List.drop_left]
  exact (List.prefix_append_right_inj before).2 (List.take_prefix n gain)

/-- A cut at the end or later takes nothing away. -/
theorem gainUpTo_all {α : Type} {n : Nat} {before after : List α} (h : before <+: after)
    (hn : after.length ≤ before.length + n) : gainUpTo n before after = after := by
  obtain ⟨gain, rfl⟩ := h
  rw [gainUpTo, List.drop_left, List.take_of_length_le (by simpa using hn)]

/-- Everything a command cut short by the reset input can do: a reset after some of what it would put out, where
it would have completed. -/
theorem cutShort_next {n : Nat} {s t : State} {a : Answer} (h : cutShort n s a = .next t) :
    ∃ u, a = .next u ∧ t = resetBlock
      { s with
        out := gainUpTo n s.out u.out, vals := gainUpTo n s.vals u.vals
        sinkAnswers := u.sinkAnswers, draws := u.draws } := by
  cases a with
  | next u => cases h; exact ⟨u, rfl, rfl⟩
  | fault f => cases h
  | refused r => cases h

/-- Everything a step can do. -/
theorem step_cases (s : State) :
    (s.port = [] ∧ step s = .next s) ∨
    (∃ rest, s.port = .resetInput :: rest ∧ step s = .next (resetBlock { s with port := rest })) ∨
    (∃ w rest, s.port = .command w :: rest ∧ step s = runWord w { s with port := rest }) ∨
    ∃ w n rest, s.port = .resetDuring w n :: rest ∧
      step s = cutShort n { s with port := rest } (runWord w { s with port := rest }) := by
  unfold step takeEvent
  cases s.port with
  | nil => exact .inl ⟨rfl, rfl⟩
  | cons e rest =>
    cases e with
    | resetInput => exact .inr (.inl ⟨rest, rfl, rfl⟩)
    | command w => exact .inr (.inr (.inl ⟨w, rest, rfl, rfl⟩))
    | resetDuring w n => exact .inr (.inr (.inr ⟨w, n, rest, rfl, rfl⟩))

end Sys2Proof.Machine
end

