-- ==== Sys2Proof/Laws/Word.lean ====
section
/-! SUPPORT. The arithmetic of words: what `s64`, `wrap64`, `cadd`, `quotRem` and the IndexMapper's functions
say (R9, R10, R14, R92 to R95). -/

namespace Sys2Proof.Machine

theorem minInt_eq : minInt = -9223372036854775808 := by decide

theorem maxInt_eq : maxInt = 9223372036854775807 := by decide

theorem minInt_le_s64 (w : Word) : minInt ≤ s64 w := by
  have := BitVec.le_toInt w
  simp only [s64, minInt_eq]; omega

theorem s64_le_maxInt (w : Word) : s64 w ≤ maxInt := by
  have := BitVec.toInt_lt (x := w)
  simp only [s64, maxInt_eq]; omega

theorem s64_wrap64 {z : Int} (h1 : minInt ≤ z) (h2 : z ≤ maxInt) : s64 (wrap64 z) = z := by
  rw [minInt_eq] at h1; rw [maxInt_eq] at h2
  simp only [s64, wrap64, BitVec.toInt_ofInt]
  exact Int.bmod_eq_of_le (by omega) (by omega)

@[simp] theorem wrap64_s64 (w : Word) : wrap64 (s64 w) = w := BitVec.ofInt_toInt

theorem s64_inj {a b : Word} : s64 a = s64 b ↔ a = b := BitVec.toInt_inj

/-- Wrapping on the way does not change a wrapped sum. -/
theorem wrap64_s64_wrap64_add (z d : Int) : wrap64 (s64 (wrap64 z) + d) = wrap64 (z + d) := by
  unfold wrap64
  rw [BitVec.ofInt_add, BitVec.ofInt_add]
  congr 1
  exact wrap64_s64 _

theorem u64_lt (w : Word) : u64 w < 2 ^ 64 := w.isLt

theorem u64_ofNat {n : Nat} (h : n < 2 ^ 64) : u64 (BitVec.ofNat 64 n) = n := by
  simp only [u64, BitVec.toNat_ofNat]; exact Nat.mod_eq_of_lt h

theorem ofNat_u64 (w : Word) : BitVec.ofNat 64 (u64 w) = w := BitVec.ofNat_toNat 64 w |>.trans (by simp)

@[simp] theorem cadd_fst (a : Word) (d : Int) : (cadd a d).1 = wrap64 (s64 a + d) := rfl

@[simp] theorem cadd_snd (a : Word) (d : Int) : (cadd a d).2 = decide (maxInt < s64 a + d) := rfl

/-- A checked addition that does not overflow holds the exact sum (R14, R24). -/
theorem s64_cadd {a : Word} {d : Int} (hd : 0 ≤ d) (h : (cadd a d).2 = false) :
    s64 (cadd a d).1 = s64 a + d := by
  have h1 := minInt_le_s64 a
  rw [cadd_snd, decide_eq_false_iff_not] at h
  exact s64_wrap64 (by omega) (by omega)

/-- The exact difference of two values lies in `-(2^64-1) .. 2^64-1` (R92). -/
theorem diff_bounds (v s : Word) : -(2 ^ 64 - 1) ≤ diff v s ∧ diff v s ≤ 2 ^ 64 - 1 := by
  have h1 := minInt_le_s64 v; have h2 := minInt_le_s64 s
  have h3 := s64_le_maxInt v; have h4 := s64_le_maxInt s
  simp only [minInt_eq, maxInt_eq] at *
  unfold diff; omega

theorem quotRem_of {a b : Int} (ha : 0 ≤ a) (hb : 0 < b) :
    quotRem a b = some ((a / b).toNat, (a % b).toNat) := if_pos ⟨ha, hb⟩

theorem quotRem_none {a b : Int} : quotRem a b = none ↔ a < 0 ∨ b ≤ 0 := by
  unfold quotRem; split <;> simp <;> omega

/-- All `toIndex` answers for a positive step (R94). -/
theorem toIndex_of_pos {start step v : Word} (h : 0 < s64 step) :
    toIndex start step v =
      some (if s64 v < s64 start then .belowStart
        else if (s64 v - s64 start) % s64 step ≠ 0 then .notRepresentable
        else .index ((s64 v - s64 start) / s64 step).toNat) := by
  unfold toIndex diff
  by_cases h1 : s64 v < s64 start
  · rw [if_pos (by omega), if_pos h1]
  · rw [if_neg (by omega), if_neg h1, quotRem_of (by omega) h]
    have hm := Int.emod_nonneg (s64 v - s64 start) (by omega : s64 step ≠ 0)
    by_cases h2 : (s64 v - s64 start) % s64 step = 0
    · simp [h2]
    · have : ((s64 v - s64 start) % s64 step).toNat ≠ 0 := by omega
      simp [h2, this]

/-- The quotient of `toIndex` fits `u64` (R93). -/
theorem toIndex_lt {start step v : Word} {i : Nat} (h : toIndex start step v = some (.index i)) :
    i < 2 ^ 64 := by
  have hb := diff_bounds v start
  unfold toIndex at h
  split at h
  · simp at h
  · unfold quotRem at h
    split at h
    · simp at h
    · next q r heq =>
      split at heq
      · next hc =>
        obtain ⟨h0, hp⟩ := hc
        split at h
        · simp at h
        · simp only [Option.some.injEq, IndexOf.index.injEq, Prod.mk.injEq] at h heq
          have : diff v start / s64 step ≤ diff v start := Int.ediv_le_self _ h0
          omega
      · simp at heq

end Sys2Proof.Machine
end

