-- ==== Sys2Proof/Laws/Encoder.lean ====
section
/-! SUPPORT. The flush loop in closed form (R122, R128, R131): how far it advances the window, what it writes,
and where a failing burst leaves it (R127). -/

namespace Sys2Proof.Machine

/-- `BEYOND` and `BEYOND_OVF` are the checked sum of `BOTTOM` and `SPAN` (R24). -/
abbrev WindowPair (s : State) : Prop :=
  s.beyond = wrap64 (s64 s.bottom + span s) ∧ s.beyondOvf = decide (maxInt < s64 s.bottom + span s)

/-- The window `m` windows further on. -/
def windowBy (m : Nat) (s : State) : State :=
  { s with
    bottom := wrap64 (s64 s.bottom + m * span s)
    beyond := wrap64 (s64 s.bottom + (m + 1 : Nat) * span s)
    beyondOvf := decide (maxInt < s64 s.bottom + (m + 1 : Nat) * span s) }

/-- What `m` bursts write when `k` have been written already by this command (R122). -/
def burstsFrom : (k m : Nat) → State → List Byte
  | _, 0, _ => []
  | k, m + 1, s => flushBurst k s ++ burstsFrom (k + 1) m s

/-- The bursts depend on the buffer and its capacity alone. -/
theorem burstsFrom_congr {s t : State} (hb : s.buf = t.buf) (hc : s.cfg = t.cfg) (k m : Nat) :
    burstsFrom k m s = burstsFrom k m t := by
  induction m generalizing k with
  | zero => rfl
  | succ m ih => simp only [burstsFrom, ih, flushBurst, hb, hc]

theorem burstsFrom_succ_start (k m : Nat) (s : State) :
    burstsFrom (k + 1) m s = List.replicate (m * s.cfg.bufSize) 0 := by
  induction m generalizing k with
  | zero => simp [burstsFrom]
  | succ m ih =>
    rw [burstsFrom, ih, flushBurst, if_neg (by omega), List.replicate_append_replicate]
    congr 1; ring

/-- The bursts of one whole command (R131). -/
theorem burstsFrom_zero (m : Nat) (s : State) : burstsFrom 0 m s = flushedOctets m s := by
  cases m with
  | zero => rfl
  | succ m => rw [burstsFrom, burstsFrom_succ_start]; simp [flushedOctets, flushBurst]

theorem span_pos {s : State} (hc : s.cfg.Legal) (hs : 1 ≤ s64 s.step) : 8 ≤ span s := by
  have h1 : (1 : Int) ≤ s.cfg.bufSize := by exact_mod_cast hc.1
  unfold span
  nlinarith

theorem windowBy_zero {s : State} (h : WindowPair s) : windowBy 0 s = s := by
  obtain ⟨h1, h2⟩ := h
  unfold windowBy
  simp [← h1, ← h2]

@[simp] theorem windowBy_withSink (m : Nat) (a : List SinkAnswer) (d : Nat) (o : List Byte) (s : State) :
    windowBy m (withSink a d o s) = withSink a d o (windowBy m s) := rfl

/-- The flush condition in exact numbers (R122). -/
theorem mustFlush_iff {v : Int} {s : State} (h : WindowPair s) (hp : 0 ≤ span s) (hv : v ≤ maxInt) :
    mustFlush v s = true ↔ s64 s.bottom + span s ≤ v := by
  have hb := minInt_le_s64 s.bottom
  unfold mustFlush
  rw [h.1, h.2]
  by_cases ho : maxInt < s64 s.bottom + span s
  · simp [ho]; omega
  · rw [s64_wrap64 (by omega) (by omega)]; simp [ho]

/-- The number of windows above, by its bounds. -/
theorem windowsAbove_bounds {v : Int} {s : State} (hp : 0 < span s) (hb : s64 s.bottom ≤ v) :
    s64 s.bottom + windowsAbove v s * span s ≤ v ∧ v < s64 s.bottom + (windowsAbove v s + 1 : Nat) * span s := by
  have h1 := Int.ediv_mul_le (v - s64 s.bottom) (by omega : span s ≠ 0)
  have h2 := Int.lt_ediv_add_one_mul_self (v - s64 s.bottom) hp
  have h3 : ((windowsAbove v s : Nat) : Int) = (v - s64 s.bottom) / span s :=
    Int.toNat_of_nonneg (Int.ediv_nonneg (by omega) (by omega))
  push_cast
  rw [h3]
  constructor <;> linarith

theorem windowsAbove_unique {v : Int} {s : State} {n : Nat} (hp : 0 < span s)
    (h1 : s64 s.bottom + n * span s ≤ v) (h2 : v < s64 s.bottom + (n + 1 : Nat) * span s) :
    windowsAbove v s = n := by
  have : (v - s64 s.bottom) / span s = n := by
    refine (Int.ediv_emod_unique hp (r := v - s64 s.bottom - n * span s) (q := n)).2 ⟨?_, ?_, ?_⟩ |>.1
    · ring
    · linarith
    · push_cast at h2; linarith
  unfold windowsAbove
  rw [this]; rfl

@[simp] theorem windowBy_span (m : Nat) (s : State) : span (windowBy m s) = span s := rfl

@[simp] theorem advanceWindow_span (s : State) : span (advanceWindow s) = span s := rfl

/-- One advance in exact numbers, when the loop runs. -/
theorem advanceWindow_eq {s : State} (h : WindowPair s) (hp : 0 ≤ span s)
    (hf : s64 s.bottom + span s ≤ maxInt) :
    s64 (advanceWindow s).bottom = s64 s.bottom + span s ∧ WindowPair (advanceWindow s) := by
  have hb := minInt_le_s64 s.bottom
  have : s64 s.beyond = s64 s.bottom + span s := by rw [h.1, s64_wrap64 (by omega) (by omega)]
  exact ⟨this, rfl, rfl⟩

theorem windowBy_advance {s : State} (h : WindowPair s) (hp : 0 ≤ span s)
    (hf : s64 s.bottom + span s ≤ maxInt) (m : Nat) : windowBy m (advanceWindow s) = windowBy (m + 1) s := by
  have h1 := (advanceWindow_eq h hp hf).1
  unfold windowBy
  rw [advanceWindow_span, h1]
  have e1 : s64 s.bottom + span s + m * span s = s64 s.bottom + (m + 1 : Nat) * span s := by push_cast; ring
  have e2 : s64 s.bottom + span s + (m + 1 : Nat) * span s = s64 s.bottom + (m + 1 + 1 : Nat) * span s := by
    push_cast; ring
  rw [e1, e2]
  rfl

theorem windowsAbove_advance {v : Int} {s : State} (h : WindowPair s) (hp : 0 < span s) (hv : v ≤ maxInt)
    (hf : s64 s.bottom + span s ≤ v) : windowsAbove v (advanceWindow s) + 1 = windowsAbove v s := by
  have h1 := (advanceWindow_eq h (by omega) (by omega)).1
  have h2 := windowsAbove_bounds (s := advanceWindow s) (v := v) hp (by rw [h1]; exact hf)
  rw [h1, advanceWindow_span] at h2
  refine (windowsAbove_unique hp ?_ ?_).symm
  · push_cast; linarith [h2.1]
  · have := h2.2; push_cast at this ⊢; linarith

theorem windowsAbove_pos {v : Int} {s : State} (hp : 0 < span s) (hf : s64 s.bottom + span s ≤ v) :
    0 < windowsAbove v s := by
  have h := windowsAbove_bounds (s := s) (v := v) hp (by omega)
  rcases Nat.eq_zero_or_pos (windowsAbove v s) with h0 | h0
  · rw [h0] at h; simp at h; omega
  · exact h0

theorem windowsAbove_zero {v : Int} {s : State} (hp : 0 < span s) (hb : s64 s.bottom ≤ v)
    (hf : v < s64 s.bottom + span s) : windowsAbove v s = 0 :=
  windowsAbove_unique hp (by simpa using hb) (by simpa using hf)

/-- The fuel is never used up (R220). -/
theorem windowsAbove_le_fuel {v : Int} {s : State} (h : WindowPair s) (hp : 0 < span s) (hv : v ≤ maxInt)
    (hb : s64 s.bottom ≤ v) : windowsAbove v s ≤ flushFuel v s := by
  by_cases hf : s64 s.bottom + span s ≤ v
  · have h1 := (advanceWindow_eq h (by omega) (by omega)).1
    have h2 := windowsAbove_bounds (s := advanceWindow s) (v := v) hp (by rw [h1]; exact hf)
    have h3 := windowsAbove_advance h hp hv hf
    rw [advanceWindow_span] at h2
    unfold flushFuel
    have h4 : s64 (advanceWindow s).bottom = s64 s.beyond := rfl
    rw [h4] at h2
    have h5 : (windowsAbove v (advanceWindow s) : Int) ≤ windowsAbove v (advanceWindow s) * span s := by
      nlinarith
    omega
  · rw [windowsAbove_zero hp hb (by omega)]; exact Nat.zero_le _

/-- As many iterations as the sink has `ok` answers waiting, all of them inside the gap. -/
theorem flushLoop_oks {v : Int} (hv : v ≤ maxInt) (m : Nat) :
    ∀ (s : State) (k fuel : Nat) (rest : List SinkAnswer), WindowPair s → 0 < span s →
      s64 s.bottom + m * span s ≤ v → m ≤ fuel → s.sinkAnswers = List.replicate m .ok ++ rest →
      flushLoop v fuel k s =
        flushLoop v (fuel - m) (k + m) (withSink rest s.draws (s.out ++ burstsFrom k m s) (windowBy m s)) := by
  induction m with
  | zero =>
    intro s k fuel rest h hp hb hf ha
    rw [windowBy_zero h]
    simp only [List.replicate_zero, List.nil_append] at ha
    simp [burstsFrom, ← ha, withSink_self]
  | succ m ih =>
    intro s k fuel rest h hp hb hf ha
    obtain ⟨fuel, rfl⟩ : ∃ f, fuel = f + 1 := ⟨fuel - 1, by omega⟩
    have hb' : s64 s.bottom + m * span s + span s ≤ v := by push_cast at hb; linarith
    have hm : (0 : Int) ≤ m * span s := by positivity
    have hfl : s64 s.bottom + span s ≤ v := by omega
    rw [flushLoop, if_pos ((mustFlush_iff h (by omega) hv).2 hfl)]
    have ha' : s.sinkAnswers = .ok :: (List.replicate m .ok ++ rest) := by
      rw [ha, List.replicate_succ]; rfl
    rw [sinkWrite_ok ha']
    simp only
    have hadv := advanceWindow_eq h (by omega) (by omega)
    rw [advanceWindow_withSink,
      ih (withSink _ s.draws (s.out ++ flushBurst k s) (advanceWindow s)) (k + 1) fuel rest hadv.2 hp ?_
        (by omega) rfl]
    · have hw := windowBy_advance h (by omega) (by omega) m
      rw [show fuel + 1 - (m + 1) = fuel - m by omega, show k + 1 + m = k + (m + 1) by omega]
      rw [windowBy_withSink, withSink_withSink, hw, burstsFrom,
        burstsFrom_congr (s := withSink _ _ _ (advanceWindow s)) (t := s) rfl rfl]
      simp
    · have : s64 (advanceWindow s).bottom + m * span s ≤ v := by rw [hadv.1]; omega
      exact this

theorem flushLoop_stop {v : Int} {s : State} (h : mustFlush v s = false) (fuel k : Nat) :
    flushLoop v fuel k s = ⟨k, false, s⟩ := by
  cases fuel with
  | zero => rfl
  | succ n => simp [flushLoop, h]

/-- Every step of the window the loop takes leaves the pair of R24 in place. -/
theorem windowBy_pair {v : Int} (m : Nat) {s : State} (hp : 0 < span s)
    (hv : v ≤ maxInt) (hb : s64 s.bottom + m * span s ≤ v) :
    s64 (windowBy m s).bottom = s64 s.bottom + m * span s ∧ WindowPair (windowBy m s) := by
  have h0 := minInt_le_s64 s.bottom
  have hm : (0 : Int) ≤ m * span s := by positivity
  have h1 : s64 (windowBy m s).bottom = s64 s.bottom + m * span s := s64_wrap64 (by omega) (by omega)
  refine ⟨h1, ?_, ?_⟩
  · rw [h1, windowBy_span]
    show wrap64 _ = _
    congr 1; push_cast; ring
  · rw [h1, windowBy_span]
    show decide _ = _
    congr 2; push_cast; ring

/-- The whole loop when the sink answers `ok` to every burst (R122, R128 (e), R131). -/
theorem flushLoop_all {v : Int} {s : State} {rest : List SinkAnswer} (h : WindowPair s) (hp : 0 < span s)
    (hv : v ≤ maxInt) (hb : s64 s.bottom ≤ v)
    (ha : s.sinkAnswers = List.replicate (windowsAbove v s) .ok ++ rest) :
    flushLoop v (flushFuel v s) 0 s =
      ⟨windowsAbove v s, false,
        withSink rest s.draws (s.out ++ flushedOctets (windowsAbove v s) s) (windowBy (windowsAbove v s) s)⟩ := by
  have hw := windowsAbove_bounds hp hb
  rw [flushLoop_oks hv _ s 0 _ rest h hp hw.1 (windowsAbove_le_fuel h hp hv hb) ha, Nat.zero_add,
    burstsFrom_zero]
  refine flushLoop_stop ?_ _ _
  have hq := windowBy_pair (windowsAbove v s) hp hv hw.1
  rw [Bool.eq_false_iff]
  intro hc
  have := (mustFlush_iff (s := withSink _ _ _ (windowBy (windowsAbove v s) s)) hq.2 (le_of_lt hp) hv).1 hc
  have h3 : s64 (windowBy (windowsAbove v s) s).bottom + span s ≤ v := this
  rw [hq.1] at h3
  have := hw.2
  push_cast at this
  linarith

/-- The loop when the sink answers `ok` to `m` bursts and fails the next (R127). -/
theorem flushLoop_fails {v : Int} {s : State} {m j : Nat} {rest : List SinkAnswer} (h : WindowPair s)
    (hp : 0 < span s) (hv : v ≤ maxInt) (hb : s64 s.bottom ≤ v) (hm : m < windowsAbove v s)
    (ha : s.sinkAnswers = List.replicate m .ok ++ .fail j :: rest) :
    flushLoop v (flushFuel v s) 0 s =
      ⟨m, true,
        withSink rest s.draws
          (s.out ++ flushedOctets m s ++ (flushBurst m s).take (j % (flushBurst m s).length)) (windowBy m s)⟩ := by
  have hw := windowsAbove_bounds hp hb
  have hlt : s64 s.bottom + m * span s + span s ≤ v := by
    have : ((m + 1 : Nat) : Int) * span s ≤ windowsAbove v s * span s := by
      have : ((m + 1 : Nat) : Int) ≤ windowsAbove v s := by exact_mod_cast hm
      nlinarith
    push_cast at this
    linarith
  have hle : s64 s.bottom + m * span s ≤ v := by omega
  have hfu := windowsAbove_le_fuel h hp hv hb
  have hq := windowBy_pair m hp hv hle
  rw [flushLoop_oks hv m s 0 _ _ h hp hle (by omega) ha, Nat.zero_add, burstsFrom_zero,
    show flushFuel v s - m = flushFuel v s - m - 1 + 1 by omega, flushLoop, if_pos, sinkWrite_fail rfl]
  · rfl
  · refine (mustFlush_iff (s := withSink _ _ _ (windowBy m s)) hq.2 (le_of_lt hp) hv).2 ?_
    show s64 (windowBy m s).bottom + span s ≤ v
    rw [hq.1]; exact hlt

/-- Everything the loop can do, whoever answers the bursts: it advances the window by the bursts accepted,
changes the environment's side otherwise, and ends in the window of `v` unless a burst failed. -/
theorem flushLoop_cases {v : Int} (hv : v ≤ maxInt) (fuel : Nat) :
    ∀ (s : State) (k : Nat), WindowPair s → 0 < span s → s64 s.bottom ≤ v → windowsAbove v s ≤ fuel →
      ∃ (m : Nat) (failed : Bool) (a : List SinkAnswer) (d : Nat) (o : List Byte),
        flushLoop v fuel k s =
          ⟨k + m, failed, withSink a d (s.out ++ o) (windowBy m s)⟩ ∧
        (failed = false → m = windowsAbove v s) ∧ (failed = true → m < windowsAbove v s) := by
  induction fuel with
  | zero =>
    intro s k h hp hb hf
    refine ⟨0, false, s.sinkAnswers, s.draws, [], ?_, fun _ => by omega, by simp⟩
    rw [windowBy_zero h]; simp [flushLoop, withSink_self]
  | succ fuel ih =>
    intro s k h hp hb hf
    rw [flushLoop]
    by_cases hc : s64 s.bottom + span s ≤ v
    · rw [if_pos ((mustFlush_iff h (by omega) hv).2 hc)]
      have hpos := windowsAbove_pos hp hc
      have hadv := advanceWindow_eq h (by omega) (by omega)
      have hna := windowsAbove_advance h hp hv hc
      have hwb : ∀ m, windowBy m (advanceWindow s) = windowBy (m + 1) s :=
        windowBy_advance h (by omega) (by omega)
      obtain ⟨ok, a, d, o, h1, h2⟩ := sinkWrite_cases (flushBurst k s) s
      rw [h1]
      cases ok with
      | true =>
        obtain ⟨m, f, a', d', o', h3, h4, h5⟩ :=
          ih (withSink a d (s.out ++ o) (advanceWindow s)) (k + 1) hadv.2 hp (hadv.1 ▸ hc) (show windowsAbove v (advanceWindow s) ≤ fuel by omega)
        have e1 : windowsAbove v (withSink a d (s.out ++ o) (advanceWindow s)) = windowsAbove v (advanceWindow s) := rfl
        refine ⟨m + 1, f, a', d', o ++ o', ?_, fun hf => ?_, fun hf => ?_⟩
        · simp only [advanceWindow_withSink]
          rw [h3, windowBy_withSink, withSink_withSink, hwb m, show k + (m + 1) = k + 1 + m by omega]
          simp
        · have := h4 hf; omega
        · have := h5 hf; omega
      | false =>
        refine ⟨0, true, a, d, o, ?_, by simp, fun _ => hpos⟩
        simp only [Nat.add_zero, windowBy_zero h]
    · have hz := windowsAbove_zero hp hb (by omega)
      rw [if_neg (fun hx => hc ((mustFlush_iff h (by omega) hv).1 hx))]
      refine ⟨0, false, s.sinkAnswers, s.draws, [], ?_, fun _ => hz.symm, by simp⟩
      rw [windowBy_zero h]; simp [withSink_self]

end Sys2Proof.Machine
end

