-- ==== Sys2Proof/Laws/Encoding.lean ====
section
/-! SUPPORT. The two fields of a command word, and a word under the mask of a table row (R70, R71). -/

namespace Sys2Proof

@[simp] theorem opcodeField_commandWord (op : Byte) (x : Word) : opcodeField (commandWord op x) = op := by
  apply BitVec.eq_of_getLsbD_eq
  intro i hi
  simp only [opcodeField, commandWord, BitVec.getLsbD_extractLsb', BitVec.getLsbD_append]
  simp [hi]

@[simp] theorem operandField_commandWord (op : Byte) (x : Word) : operandField (commandWord op x) = x := by
  apply BitVec.eq_of_getLsbD_eq
  intro i hi
  simp only [operandField, commandWord, BitVec.getLsbD_extractLsb', BitVec.getLsbD_append]
  simp [hi]

/-- A word is its two fields. -/
theorem commandWord_fields (w : CommandWord) : commandWord (opcodeField w) (operandField w) = w := by
  apply BitVec.eq_of_getLsbD_eq
  intro i hi
  simp only [opcodeField, operandField, commandWord, BitVec.getLsbD_extractLsb', BitVec.getLsbD_append]
  by_cases h : i < 64
  · simp [h]
  · simp [h, show i - 64 < 8 by omega, show 64 + (i - 64) = i by omega]

theorem commandWord_inj {op b : Byte} {x y : Word} : commandWord op x = commandWord b y ↔ op = b ∧ x = y := by
  constructor
  · intro h
    have h1 := congrArg opcodeField h
    have h2 := congrArg operandField h
    simp only [opcodeField_commandWord, operandField_commandWord] at h1 h2
    exact ⟨h1, h2⟩
  · rintro ⟨rfl, rfl⟩; rfl

/-- Masking acts on the two fields apart. -/
theorem and_commandWord (op m : Byte) (x n : Word) :
    commandWord op x &&& commandWord m n = commandWord (op &&& m) (x &&& n) := by
  apply BitVec.eq_of_getLsbD_eq
  intro i hi
  simp only [commandWord, BitVec.getLsbD_and, BitVec.getLsbD_append]
  split <;> rfl

/-- Whether a word meets a table row, field by field. -/
theorem row_commandWord (op m b : Byte) (x n y : Word) :
    (commandWord op x &&& commandWord m n == commandWord b y) = (op &&& m == b && x &&& n == y) := by
  rw [and_commandWord, Bool.eq_iff_iff]
  simp [commandWord_inj]

/-- A field is zero exactly when the operand is zero under the mask of its bits. -/
theorem extractLsb'_eq_zero_iff {k m : Nat} {mask : Word} (hk : k + m = 64)
    (hmask : ∀ i < 64, mask.getLsbD i = decide (k ≤ i)) (x : Word) :
    x.extractLsb' k m = 0 ↔ x &&& mask = 0 := by
  constructor
  · intro h
    apply BitVec.eq_of_getLsbD_eq
    intro i hi
    rw [BitVec.getLsbD_and, hmask i hi]
    by_cases h2 : k ≤ i
    · have h3 := congrArg (fun b => b.getLsbD (i - k)) h
      simp only [BitVec.getLsbD_extractLsb'] at h3
      rw [show k + (i - k) = i by omega] at h3
      simp [show i - k < m by omega] at h3
      simp [h3]
    · simp [h2]
  · intro h
    apply BitVec.eq_of_getLsbD_eq
    intro i hi
    have h3 := congrArg (fun b => b.getLsbD (k + i)) h
    simp only [BitVec.getLsbD_and] at h3
    rw [hmask _ (by omega)] at h3
    simp only [BitVec.getLsbD_extractLsb']
    simpa [hi] using h3

theorem octetMask_bits : ∀ i < 64, (0xFFFFFFFFFFFFFF00 : Word).getLsbD i = decide (8 ≤ i) := by decide

theorem polarityMask_bits : ∀ i < 64, (0xFFFFFFFFFFFFFFFC : Word).getLsbD i = decide (2 ≤ i) := by decide

/-- An operand whose upper bits are zero is its low field, widened. -/
theorem setWidth_extractLsb' {k m : Nat} (hk : k + m = 64) {x : Word} (h : x.extractLsb' k m = 0) :
    (x.extractLsb' 0 k).setWidth 64 = x := by
  apply BitVec.eq_of_getLsbD_eq
  intro i hi
  simp only [BitVec.getLsbD_setWidth, BitVec.getLsbD_extractLsb']
  by_cases h2 : i < k
  · simp [h2, hi]
  · have h3 := congrArg (fun b => b.getLsbD (i - k)) h
    simp only [BitVec.getLsbD_extractLsb'] at h3
    rw [show k + (i - k) = i by omega] at h3
    simp [show i - k < m by omega] at h3
    simp [h2, h3]

/-- The fields of a widened polarity and of a widened octet. -/
theorem setWidth_fields (p : BitVec 2) (b : Byte) :
    (p.setWidth 64).extractLsb' 0 2 = p ∧ (p.setWidth 64).extractLsb' 2 62 = 0 ∧
      (b.setWidth 64).extractLsb' 0 8 = b ∧ (b.setWidth 64).extractLsb' 8 56 = 0 := by
  have hp : ∀ p : BitVec 2, (p.setWidth 64).extractLsb' 0 2 = p ∧ (p.setWidth 64).extractLsb' 2 62 = 0 := by
    decide
  have hb : ∀ b : Byte, (b.setWidth 64).extractLsb' 0 8 = b ∧ (b.setWidth 64).extractLsb' 8 56 = 0 := by
    decide
  exact ⟨(hp p).1, (hp p).2, (hb b).1, (hb b).2⟩

end Sys2Proof
end

