-- ==== Sys2Proof/Laws/Exec.lean ====
section
/-! SUPPORT. Every command is the same checks (R166, R167) around a body of its own: the tables of `Safety`
say when it is refused, and the body says what it does when it is not. -/

namespace Sys2Proof.Machine

/-- What a command does once its checks have passed. -/
def commandBody : Instr → State → Answer
  | .setStart v => fun s => .next (respond .ok 0 0 { s with start := v, startSet := true })
  | .setStep v => fun s => .next (respond .ok 0 0 { s with step := v, stepSet := true })
  | .regRd r => fun s => .next (respond .ok ((readRegister (u64 r) s).getD 0) 0 s)
  | .reset => fun s => .next (respond .ok 0 0 (resetBlock s))
  | .srcErr => fun s => .next (raise .ioRead 0 s)
  | .mapToIndex v => fun s =>
    match toIndex s.start s.step v with
    | none => .fault .undefinedQuotient
    | some .belowStart => .next (respond .belowStart 0 0 s)
    | some .notRepresentable => .next (respond .notRepresentable 0 0 s)
    | some (.index i) => .next (respond .ok (BitVec.ofNat 64 i) 0 s)
  | .mapToValue i => fun s =>
    match toValue s.start s.step i with
    | none => .next (respond .arithOverflow 0 0 s)
    | some z => .next (respond .ok (wrap64 z) 0 s)
  | .mapSplit i => fun s =>
    .next (respond .ok (BitVec.ofNat 64 (split (u64 i)).1) (BitVec.ofNat 8 (split (u64 i)).2) s)
  | .encBegin => fun s =>
    .next (respond .ok 0 0
      { s with
        bottom := s.start
        beyond := (cadd s.start (span s)).1, beyondOvf := (cadd s.start (span s)).2
        prev := 0, prevValid := false
        buf := .zeros
        control := .enc })
  | .encPush v => fun s =>
    match guardValue v s with
    | .undefined => .fault .undefinedQuotient
    | .skip st => .next (respond st 0 0 s)
    | .accept s1 => pushAccepted (s64 v) s1
  | .encEnd => fun s => .next (writeTail (s.buf.tailLength s.cfg.bufSize) s)
  | .scanBeginList p => fun s =>
    .next (respond .ok 0 0 { s with cursor := s.start, cursorOvf := false, pol := p, control := .list })
  | .scanBeginCount p => fun s => .next (respond .ok 0 0 { s with count := 0, pol := p, control := .count })
  | .scanByte b => fun s => .next (if s.control = .list then scanByteList b s else scanByteCount b s)
  | .scanEnd => fun s =>
    .next (respond .ok (if s.control = .count then s.count else 0) 0 { s with control := .idle })

/-- Whether register number `r` exists (R32). -/
theorem readRegister_isSome (r : Nat) (s : State) : (readRegister r s).isSome = decide (r ≤ 10) := by
  by_cases h : r ≤ 10
  · interval_cases r <;> rfl
  · obtain ⟨k, rfl⟩ : ∃ k, r = k + 11 := ⟨r - 11, by omega⟩
    rw [decide_eq_false h]; rfl

/-- A command is its body behind the checks that the tables of R73 and R166 give it. -/
theorem exec_eq (i : Instr) (s : State) :
    exec i s = checked (legalIn i) (needsConfig i) (operandLegal i) (commandBody i) s := by
  have hI : inIdle = fun c => legalIn .encBegin c := by funext c; cases c <;> rfl
  have hE : inEnc = fun c => legalIn .encEnd c := by funext c; cases c <;> rfl
  have hS : inScan = fun c => legalIn .scanEnd c := by funext c; cases c <;> rfl
  have hO : inStream = fun c => legalIn .srcErr c := by funext c; cases c <;> rfl
  have hN : notInFault = fun c => legalIn (.mapSplit 0) c := by funext c; cases c <;> rfl
  cases i with
  | setStart v => show execSetStart v s = _; unfold execSetStart; rw [hI]; rfl
  | setStep v => show execSetStep v s = _; unfold execSetStep; rw [hI]; rfl
  | regRd r => show execRegRd r s = _; unfold execRegRd; rw [readRegister_isSome]; rfl
  | reset => rfl
  | srcErr => show execSrcErr s = _; unfold execSrcErr; rw [hO]; rfl
  | mapToIndex v => show execMapToIndex v s = _; unfold execMapToIndex; rw [hN]; rfl
  | mapToValue i => show execMapToValue i s = _; unfold execMapToValue; rw [hN]; rfl
  | mapSplit i => show execMapSplit i s = _; unfold execMapSplit; rw [hN]; rfl
  | encBegin => show execEncBegin s = _; unfold execEncBegin; rw [hI]; rfl
  | encPush v => show execEncPush v s = _; unfold execEncPush; rw [hE]; rfl
  | encEnd => show execEncEnd s = _; unfold execEncEnd; rw [hE]; rfl
  | scanBeginList p =>
    have : listPolarityOk p = operandLegal (.scanBeginList p) := by
      simp only [listPolarityOk, operandLegal]; exact decide_eq_decide.2 (by omega)
    show execScanBeginList p s = _; unfold execScanBeginList; rw [hI, this]; rfl
  | scanBeginCount p =>
    have : countPolarityOk p = operandLegal (.scanBeginCount p) := by
      simp only [countPolarityOk, operandLegal]; exact decide_eq_decide.2 (by omega)
    show execScanBeginCount p s = _; unfold execScanBeginCount; rw [hI, this]; rfl
  | scanByte b => show execScanByte b s = _; unfold execScanByte; rw [hS]; rfl
  | scanEnd => show execScanEnd s = _; unfold execScanEnd; rw [hS]; rfl

/-- A command whose checks pass is its body. -/
theorem exec_run {i : Instr} {s : State} (h1 : legalIn i s.control = true)
    (h2 : needsConfig i = true → Configured s) (h3 : operandLegal i = true) :
    exec i s = commandBody i s := (exec_eq i s).trans (checked_run h1 h2 h3)

/-- The three checks of a command that decodes (R167 (2) to (5)). -/
abbrev Executes (i : Instr) (s : State) : Prop :=
  legalIn i s.control = true ∧ (needsConfig i = true → Configured s) ∧ operandLegal i = true

/-- Everything a command can do: one refusal and nothing else, or its body, in a state its checks allow. -/
theorem exec_cases (i : Instr) (s : State) :
    (¬ Executes i s ∧ ∃ e, exec i s = .next (refuse e s)) ∨ (Executes i s ∧ exec i s = commandBody i s) := by
  rw [exec_eq]
  rcases checked_cases (legalIn i) (needsConfig i) (operandLegal i) (commandBody i) s with
    ⟨e, h', h⟩ | ⟨h1, h2, h3, h⟩
  · exact .inl ⟨fun hx => (by rw [refusalOf_none.2 hx] at h'; cases h'), e, h⟩
  · exact .inr ⟨⟨h1, h2, h3⟩, h⟩

end Sys2Proof.Machine
end

