-- ==== Sys2Proof/Laws/Scanner.lean ====
section
/-! SUPPORT. List mode over the bits of an octet in closed form (R142, R147), and the counts of an octet
(R143, R144). -/

namespace Sys2Proof.Machine

/-- The state `j` bits further on, with the values `o` emitted on the way (R26, R142). -/
def cursorBy (j : Nat) (o : List Int) (s : State) : State :=
  { s with
    cursor := wrap64 (cursorAt j s), cursorOvf := decide (CursorPast j s), vals := s.vals ++ o }

theorem cursorBy_zero (s : State) : cursorBy 0 [] s = s := by
  have h := s64_le_maxInt s.cursor
  have h1 : ¬ maxInt < s64 s.cursor := by omega
  simp [cursorBy, cursorAt, h1]

theorem cursorAt_succ (j : Nat) (s : State) : cursorAt (j + 1) s = cursorAt j s + s64 s.step := by
  simp only [cursorAt]; push_cast; ring

theorem cursorAt_ge {s : State} (hs : 0 ≤ s64 s.step) (j : Nat) : minInt ≤ cursorAt j s := by
  have h := minInt_le_s64 s.cursor
  have : 0 ≤ (j : Int) * s64 s.step := by positivity
  unfold cursorAt; omega

theorem cursorPast_mono {s : State} (hs : 0 ≤ s64 s.step) {i j : Nat} (hij : i ≤ j) (h : CursorPast i s) :
    CursorPast j s := by
  rcases h with h | h
  · exact .inl h
  · refine .inr ?_
    have : (i : Int) * s64 s.step ≤ j * s64 s.step := by
      have : (i : Int) ≤ j := by exact_mod_cast hij
      nlinarith
    unfold cursorAt at *; omega

theorem s64_cursorBy {s : State} (hs : 0 ≤ s64 s.step) {j : Nat} (h : ¬ CursorPast j s) (o : List Int) :
    s64 (cursorBy j o s).cursor = cursorAt j s :=
  s64_wrap64 (cursorAt_ge hs j) (by by_contra hc; exact h (.inr (by omega)))

/-- One advance of the cursor (R142). -/
theorem advanceCursor_cursorBy {s : State} (hs : 0 ≤ s64 s.step) (j : Nat) (o : List Int) :
    advanceCursor (cursorBy j o s) = cursorBy (j + 1) o s := by
  have e1 : wrap64 (s64 (wrap64 (cursorAt j s)) + s64 s.step) = wrap64 (cursorAt (j + 1) s) := by
    rw [wrap64_s64_wrap64_add, cursorAt_succ]
  have e2 : (decide (CursorPast j s) || decide (maxInt < s64 (wrap64 (cursorAt j s)) + s64 s.step)) =
      decide (CursorPast (j + 1) s) := by
    by_cases h : CursorPast j s
    · have h2 := cursorPast_mono hs (Nat.le_succ j) h
      simp only [decide_eq_true h, decide_eq_true h2, Bool.true_or]
    · have h3 : s64 (wrap64 (cursorAt j s)) = cursorAt j s := s64_cursorBy hs h []
      have h4 : ¬ s.cursorOvf = true := fun h' => h (.inl h')
      rw [h3, ← cursorAt_succ, decide_eq_false h, Bool.false_or]
      exact decide_eq_decide.2 ⟨fun h' => .inr h', fun h' => h'.resolve_left h4⟩
  unfold advanceCursor
  simp only [cadd_fst, cadd_snd]
  show ({ s with cursor := _, cursorOvf := _, vals := _ } : State) = _
  unfold cursorBy
  rw [← e1, ← e2]

theorem emit_cursorBy {s : State} (hs : 0 ≤ s64 s.step) {j : Nat} (h : ¬ CursorPast j s) (o : List Int) :
    emit (s64 (cursorBy j o s).cursor) (cursorBy j o s) = cursorBy j (o ++ [cursorAt j s]) s := by
  rw [s64_cursorBy hs h]
  simp [emit, cursorBy]

/-- The bits from `j` on, when every matching one stands for a value up to `MAX` (R142). -/
theorem listBits_all (b : Byte) {s : State} (hs : 0 ≤ s64 s.step) (m : Nat) :
    ∀ (j n : Nat) (o : List Int), (∀ i ∈ matchingBits b (List.range' j m) s, ¬ CursorPast i s) →
      listBits b (List.range' j m) n (cursorBy j o s) =
        ⟨n + (matchingBits b (List.range' j m) s).length, none,
          cursorBy (j + m) (o ++ (matchingBits b (List.range' j m) s).map fun i => cursorAt i s) s⟩ := by
  induction m with
  | zero => intro j n o _; simp [matchingBits, listBits]
  | succ m ih =>
    intro j n o h
    rw [List.range'_succ, listBits]
    unfold matchingBits at h ⊢
    rw [List.range'_succ, List.filter_cons] at h
    rw [List.filter_cons]
    by_cases hm : bitMatches s.pol (bitOf b j) = true
    · rw [if_pos hm] at h ⊢
      have hj : ¬ CursorPast j s := h j (by simp)
      rw [if_pos (show bitMatches (cursorBy j o s).pol (bitOf b j) = true from hm),
        if_neg (show ¬ (cursorBy j o s).cursorOvf = true by simpa [cursorBy] using hj), emit_cursorBy hs hj,
        advanceCursor_cursorBy hs, ih (j + 1) _ _ fun i hi => h i (by simp [matchingBits] at hi ⊢; tauto)]
      simp [matchingBits, Nat.add_assoc, Nat.add_comm 1]
    · rw [if_neg hm] at h ⊢
      rw [if_neg (show ¬ bitMatches (cursorBy j o s).pol (bitOf b j) = true from hm),
        advanceCursor_cursorBy hs, ih (j + 1) _ _ h]
      simp [matchingBits, Nat.add_assoc, Nat.add_comm 1]

/-- The bits from `j` on, up to the first matching one past `MAX` (R142, R147). -/
theorem listBits_fault (b : Byte) {s : State} (hs : 0 ≤ s64 s.step) (m : Nat) :
    ∀ (j d n : Nat) (o : List Int), d < m → bitMatches s.pol (bitOf b (j + d)) = true →
      CursorPast (j + d) s → (∀ i ∈ matchingBits b (List.range' j d) s, ¬ CursorPast i s) →
      listBits b (List.range' j m) n (cursorBy j o s) =
        ⟨n + (matchingBits b (List.range' j d) s).length, some (j + d),
          cursorBy (j + d) (o ++ (matchingBits b (List.range' j d) s).map fun i => cursorAt i s) s⟩ := by
  induction m with
  | zero => intro j d n o hd; omega
  | succ m ih =>
    intro j d n o hd hm hp h
    rw [List.range'_succ, listBits]
    cases d with
    | zero =>
      rw [if_pos (show bitMatches (cursorBy j o s).pol (bitOf b j) = true from hm),
        if_pos (show (cursorBy j o s).cursorOvf = true by simpa [cursorBy] using hp)]
      simp [matchingBits]
    | succ d =>
      unfold matchingBits at h ⊢
      rw [List.range'_succ, List.filter_cons] at h ⊢
      have hm' : bitMatches s.pol (bitOf b (j + 1 + d)) = true := by rwa [show j + 1 + d = j + (d + 1) by omega]
      have hp' : CursorPast (j + 1 + d) s := by rwa [show j + 1 + d = j + (d + 1) by omega]
      by_cases hb : bitMatches s.pol (bitOf b j) = true
      · rw [if_pos hb] at h ⊢
        have hj : ¬ CursorPast j s := h j (by simp)
        rw [if_pos (show bitMatches (cursorBy j o s).pol (bitOf b j) = true from hb),
          if_neg (show ¬ (cursorBy j o s).cursorOvf = true by simpa [cursorBy] using hj), emit_cursorBy hs hj,
          advanceCursor_cursorBy hs,
          ih (j + 1) d _ _ (by omega) hm' hp' fun i hi => h i (by simp [matchingBits] at hi ⊢; tauto)]
        simp [matchingBits, Nat.add_assoc, Nat.add_comm 1]
      · rw [if_neg hb] at h ⊢
        rw [if_neg (show ¬ bitMatches (cursorBy j o s).pol (bitOf b j) = true from hb),
          advanceCursor_cursorBy hs, ih (j + 1) d _ _ (by omega) hm' hp' h]
        simp [matchingBits, Nat.add_assoc, Nat.add_comm 1]

/-! ### Counts -/

theorem popcount_le (x : Byte) : popcount x ≤ 8 := by
  revert x; decide

theorem countIncrement_le (p : BitVec 2) (b : Byte) : countIncrement p b ≤ 8 := by
  have := popcount_le b
  unfold countIncrement; split
  · exact this
  · split <;> omega

/-- The 1 bits and the 0 bits of an octet are eight together (R150 (c)). -/
theorem countIncrement_add (b : Byte) : countIncrement 0 b + countIncrement 1 b = 8 := by
  have := popcount_le b
  simp [countIncrement]; omega

/-- The table counts the matching bits (R143, R144). -/
theorem countIncrement_eq_length {p : BitVec 2} (hp : p = 0 ∨ p = 1) (b : Byte) :
    countIncrement p b = ((List.range 8).filter fun j => bitMatches p (bitOf b j)).length := by
  rcases hp with rfl | rfl <;> revert b <;> decide

end Sys2Proof.Machine
end

