-- ==== Sys2Proof/Laws/Frames.lean ====
section
/-! SUPPORT. What the two loops and the tail leave alone in every state, reachable or not: the flush loop moves
the window and the sink's side (R122), the loop over bits moves the cursor and the value stream (R142). -/

namespace Sys2Proof.Machine

/-- The window registers set to given contents. -/
def withWindow (b y : Word) (o : Bool) (s : State) : State := { s with bottom := b, beyond := y, beyondOvf := o }

/-- The cursor set to given contents, with more values emitted. -/
def withCursor (c : Word) (o : Bool) (v : List Int) (s : State) : State :=
  { s with cursor := c, cursorOvf := o, vals := s.vals ++ v }

/-- Whatever the state, the flush loop changes the window and the sink's side alone, and `OUT` only grows. -/
theorem flushLoop_frame (v : Int) (fuel : Nat) :
    ∀ (k : Nat) (s : State), ∃ (b y : Word) (f : Bool) (a : List SinkAnswer) (d : Nat) (o : List Byte),
      (flushLoop v fuel k s).st = withSink a d (s.out ++ o) (withWindow b y f s) := by
  induction fuel with
  | zero => exact fun k s => ⟨s.bottom, s.beyond, s.beyondOvf, s.sinkAnswers, s.draws, [], by simp [flushLoop]; rfl⟩
  | succ fuel ih =>
    intro k s
    rw [flushLoop]
    split
    · obtain ⟨ok, a, d, o, h, _⟩ := sinkWrite_cases (flushBurst k s) s
      rw [h]
      cases ok with
      | false => exact ⟨s.bottom, s.beyond, s.beyondOvf, a, d, o, rfl⟩
      | true =>
        obtain ⟨b, y, f, a', d', o', h'⟩ := ih (k + 1) (advanceWindow (withSink a d (s.out ++ o) s))
        refine ⟨b, y, f, a', d', o ++ o', ?_⟩
        simp only
        rw [h', advanceWindow_withSink]
        simp [withSink, withWindow, advanceWindow]
    · exact ⟨s.bottom, s.beyond, s.beyondOvf, s.sinkAnswers, s.draws, [], by simp; rfl⟩

/-- Everything `ENC_PUSH` of an accepted value can answer with, in every state: a fault or the bit set, after a
flush loop that is within `flushLoop_frame`. -/
theorem pushAccepted_next {v : Int} {s t : State} (h : pushAccepted v s = .next t) :
    ∃ (b y : Word) (f : Bool) (a : List SinkAnswer) (d : Nat) (o : List Byte) (m : Memory),
      (∃ c i, (c = .ioWrite ∨ c = .invariant) ∧
        t = raise c i { withSink a d (s.out ++ o) (withWindow b y f s) with buf := m }) ∨
      ∃ p, t = respond .ok p 0 { withSink a d (s.out ++ o) (withWindow b y f s) with buf := m } := by
  unfold pushAccepted at h
  obtain ⟨b, y, f, a, d, o, he⟩ := flushLoop_frame v (flushFuel v s) 0 s
  simp only at h
  rw [he] at h
  split at h
  · cases h
    exact ⟨b, y, f, a, d, o, s.buf, .inl ⟨_, _, .inl rfl, rfl⟩⟩
  · unfold placeBit at h
    have hr : ∀ (k : Nat) (u : State), resetAfterFlush k u = { u with buf := (resetAfterFlush k u).buf } := by
      intro k u; unfold resetAfterFlush; split <;> rfl
    simp only at h
    rw [hr] at h
    split at h
    · cases h
    · split at h
      · cases h
        exact ⟨b, y, f, a, d, o, _, .inl ⟨_, _, .inr rfl, rfl⟩⟩
      · cases h
        exact ⟨b, y, f, a, d, o, _, .inr ⟨_, rfl⟩⟩

/-- Whatever the state, the tail changes the sink's side, then closes the stream or takes the fault (R126). -/
theorem writeTail_next (n : Nat) (s : State) :
    ∃ (a : List SinkAnswer) (d : Nat) (o : List Byte),
      writeTail n s = raise .ioWrite n (withSink a d (s.out ++ o) s) ∨
      ∃ p, writeTail n s = closeStream p (withSink a d (s.out ++ o) s) := by
  unfold writeTail
  split
  · exact ⟨s.sinkAnswers, s.draws, [], .inr ⟨0, by simp [withSink_self]⟩⟩
  · obtain ⟨ok, a, d, o, h, _⟩ := sinkWrite_cases (s.buf.readFront n) s
    rw [h]
    cases ok with
    | false => exact ⟨a, d, o, .inl rfl⟩
    | true => exact ⟨a, d, o, .inr ⟨_, rfl⟩⟩

/-- Whatever the state, the loop over the bits changes the cursor and appends to the value stream. -/
theorem listBits_frame (b : Byte) (js : List Nat) :
    ∀ (n : Nat) (s : State), ∃ (c : Word) (o : Bool) (v : List Int),
      (listBits b js n s).st = withCursor c o v s := by
  induction js with
  | nil => exact fun n s => ⟨s.cursor, s.cursorOvf, [], by simp [listBits, withCursor]⟩
  | cons j js ih =>
    intro n s
    rw [listBits]
    split
    · split
      · exact ⟨s.cursor, s.cursorOvf, [], by simp [withCursor]⟩
      · obtain ⟨c, o, v, h⟩ := ih (n + 1) (advanceCursor (emit (s64 s.cursor) s))
        exact ⟨c, o, s64 s.cursor :: v, by rw [h]; simp [withCursor, advanceCursor, emit]⟩
    · obtain ⟨c, o, v, h⟩ := ih n (advanceCursor s)
      exact ⟨c, o, v, by rw [h]; simp [withCursor, advanceCursor]⟩

/-- Whatever the state, an octet in list mode moves the cursor and the value stream, then answers or faults. -/
theorem scanByteList_next (b : Byte) (s : State) :
    ∃ (c : Word) (o : Bool) (v : List Int),
      (∃ i, scanByteList b s = raise .arith i (withCursor c o v s)) ∨
      ∃ p, scanByteList b s = respond .ok p 0 (withCursor c o v s) := by
  obtain ⟨c, o, v, h⟩ := listBits_frame b (List.range 8) 0 s
  refine ⟨c, o, v, ?_⟩
  unfold scanByteList
  simp only
  rw [h]
  split
  · exact .inl ⟨_, rfl⟩
  · exact .inr ⟨_, rfl⟩

end Sys2Proof.Machine
end

