-- ==== Sys2Proof/Laws/Push.lean ====
section
/-! SUPPORT. `ENC_PUSH` of an accepted value: what the guard can do, the index of the value in its window
(R125, R128), and everything the command can do after the guard. -/

namespace Sys2Proof.Machine

theorem EncInv.pair {s : State} (h : EncInv s) : WindowPair s := ⟨h.beyond, h.overflow⟩

/-! ### The guard -/

/-- An accepted value passes the guard, which writes `PREV` and `PREV_VALID` alone (R115). -/
theorem guardValue_accepted {v : Word} {s : State} (hs : 0 < s64 s.step) (ha : Accepted v s) :
    guardValue v s = .accept (acceptValue v s) := by
  obtain ⟨h1, h2, h3⟩ := ha
  unfold guardValue
  rw [if_neg (by rintro ⟨hp, hl⟩; have := h1 hp; omega), if_neg (by rintro ⟨hp, hl⟩; have := h1 hp; omega),
    toIndex_of_pos hs, if_neg (by omega), if_neg (by omega)]

/-- Everything the guard can do for a positive step (R110). -/
theorem guardValue_cases {v : Word} {s : State} (hs : 0 < s64 s.step) :
    (∃ st, guardValue v s = .skip st) ∨ (Accepted v s ∧ guardValue v s = .accept (acceptValue v s)) := by
  by_cases ha : Accepted v s
  · exact .inr ⟨ha, guardValue_accepted hs ha⟩
  · refine .inl ?_
    unfold guardValue
    split
    · exact ⟨_, rfl⟩
    · split
      · exact ⟨_, rfl⟩
      · rw [toIndex_of_pos hs]
        next h1 h2 =>
        by_cases h3 : s64 v < s64 s.start
        · rw [if_pos h3]; exact ⟨_, rfl⟩
        · rw [if_neg h3]
          by_cases h4 : (s64 v - s64 s.start) % s64 s.step = 0
          · refine absurd ⟨fun hp => ?_, by omega, h4⟩ ha
            have h1' : ¬ s64 v < s64 s.prev := fun h => h1 ⟨hp, h⟩
            have h2' : ¬ s64 v = s64 s.prev := fun h => h2 ⟨hp, h⟩
            omega
          · rw [if_pos h4]; exact ⟨_, rfl⟩

/-- Whatever the step, the guard answers a disposition, accepts by `acceptValue`, or stops. -/
theorem guardValue_any (v : Word) (s : State) :
    (∃ st, guardValue v s = .skip st) ∨ guardValue v s = .accept (acceptValue v s) ∨
      guardValue v s = .undefined := by
  unfold guardValue
  split
  · exact .inl ⟨_, rfl⟩
  · split
    · exact .inl ⟨_, rfl⟩
    · rcases toIndex s.start s.step v with _ | _ | _ | i
      · exact .inr (.inr rfl)
      · exact .inl ⟨_, rfl⟩
      · exact .inl ⟨_, rfl⟩
      · exact .inr (.inl rfl)

/-- The live window starts at or below every accepted value (R128 (a)). -/
theorem EncInv.bottom_le {v : Word} {s : State} (h : EncInv s) (ha : Accepted v s) :
    s64 s.bottom ≤ s64 v := by
  cases hp : s.prevValid with
  | true => have h1 := h.prevLow hp; have h2 := ha.1 hp; omega
  | false => rw [(h.noneYet hp).2]; exact ha.2.1

/-! ### The index in the window -/

theorem span_eq (s : State) : span s = (8 * s.cfg.bufSize : Nat) * s64 s.step := by
  unfold span; push_cast; ring

/-- R125, R128 (c): a value below the window's end has its index below `8*B`. -/
theorem windowIndex_lt {v : Int} {s : State} (hs : 0 < s64 s.step) (hb : s64 s.bottom ≤ v)
    (hv : v < s64 s.bottom + span s) : windowIndex v s < 8 * s.cfg.bufSize := by
  have h1 : (v - s64 s.bottom) / s64 s.step < (8 * s.cfg.bufSize : Nat) := by
    rw [span_eq] at hv
    exact Int.ediv_lt_of_lt_mul hs (by omega)
  have h2 : 0 ≤ (v - s64 s.bottom) / s64 s.step := Int.ediv_nonneg (by omega) (by omega)
  unfold windowIndex
  omega

/-- Steps (3) to (6) for a value of the window (R123 to R125). -/
theorem placeBit_eq {v : Int} {s : State} (k : Nat) (hs : 0 < s64 s.step) (hb : s64 s.bottom ≤ v)
    (hv : v < s64 s.bottom + span s) :
    placeBit v k s = .next (respond .ok (BitVec.ofNat 64 k) 0
      { s with buf := (resetAfterFlush k s).buf.setBit (windowIndex v s / 8) (windowIndex v s % 8) }) := by
  have hi := windowIndex_lt hs hb hv
  unfold placeBit
  simp only [resetAfterFlush_bottom, resetAfterFlush_step, resetAfterFlush_cfg]
  rw [quotRem_of (by omega) hs]
  simp only
  rw [if_neg (by unfold windowIndex at hi; omega)]
  congr 2
  unfold resetAfterFlush windowIndex split
  split <;> rfl

/-! ### The command after the guard -/

theorem windowBy_acceptValue (v : Word) (m : Nat) (s : State) :
    windowBy m (acceptValue v s) = acceptValue v (windowBy m s) := rfl

/-- Everything `ENC_PUSH` can do with an accepted value, whoever answers its bursts: the `IO_WRITE` fault short
of the value's window, or its bit set in that window. The window has moved by `m` windows. -/
theorem pushAccepted_cases {v : Word} {s : State} (h : WindowPair s) (hc : s.cfg.Legal)
    (hs : 1 ≤ s64 s.step) (hb : s64 s.bottom ≤ s64 v) :
    ∃ (m : Nat) (a : List SinkAnswer) (d : Nat) (o : List Byte),
      (m < windowsAbove (s64 v) s ∧ pushAccepted (s64 v) (acceptValue v s) =
        .next (raise .ioWrite s.cfg.bufSize
          (withSink a d (s.out ++ o) (acceptValue v (windowBy m s))))) ∨
      (m = windowsAbove (s64 v) s ∧ pushAccepted (s64 v) (acceptValue v s) =
        placeBit (s64 v) m (withSink a d (s.out ++ o) (acceptValue v (windowBy m s)))) := by
  have hsp : 0 < span s := by have := span_pos hc hs; omega
  have hv := s64_le_maxInt v
  obtain ⟨m, f, a, d, o, h1, h2, h3⟩ :=
    flushLoop_cases hv (flushFuel (s64 v) (acceptValue v s)) (acceptValue v s) 0 h hsp hb
      (windowsAbove_le_fuel h hsp hv hb)
  refine ⟨m, a, d, o, ?_⟩
  unfold pushAccepted
  rw [h1]
  cases f with
  | true => exact .inl ⟨h3 rfl, rfl⟩
  | false =>
    refine .inr ⟨h2 rfl, ?_⟩
    simp only [Nat.zero_add]
    rfl

/-- `ENC_PUSH` of an accepted value when the sink answers `ok` to every burst (R121, R128, R131). -/
theorem pushAccepted_all {v : Word} {s : State} {rest : List SinkAnswer} (h : WindowPair s)
    (hc : s.cfg.Legal) (hs : 1 ≤ s64 s.step) (hb : s64 s.bottom ≤ s64 v)
    (ha : s.sinkAnswers = List.replicate (windowsAbove (s64 v) s) .ok ++ rest) :
    pushAccepted (s64 v) (acceptValue v s) =
      placeBit (s64 v) (windowsAbove (s64 v) s)
        (withSink rest s.draws (s.out ++ flushedOctets (windowsAbove (s64 v) s) s)
          (acceptValue v (windowBy (windowsAbove (s64 v) s) s))) := by
  have hsp : 0 < span s := by have := span_pos hc hs; omega
  have h1 := flushLoop_all (s := acceptValue v s) (rest := rest) h hsp (s64_le_maxInt v) hb ha
  unfold pushAccepted
  rw [h1]
  rfl

/-- The window of the value, once the loop has reached it (R128 (c)). -/
theorem windowBy_reached {v : Word} {s : State} (hc : s.cfg.Legal) (hs : 1 ≤ s64 s.step)
    (hb : s64 s.bottom ≤ s64 v) :
    s64 (windowBy (windowsAbove (s64 v) s) s).bottom = s64 s.bottom + windowsAbove (s64 v) s * span s ∧
      WindowPair (windowBy (windowsAbove (s64 v) s) s) ∧
      s64 (windowBy (windowsAbove (s64 v) s) s).bottom ≤ s64 v ∧
      s64 v < s64 (windowBy (windowsAbove (s64 v) s) s).bottom + span s := by
  have hsp : 0 < span s := by have := span_pos hc hs; omega
  have hw := windowsAbove_bounds hsp hb
  have hq := windowBy_pair (windowsAbove (s64 v) s) hsp (s64_le_maxInt v) hw.1
  refine ⟨hq.1, hq.2, by rw [hq.1]; exact hw.1, ?_⟩
  have := hw.2
  rw [hq.1]
  push_cast at this
  linarith

end Sys2Proof.Machine
end

