-- ==== Sys2Proof/Laws/Inv.lean ====
section
/-! SUPPORT. How states meet the invariant of R39: it depends on the block's own fields alone, and outside the
two streams it says little. -/

namespace Sys2Proof.Machine

/-- The invariant does not depend on the environment's side, nor on `COUNT`. -/
theorem inv_of_frame {s t : State} (h : Inv s) (h1 : t.cfg = s.cfg) (h2 : t.start = s.start)
    (h3 : t.step = s.step) (h4 : t.bottom = s.bottom) (h5 : t.beyond = s.beyond) (h6 : t.prev = s.prev)
    (h7 : t.cursor = s.cursor) (h8 : t.startSet = s.startSet) (h9 : t.stepSet = s.stepSet)
    (h10 : t.prevValid = s.prevValid) (h11 : t.beyondOvf = s.beyondOvf) (h12 : t.cursorOvf = s.cursorOvf)
    (h13 : t.pol = s.pol) (h14 : t.control = s.control) (h15 : t.fcode = s.fcode) (h16 : t.finfo = s.finfo)
    (h17 : t.buf = s.buf) : Inv t := by
  cases s; cases t; simp only at *; subst_vars
  exact ⟨h.capacity, h.bufWf, h.bufBound, h.stepPositive,
    fun hc => let e := h.enc hc
      ⟨e.configured, e.fill, e.window, e.overflow, e.beyond, e.prevLow, e.prevGrid, e.prevHigh, e.noneYet,
        e.prevBit, e.highest⟩,
    fun hc => let e := h.list hc; ⟨e.configured, e.polarity, e.cursor⟩,
    h.polarity, h.faultCode, h.faultCodes, h.faultInfo⟩

theorem Inv.respond {s : State} (h : Inv s) (st : Status) (p : Word) (q : Byte) : Inv (respond st p q s) :=
  inv_of_frame h rfl rfl rfl rfl rfl rfl rfl rfl rfl rfl rfl rfl rfl rfl rfl rfl rfl

theorem Inv.withPort {s : State} (h : Inv s) (p : List PortEvent) : Inv { s with port := p } :=
  inv_of_frame h rfl rfl rfl rfl rfl rfl rfl rfl rfl rfl rfl rfl rfl rfl rfl rfl rfl

/-- Outside an encode stream and a list scan the invariant is what is left of it. -/
theorem inv_quiet {s : State} (h1 : s.cfg.Legal) (h2 : s.buf.wf) (h3 : ∀ c ∈ s.buf.cells, c.1 < s.cfg.bufSize)
    (h4 : s.stepSet = true → 1 ≤ s64 s.step) (h5 : s.pol.toNat ≤ 2) (he : s.control ≠ .enc)
    (hl : s.control ≠ .list) (h6 : s.control = .fault ↔ s.fcode ≠ 0) (h7 : s.fcode.toNat ≤ 4)
    (h8 : s.fcode = 0 → s.finfo = 0) : Inv s :=
  ⟨h1, h2, h3, h4, fun h => absurd h he, fun h => absurd h hl, h5, h6, h7, h8⟩

/-- Taking a fault leads to a state of the invariant (R183). -/
theorem inv_raise {s : State} (f : FaultCause) (info : Int) (h1 : s.cfg.Legal) (h2 : s.buf.wf)
    (h3 : ∀ c ∈ s.buf.cells, c.1 < s.cfg.bufSize) (h4 : s.stepSet = true → 1 ≤ s64 s.step)
    (h5 : s.pol.toNat ≤ 2) : Inv (raise f info s) := by
  refine inv_quiet h1 h2 h3 h4 h5 (by simp) (by simp) ?_ ?_ ?_ <;> cases f <;> simp [FaultCause.code]

/-- Both resets lead to a state of the invariant (R38). -/
theorem inv_resetBlock {s : State} (h : s.cfg.Legal) : Inv (resetBlock s) :=
  inv_quiet h (Memory.unspecified_wf _) (by simp) (by simp) (by simp) (by simp) (by simp) (by simp) (by simp)
    (by simp)

/-- Outside `FAULT` no fault is recorded (R39 (g)). -/
theorem Inv.fcode_zero {s : State} (h : Inv s) (hc : s.control ≠ .fault) : s.fcode = 0 :=
  not_not.1 fun hh => hc (h.faultCode.2 hh)

theorem Inv.step_pos {s : State} (h : Inv s) (hc : s.control = .enc) : 1 ≤ s64 s.step :=
  h.stepPositive (h.enc hc).configured.2

/-- What the loop over the bits leaves, for a positive step: the cursor some bits further on (R142). -/
theorem listBits_cursorBy (b : Byte) {s : State} (hs : 0 ≤ s64 s.step) :
    ∃ (j n : Nat) (fb : Option Nat) (o : List Int), listBits b (List.range 8) 0 s = ⟨n, fb, cursorBy j o s⟩ := by
  by_cases h : ∃ j, j < 8 ∧ bitMatches s.pol (bitOf b j) = true ∧ CursorPast j s
  · have hmin := fun i (hi : i < Nat.find h) => Nat.find_min h hi
    obtain ⟨h1, h2, h3⟩ := Nat.find_spec h
    have := listBits_fault b hs 8 0 (Nat.find h) 0 [] h1 (by simpa using h2) (by rwa [Nat.zero_add])
      (fun i hi => by
        simp only [matchingBits, List.mem_filter, List.mem_range'_1] at hi
        exact fun hp => hmin i (by omega) ⟨by omega, hi.2, hp⟩)
    rw [cursorBy_zero, ← List.range_eq_range'] at this
    exact ⟨_, _, _, _, this⟩
  · have := listBits_all b hs 8 0 0 [] (fun i hi => by
      simp only [matchingBits, List.mem_filter, List.mem_range'_1] at hi
      exact fun hp => h ⟨i, by omega, hi.2, hp⟩)
    rw [cursorBy_zero, ← List.range_eq_range'] at this
    exact ⟨_, _, _, _, this⟩

/-- The scan's part of the invariant stays when the cursor moves on (R26). -/
theorem ListInv.cursorBy {s : State} (h : ListInv s) (j : Nat) (o : List Int) (hs : 0 ≤ s64 s.step) :
    ListInv (cursorBy j o s) := by
  obtain ⟨n, h1, h2⟩ := h.cursor
  have hj : 0 ≤ (j : Int) * s64 s.step := by positivity
  have hn : 0 ≤ (n : Int) * s64 s.step := by positivity
  have e : s64 s.start + (n + j : Nat) * s64 s.step = s64 s.start + n * s64 s.step + j * s64 s.step := by
    push_cast; ring
  refine ⟨h.configured, h.polarity, n + j, ?_, ?_⟩
  · show wrap64 (s64 s.cursor + j * s64 s.step) = wrap64 (s64 s.start + (n + j : Nat) * s64 s.step)
    rw [h1, wrap64_s64_wrap64_add, e]
  · show decide (CursorPast j s) = decide (maxInt < s64 s.start + (n + j : Nat) * s64 s.step)
    rw [e]
    refine decide_eq_decide.2 ?_
    unfold CursorPast cursorAt
    rw [h2]
    by_cases ho : maxInt < s64 s.start + n * s64 s.step
    · simp [ho]; omega
    · rw [h1, s64_wrap64 (by have := minInt_le_s64 s.start; omega) (by omega)]; simp [ho]

end Sys2Proof.Machine
end

