-- ==== Sys2Proof/Laws/PerInstr.lean ====
section
/-! SUPPORT. A fact of every command as syntax, one lemma per constructor: its word is well-formed by the
match and mask columns of the opcode table (R73, R74). -/

namespace Sys2Proof.Laws.WordForm

/-- The word of the command meets its row of the opcode table. -/
def Statement (i : Instr) : Prop := wordWellFormed (encode i) = true

/-- The rows as command words, so that they can be compared field by field. -/
theorem opcodeTable_eq :
    opcodeTable =
      [ ⟨commandWord 0x01 0, commandWord 0xFF 0⟩, ⟨commandWord 0x02 0, commandWord 0xFF 0⟩
      , ⟨commandWord 0x03 0, commandWord 0xFF 0⟩
      , ⟨commandWord 0x04 0, commandWord 0xFF (BitVec.allOnes 64)⟩
      , ⟨commandWord 0x05 0, commandWord 0xFF (BitVec.allOnes 64)⟩
      , ⟨commandWord 0x10 0, commandWord 0xFF 0⟩, ⟨commandWord 0x11 0, commandWord 0xFF 0⟩
      , ⟨commandWord 0x12 0, commandWord 0xFF 0⟩
      , ⟨commandWord 0x20 0, commandWord 0xFF (BitVec.allOnes 64)⟩
      , ⟨commandWord 0x21 0, commandWord 0xFF 0⟩
      , ⟨commandWord 0x22 0, commandWord 0xFF (BitVec.allOnes 64)⟩
      , ⟨commandWord 0x30 0, commandWord 0xFF 0xFFFFFFFFFFFFFFFC⟩
      , ⟨commandWord 0x31 0, commandWord 0xFF 0xFFFFFFFFFFFFFFFC⟩
      , ⟨commandWord 0x32 0, commandWord 0xFF 0xFFFFFFFFFFFFFF00⟩
      , ⟨commandWord 0x33 0, commandWord 0xFF (BitVec.allOnes 64)⟩ ] := by decide

/-- When a word is well-formed, by its two fields (R74). -/
theorem wellFormed_commandWord (op : Byte) (x : Word) :
    wordWellFormed (commandWord op x) =
      (op == 0x01 || op == 0x02 || op == 0x03 || (op == 0x04 && x == 0) || (op == 0x05 && x == 0)
        || op == 0x10 || op == 0x11 || op == 0x12 || (op == 0x20 && x == 0) || op == 0x21
        || (op == 0x22 && x == 0) || (op == 0x30 && x &&& 0xFFFFFFFFFFFFFFFC == 0)
        || (op == 0x31 && x &&& 0xFFFFFFFFFFFFFFFC == 0)
        || (op == 0x32 && x &&& 0xFFFFFFFFFFFFFF00 == 0) || (op == 0x33 && x == 0)) := by
  have hff : op &&& 0xFF = op := by revert op; decide
  have h0 : x &&& (0 : Word) = 0 := BitVec.and_zero
  simp only [wordWellFormed, opcodeTable_eq, List.any_cons, List.any_nil, row_commandWord, hff, h0,
    BitVec.and_allOnes, beq_self_eq_true, Bool.and_true, Bool.or_false, Bool.or_assoc]

theorem setStart (v : Word) : Statement (.setStart v) := by
  rw [Statement, encode, wellFormed_commandWord]; simp

theorem setStep (v : Word) : Statement (.setStep v) := by
  rw [Statement, encode, wellFormed_commandWord]; simp

theorem regRd (r : Word) : Statement (.regRd r) := by
  rw [Statement, encode, wellFormed_commandWord]; simp

theorem reset : Statement .reset := by
  rw [Statement, encode, wellFormed_commandWord]; simp

theorem srcErr : Statement .srcErr := by
  rw [Statement, encode, wellFormed_commandWord]; simp

theorem mapToIndex (v : Word) : Statement (.mapToIndex v) := by
  rw [Statement, encode, wellFormed_commandWord]; simp

theorem mapToValue (i : Word) : Statement (.mapToValue i) := by
  rw [Statement, encode, wellFormed_commandWord]; simp

theorem mapSplit (i : Word) : Statement (.mapSplit i) := by
  rw [Statement, encode, wellFormed_commandWord]; simp

theorem encBegin : Statement .encBegin := by
  rw [Statement, encode, wellFormed_commandWord]; simp

theorem encPush (v : Word) : Statement (.encPush v) := by
  rw [Statement, encode, wellFormed_commandWord]; simp

theorem encEnd : Statement .encEnd := by
  rw [Statement, encode, wellFormed_commandWord]; simp

theorem scanBeginList (p : BitVec 2) : Statement (.scanBeginList p) := by
  rw [Statement, encode, wellFormed_commandWord]; revert p; decide

theorem scanBeginCount (p : BitVec 2) : Statement (.scanBeginCount p) := by
  rw [Statement, encode, wellFormed_commandWord]; revert p; decide

theorem scanByte (b : Byte) : Statement (.scanByte b) := by
  rw [Statement, encode, wellFormed_commandWord,
    (extractLsb'_eq_zero_iff rfl octetMask_bits _).1 (setWidth_fields 0 b).2.2.2]; simp

theorem scanEnd : Statement .scanEnd := by
  rw [Statement, encode, wellFormed_commandWord]; simp

end Sys2Proof.Laws.WordForm
end

