-- ==== Sys2Proof/Machine/Assembler.lean ====
section
/-! DEFINITION. The text of commands: the assembler syntax (R77) and the three pseudo-instructions (R78). The
block never sees it; it says which command words a host's line stands for. -/

namespace Sys2Proof.Machine

/-- Why a line is no command: "an assembly error, not a command" (R77). -/
inductive AsmError where
  /-- the first word is none of the mnemonics of R73 and R78 -/
  | unknownMnemonic
  /-- more or fewer operands than the format takes -/
  | operandCount
  /-- the operand is no number and no polarity word -/
  | notANumber
  /-- the operand is outside its format's range -/
  | outOfRange
  deriving DecidableEq, Repr

/-! ### Numbers -/

/-- The decimal digits, each at the place of its value. -/
def decimalDigits : List Char := "0123456789".toList

/-- The hexadecimal digits, each at the place of its value; a digit may be written in either case (log
entry 11). -/
def hexDigits : List Char := decimalDigits ++ "ABCDEF".toList

/-- The number that `cs` stands for in the base whose digits are `digits`, the highest first; none if `cs` is
empty or holds another character. The number of digits is not limited (log entry 11). -/
def readNumber (digits : List Char) (cs : List Char) : Option Nat :=
  match cs.mapM fun c => digits.idxOf? c.toUpper with
  | none | some [] => none
  | some values => some (values.foldl (fun total value => digits.length * total + value) 0)

/-- The operand word of a decimal number (R77). -/
def decimalWord (f : Format) (n : Option Int) : Except AsmError Word :=
  match n with
  | none => .error .notANumber
  | some n => if f.inRange n then .ok (wrap64 n) else .error .outOfRange

/-- Whether a raw hexadecimal word is an operand word of the format: every word for V, U and R, the words whose
must-be-zero bits are 0 for O and P (log entry 11). -/
def rawWordOk (f : Format) (n : Nat) : Bool :=
  match f with
  | .v | .u | .r => n < 2 ^ 64
  | .z | .o | .p => f.inRange n

/-- The operand word of a hexadecimal number: "always the raw operand word" (R77). -/
def hexWord (f : Format) (n : Option Nat) : Except AsmError Word :=
  match n with
  | none => .error .notANumber
  | some n => if rawWordOk f n then .ok (BitVec.ofNat 64 n) else .error .outOfRange

/-- The polarity words (R77). -/
def polarityWord (cs : List Char) : Option Word :=
  if cs = "ZERO".toList then some 0
  else if cs = "ONE".toList then some 1
  else if cs = "ANY".toList then some 2
  else none

/-- A written number, decimal or hexadecimal (R77). The model's choice, where R77 says only "a signed decimal
integer" and "a hexadecimal 64-bit word": no leading plus, no sign before `0x`, and leading zeros in any number
(log entry 11). -/
def numberWord (f : Format) (cs : List Char) : Except AsmError Word :=
  match cs with
  | '0' :: 'x' :: ds => hexWord f (readNumber hexDigits ds)
  | '-' :: ds => decimalWord f ((readNumber decimalDigits ds).map fun n => -(n : Int))
  | ds => decimalWord f ((readNumber decimalDigits ds).map fun n => (n : Int))

/-- A written operand of a format (R77). -/
def operandWord (f : Format) (cs : List Char) : Except AsmError Word :=
  match (if f = .p then polarityWord cs else none) with
  | some w => .ok w
  | none => numberWord f cs

/-! ### Lines -/

/-- Opcode and format of a mnemonic (R73). -/
def mnemonicRow (m : List Char) : Option (Byte × Format) :=
  match String.ofList m with
  | "SET_START" => some (0x01, .v)
  | "SET_STEP" => some (0x02, .v)
  | "REG_RD" => some (0x03, .r)
  | "RESET" => some (0x04, .z)
  | "SRC_ERR" => some (0x05, .z)
  | "MAP_TOINDEX" => some (0x10, .v)
  | "MAP_TOVALUE" => some (0x11, .u)
  | "MAP_SPLIT" => some (0x12, .u)
  | "ENC_BEGIN" => some (0x20, .z)
  | "ENC_PUSH" => some (0x21, .v)
  | "ENC_END" => some (0x22, .z)
  | "SCAN_BEGIN_LIST" => some (0x30, .p)
  | "SCAN_BEGIN_COUNT" => some (0x31, .p)
  | "SCAN_BYTE" => some (0x32, .o)
  | "SCAN_END" => some (0x33, .z)
  | _ => none

/-- A command of the core: its mnemonic and at most one operand (R77). -/
def assembleCommand (row : Byte × Format) (operands : List (List Char)) : Except AsmError CommandWord :=
  match row.2, operands with
  | .z, [] => .ok (commandWord row.1 0)
  | .z, _ => .error .operandCount
  | f, [x] =>
    match operandWord f x with
    | .ok w => .ok (commandWord row.1 w)
    | .error e => .error e
  | _, _ => .error .operandCount

/-- The same command for every operand of a list, in order. -/
def assembleEach (row : Byte × Format) : List (List Char) → Except AsmError (List CommandWord)
  | [] => .ok []
  | x :: xs =>
    match assembleCommand row [x], assembleEach row xs with
    | .ok w, .ok ws => .ok (w :: ws)
    | .error e, _ => .error e
    | .ok _, .error e => .error e

/-- Sequences one after the other; the first error stands. -/
def assembleAll : List (Except AsmError (List CommandWord)) → Except AsmError (List CommandWord)
  | [] => .ok []
  | .error e :: _ => .error e
  | .ok ws :: rest =>
    match assembleAll rest with
    | .ok vs => .ok (ws ++ vs)
    | .error e => .error e

/-- `ENCODE start, step, v1, ..., vn` (R78). -/
def assembleEncode (operands : List (List Char)) : Except AsmError (List CommandWord) :=
  match operands with
  | start :: step :: vs =>
    assembleAll
      [ assembleEach (0x01, .v) [start], assembleEach (0x02, .v) [step], .ok [commandWord 0x20 0]
      , assembleEach (0x21, .v) vs, .ok [commandWord 0x22 0] ]
  | _ => .error .operandCount

/-- `SCANLIST start, step, p, b1, ..., bn` (R78). -/
def assembleScanList (operands : List (List Char)) : Except AsmError (List CommandWord) :=
  match operands with
  | start :: step :: p :: bs =>
    assembleAll
      [ assembleEach (0x01, .v) [start], assembleEach (0x02, .v) [step], assembleEach (0x30, .p) [p]
      , assembleEach (0x32, .o) bs, .ok [commandWord 0x33 0] ]
  | _ => .error .operandCount

/-- `SCANCOUNT p, b1, ..., bn` (R78). -/
def assembleScanCount (operands : List (List Char)) : Except AsmError (List CommandWord) :=
  match operands with
  | p :: bs =>
    assembleAll [assembleEach (0x31, .p) [p], assembleEach (0x32, .o) bs, .ok [commandWord 0x33 0]]
  | _ => .error .operandCount

/-- The characters a line may be spaced with (log entry 11). -/
def isBlank (c : Char) : Bool := [' ', '\t', '\r', '\n'].contains c

/-- A text without blanks at its ends. -/
def trimBlanks (cs : List Char) : List Char := ((cs.dropWhile isBlank).reverse.dropWhile isBlank).reverse

/-- The pieces of a text between commas. -/
def splitCommas : List Char → List (List Char)
  | [] => [[]]
  | c :: cs =>
    if c = ',' then [] :: splitCommas cs
    else
      match splitCommas cs with
      | [] => [[c]]
      | p :: ps => (c :: p) :: ps

/-- The operands of a line: none when nothing is written. -/
def readOperands (cs : List Char) : List (List Char) :=
  if trimBlanks cs = [] then [] else (splitCommas cs).map trimBlanks

/-- The command words one line stands for: none for a line that is blank but for its comment (R77), one for a
command, the expansion for a pseudo-instruction (R78). -/
def assembleLine (line : String) : Except AsmError (List CommandWord) :=
  let text := trimBlanks (line.toList.takeWhile (· ≠ ';'))
  let mnemonic := text.takeWhile fun c => !isBlank c
  let operands := readOperands (text.dropWhile fun c => !isBlank c)
  if text = [] then .ok []
  else
    match mnemonicRow mnemonic with
    | some row => assembleAll [(assembleCommand row operands).map fun w => [w]]
    | none =>
      match String.ofList mnemonic with
      | "ENCODE" => assembleEncode operands
      | "SCANLIST" => assembleScanList operands
      | "SCANCOUNT" => assembleScanCount operands
      | _ => .error .unknownMnemonic

end Sys2Proof.Machine
end

