-- ==== Sys2Proof/Tests/Slice0.lean ====
section
/-! SUPPORT. Tests of single steps, their results taken from the spec's test vectors and rules, and for every
obligation with hypotheses a witness that meets them. -/

namespace Sys2Proof.Tests

open Sys2Proof.Machine

/-! ### Small states -/

/-- Right after reset, with `B` named. -/
def fresh (B : Nat) : State := { State.reset with cfg := ⟨B⟩ }

/-- In `IDLE` with a Progression loaded. -/
def idleWith (B : Nat) (start step : Word) : State :=
  { fresh B with start := start, step := step, startSet := true, stepSet := true }

/-- An encode stream just opened on `START = 0`, `STEP = 1`, `B = 2`: window `[0, 16)`. -/
def encOpen : State := { idleWith 2 0 1 with bottom := 0, beyond := 16, buf := .zeros, control := .enc }

/-- The same stream once it has accepted 3. -/
def encThree : State := { encOpen with prev := 3, prevValid := true, buf := ⟨.zeros, [(0, 0x08)]⟩ }

/-- Vector E6 after `MAX-1`: `START = MAX-8`, `STEP = 1`, `B = 1`. -/
def encTop : State :=
  { idleWith 1 0x7FFFFFFFFFFFFFF7 1 with
    bottom := 0x7FFFFFFFFFFFFFF7, beyond := 0x7FFFFFFFFFFFFFFF, prev := 0x7FFFFFFFFFFFFFFE, prevValid := true
    buf := ⟨.zeros, [(0, 0x80)]⟩, control := .enc }

/-- A list scan of ones at `START = MAX-2`, `STEP = 1` (vector K4). -/
def listTop : State :=
  { idleWith 2 0x7FFFFFFFFFFFFFFD 1 with cursor := 0x7FFFFFFFFFFFFFFD, pol := 1, control := .list }

/-- A count scan of ones with `COUNT = c` (vector K6). -/
def counting (c : Word) : State := { fresh 2 with control := .count, pol := 1, count := c }

/-- After a read fault. -/
def faulted : State := { idleWith 2 0 1 with control := .fault, fcode := 2 }

/-- The last response of an answer. -/
def lastResponse : Answer → Option ResponseWord
  | .next t => t.rsp.getLast?
  | .fault _ => none
  | .refused _ => none

/-- A view of the state an answer leads to. -/
def look {α : Type} (f : State → α) : Answer → Option α
  | .next t => some (f t)
  | .fault _ => none
  | .refused _ => none

/-! ### Encodings, written out from R71 and R73 -/

theorem test_decode_set_start : decode 0x01FFFFFFFFFFFFFFEC = .ok (.setStart 0xFFFFFFFFFFFFFFEC) := by decide
theorem test_decode_set_step : decode 0x020000000000000002 = .ok (.setStep 2) := by decide
theorem test_decode_reg_rd : decode 0x030000000000000003 = .ok (.regRd 3) := by decide
theorem test_decode_reset : decode 0x040000000000000000 = .ok .reset := by decide
theorem test_decode_src_err : decode 0x050000000000000000 = .ok .srcErr := by decide
theorem test_decode_map_toindex : decode 0x100000000000000005 = .ok (.mapToIndex 5) := by decide
theorem test_decode_map_tovalue : decode 0x110000000000000002 = .ok (.mapToValue 2) := by decide
theorem test_decode_map_split : decode 0x1200000000000F4243 = .ok (.mapSplit 1000003) := by decide
theorem test_decode_enc_begin : decode 0x200000000000000000 = .ok .encBegin := by decide
theorem test_decode_enc_push : decode 0x210000000000000030 = .ok (.encPush 48) := by decide
theorem test_decode_enc_end : decode 0x220000000000000000 = .ok .encEnd := by decide
theorem test_decode_scan_begin_list : decode 0x300000000000000001 = .ok (.scanBeginList 1) := by decide
theorem test_decode_scan_begin_count : decode 0x310000000000000002 = .ok (.scanBeginCount 2) := by decide
theorem test_decode_scan_byte : decode 0x3200000000000000A5 = .ok (.scanByte 0xA5) := by decide
theorem test_decode_scan_end : decode 0x330000000000000000 = .ok .scanEnd := by decide

/-- The all-zero word and opcode `0xFF` are illegal (R74). -/
theorem test_decode_unknown :
    decode 0 = .error (.unknownOpcode 0) ∧ decode 0xFF0000000000000000 = .error (.unknownOpcode 0xFF) := by decide

/-- A must-be-zero bit of each of the formats Z, P and O (R71, R74). -/
theorem test_decode_must_be_zero :
    decode 0x040000000000000001 = .error (.nonzeroMustBeZero 0x04) ∧
    decode 0x300000000000000004 = .error (.nonzeroMustBeZero 0x30) ∧
    decode 0x320000000000000100 = .error (.nonzeroMustBeZero 0x32) := by decide

/-! ### The checks of well-formedness, each with an ill-formed word or number -/

theorem test_ill_formed_words :
    wordWellFormed 0 = false ∧ wordWellFormed 0x060000000000000000 = false ∧
    wordWellFormed 0x048000000000000000 = false ∧ wordWellFormed 0x310000000000000004 = false ∧
    wordWellFormed 0x320000000000000100 = false := by decide

theorem test_out_of_range_operands :
    Format.z.inRange 0 = false ∧ Format.v.inRange (2 ^ 63) = false ∧ Format.v.inRange (-(2 ^ 63) - 1) = false ∧
    Format.u.inRange (-1) = false ∧ Format.r.inRange (2 ^ 64) = false ∧ Format.o.inRange 256 = false ∧
    Format.p.inRange 4 = false := by decide

/-! ### The host's two questions, in the kernel -/

theorem test_decode_table_word : decodeTableWord 72 0x12000000000000000F = some (.mapSplit 15) := by decide

theorem test_fetch_word_runs_first :
    lastResponse (step (State.reset.withFetchWord 72 0x120000000000000008)) =
      some 0x00000000000000000100 := by decide

/-! ### System commands -/

theorem test_set_start : look (fun t => (t.start, t.startSet)) (exec (.setStart 0xFFFFFFFFFFFFFFEC) (fresh 2)) =
    some (0xFFFFFFFFFFFFFFEC, true) := by decide

/-- Vector Y1: `SET_START` with a stream open. -/
theorem test_set_start_in_stream : lastResponse (exec (.setStart 9) encOpen) = some 0x82000000000000000000 := by decide

/-- Vector Y1: `SET_STEP -5`. -/
theorem test_set_step_negative :
    lastResponse (exec (.setStep 0xFFFFFFFFFFFFFFFB) (fresh 2)) = some 0x84000000000000000000 := by decide

/-- Vector Y4: `SET_STEP MAX`. -/
theorem test_set_step_max :
    look (fun t => (t.step, t.stepSet)) (exec (.setStep 0x7FFFFFFFFFFFFFFF) (fresh 2)) =
      some (0x7FFFFFFFFFFFFFFF, true) := by decide

/-- Vector K4: `STATUS` in list mode after the cursor has passed `MAX`. -/
theorem test_reg_rd_status :
    lastResponse (exec (.regRd 7) { listTop with cursorOvf := true }) = some 0x00000000000000033200 := by decide

/-- Vector Y1: `REG_RD 11` in `FAULT`. -/
theorem test_reg_rd_eleven : lastResponse (exec (.regRd 11) faulted) = some 0x84000000000000000000 := by decide

/-- Vector K5: `RESET` leaves `FAULT`. -/
theorem test_reset_leaves_fault :
    look (fun t => (t.control, t.fcode, t.rsp)) (exec .reset faulted) =
      some (.idle, 0, [0x00000000000000000000]) := by decide

/-- Vectors Y1 and Y2: `SRC_ERR` with a stream open, and in `IDLE`. -/
theorem test_src_err :
    look (fun t => (t.control, t.fcode, t.finfo, t.rsp)) (exec .srcErr encOpen) =
      some (.fault, 2, 0, [0xF2000000000000000000]) := by decide
theorem test_src_err_idle : lastResponse (exec .srcErr (fresh 2)) = some 0x82000000000000000000 := by decide

/-! ### IndexMapper -/

/-- Vector M2: the difference does not fit 64 signed bits. -/
theorem test_map_toindex_wide :
    lastResponse (exec (.mapToIndex 0x7FFFFFFFFFFFFFFE) (idleWith 2 0x8000000000000000 0x7FFFFFFFFFFFFFFF)) =
      some 0x00000000000000000200 := by decide

/-- R98: a value below `START` and off the grid is `BELOW_START`. -/
theorem test_map_toindex_below :
    lastResponse (exec (.mapToIndex 0xFFFFFFFFFFFFFFF5) (idleWith 2 0xFFFFFFFFFFFFFFF6 3)) =
      some 0x12000000000000000000 := by decide

/-- R99: the one Progression under which index `2^64-1` has a value. -/
theorem test_map_tovalue_max :
    lastResponse (exec (.mapToValue 0xFFFFFFFFFFFFFFFF) (idleWith 2 0x8000000000000000 1)) =
      some 0x007FFFFFFFFFFFFFFF00 := by decide

/-- R99: the first index that overflows. -/
theorem test_map_tovalue_overflow :
    lastResponse (exec (.mapToValue 3074457345618258606) (idleWith 2 0xFFFFFFFFFFFFFFF6 3)) =
      some 0x30000000000000000000 := by decide

/-- R100: octet `2^61-1`, bit 7. -/
theorem test_map_split_max :
    lastResponse (exec (.mapSplit 0xFFFFFFFFFFFFFFFF) (fresh 2)) = some 0x001FFFFFFFFFFFFFFF07 := by decide

/-! ### Value guard and BitmapEncoder -/

/-- R120: `START = MAX-100`, `STEP = 7`, `B = 2` overflows at once. -/
theorem test_enc_begin_overflow :
    look (fun t => (t.bottom, t.beyond, t.beyondOvf)) (exec .encBegin (idleWith 2 0x7FFFFFFFFFFFFF9B 7)) =
      some (0x7FFFFFFFFFFFFF9B, 0x800000000000000B, true) := by decide

/-- R120: `STATUS = 0x31` after the example, `START = 1`, `STEP = 2`, `B = 4`. -/
theorem test_enc_begin_status :
    look (fun t => (statusWord t, t.beyond)) (exec .encBegin (idleWith 4 1 2)) = some (0x31, 65) := by decide

/-- R121: `ENC_PUSH 48` after 45 on `START = 0`, `STEP = 3`, `B = 2`. -/
theorem test_enc_push_boundary :
    look (fun t => (t.out, t.bottom, t.beyond, t.buf.readFront 2, t.rsp))
      (exec (.encPush 48)
        { idleWith 2 0 3 with
          beyond := 48, prev := 45, prevValid := true, buf := ⟨.zeros, [(1, 0x80)]⟩, control := .enc
          sinkAnswers := [.ok] }) =
      some ([0x00, 0x80], 48, 96, [0x01, 0x00], [0x00000000000000000100]) := by decide

/-- Vector E9: the second burst fails after one octet. -/
theorem test_enc_push_failed_burst :
    look (fun t => ((t.out, t.bottom, t.beyond, t.prev), (t.buf.readFront 2, t.fcode, t.finfo, statusWord t)))
      (exec (.encPush 40) { encThree with sinkAnswers := [.ok, .fail 1] }) =
      some (([0x08, 0x00, 0x00], 16, 32, 40), ([0x08, 0x00], 1, 2, 0x74)) := by decide

/-- Vector S1: the tail of `07 00 00 00` is one octet. -/
theorem test_enc_end_trims :
    look (fun t => (t.out, t.control, t.rsp))
      (exec .encEnd { encOpen with cfg := ⟨4⟩, buf := ⟨.zeros, [(0, 0x07)]⟩, sinkAnswers := [.ok] }) =
      some ([0x07], .idle, [0x00000000000000000100]) := by decide

/-- Vector E10: the tail's burst fails at once. -/
theorem test_enc_end_failed :
    look (fun t => (t.out, t.fcode, t.finfo))
      (exec .encEnd { encOpen with buf := ⟨.zeros, [(1, 0x02)]⟩, sinkAnswers := [.fail 0] }) =
      some ([], 1, 2) := by decide

/-! ### BitmapScanner -/

/-- R140: the cursor starts at `START`; polarity 2 is refused. -/
theorem test_scan_begin_list :
    look (fun t => (t.cursor, t.cursorOvf, t.pol, t.control)) (exec (.scanBeginList 1) (idleWith 2 100 10)) =
      some (100, false, 1, .list) := by decide
theorem test_scan_begin_list_any :
    lastResponse (exec (.scanBeginList 2) (idleWith 2 100 10)) = some 0x84000000000000000000 := by decide

/-- R141: count mode takes "any" with nothing configured, and refuses 3. -/
theorem test_scan_begin_count :
    look (fun t => (t.count, t.pol, t.control)) (exec (.scanBeginCount 2) (fresh 2)) =
      some (0, 2, .count) := by decide
theorem test_scan_begin_count_three :
    lastResponse (exec (.scanBeginCount 3) (fresh 2)) = some 0x84000000000000000000 := by decide

/-- Vector K4: the values up to `MAX`, and the cursor past it. -/
theorem test_scan_byte_list :
    look (fun t => (t.vals, t.cursor, t.cursorOvf, t.rsp)) (exec (.scanByte 7) listTop) =
      some ([9223372036854775805, 9223372036854775806, 9223372036854775807], 0x8000000000000005, true,
        [0x00000000000000000300]) := by decide

/-- Vector K5: the same octet under polarity 0 faults at bit 3. -/
theorem test_scan_byte_list_fault :
    look (fun t => (t.vals, t.cursor, t.finfo, statusWord t)) (exec (.scanByte 7) { listTop with pol := 0 }) =
      some ([], 0x8000000000000000, 0x703, 0x134) := by decide

/-- Vector K6: the counter at its top, and past it. -/
theorem test_scan_byte_count :
    look (fun t => (t.count, t.rsp)) (exec (.scanByte 7) (counting 0xFFFFFFFFFFFFFFFC)) =
      some (0xFFFFFFFFFFFFFFFF, [0x00000000000000000300]) := by decide
theorem test_scan_byte_count_fault :
    look (fun t => (t.count, t.fcode, t.finfo, statusWord t)) (exec (.scanByte 0x0F) (counting 0xFFFFFFFFFFFFFFFF)) =
      some (0xFFFFFFFFFFFFFFFF, 4, 4, 0x204) := by decide

/-- R146: count mode answers the count, list mode 0. -/
theorem test_scan_end :
    look (fun t => (t.control, t.rsp)) (exec .scanEnd (counting 3)) =
      some (.idle, [0x00000000000000000300]) ∧
    look (fun t => (t.control, t.rsp)) (exec .scanEnd listTop) =
      some (.idle, [0x00000000000000000000]) := by decide

/-- The table of R144, its rows as the spec lists them. -/
def popcountRows : List (List Nat) :=
  [ [0, 1, 1, 2, 1, 2, 2, 3, 1, 2, 2, 3, 2, 3, 3, 4], [1, 2, 2, 3, 2, 3, 3, 4, 2, 3, 3, 4, 3, 4, 4, 5]
  , [1, 2, 2, 3, 2, 3, 3, 4, 2, 3, 3, 4, 3, 4, 4, 5], [2, 3, 3, 4, 3, 4, 4, 5, 3, 4, 4, 5, 4, 5, 5, 6] ] ++
  [ [1, 2, 2, 3, 2, 3, 3, 4, 2, 3, 3, 4, 3, 4, 4, 5], [2, 3, 3, 4, 3, 4, 4, 5, 3, 4, 4, 5, 4, 5, 5, 6]
  , [2, 3, 3, 4, 3, 4, 4, 5, 3, 4, 4, 5, 4, 5, 5, 6], [3, 4, 4, 5, 4, 5, 5, 6, 4, 5, 5, 6, 5, 6, 6, 7] ] ++
  [ [1, 2, 2, 3, 2, 3, 3, 4, 2, 3, 3, 4, 3, 4, 4, 5], [2, 3, 3, 4, 3, 4, 4, 5, 3, 4, 4, 5, 4, 5, 5, 6]
  , [2, 3, 3, 4, 3, 4, 4, 5, 3, 4, 4, 5, 4, 5, 5, 6], [3, 4, 4, 5, 4, 5, 5, 6, 4, 5, 5, 6, 5, 6, 6, 7] ] ++
  [ [2, 3, 3, 4, 3, 4, 4, 5, 3, 4, 4, 5, 4, 5, 5, 6], [3, 4, 4, 5, 4, 5, 5, 6, 4, 5, 5, 6, 5, 6, 6, 7]
  , [3, 4, 4, 5, 4, 5, 5, 6, 4, 5, 5, 6, 5, 6, 6, 7], [4, 5, 5, 6, 5, 6, 6, 7, 5, 6, 6, 7, 6, 7, 7, 8] ]

theorem test_popcount_table :
    (List.range 16).map (fun h => (List.range 16).map fun l => popcount (BitVec.ofNat 8 (16 * h + l))) =
      popcountRows := by decide

/-! ### The port -/

theorem test_reset_input :
    look (fun t => (t.control, t.rsp)) (step { faulted with port := [.resetInput] }) = some (.idle, []) := by decide

/-- R210: `ENC_PUSH 40` after 3 would write four octets; the reset input comes after three, with no response. -/
theorem test_reset_during_command :
    look (fun t => (t.control, t.prevValid, t.out, t.rsp))
      (step { encThree with port := [.resetDuring 0x210000000000000028 3], sinkAnswers := [.ok, .ok] }) =
      some (.idle, false, [0x08, 0x00, 0x00], []) := by decide

theorem test_illegal_in_fault :
    look (fun t => (t.control, t.rsp)) (step { faulted with port := [.command 0] }) =
      some (.fault, [0x80000000000000000000]) := by decide

/-! ### The assembler (R77, R78) -/

theorem test_assemble_lines :
    assembleLine "SET_START -20 ; the start" = .ok [0x01FFFFFFFFFFFFFFEC] ∧
    assembleLine "SET_STEP 0x7FFFFFFFFFFFFFFf" = .ok [0x027FFFFFFFFFFFFFFF] ∧
    assembleLine "SCAN_BEGIN_LIST ONE" = .ok [0x300000000000000001] ∧
    assembleLine "RESET" = .ok [0x040000000000000000] ∧ assembleLine " ; nothing" = .ok [] := by decide

theorem test_assemble_errors :
    assembleLine "SCAN_BYTE 256" = .error .outOfRange ∧
    assembleLine "ENC_PUSH 9223372036854775808" = .error .outOfRange ∧
    assembleLine "ENC_END 0" = .error .operandCount ∧ assembleLine "REG_RD ONE" = .error .notANumber ∧
    assembleLine "reset" = .error .unknownMnemonic ∧
    assembleLine "ENC_PUSH 1A" = .error .notANumber ∧ assembleLine "ENC_PUSH -" = .error .notANumber := by decide

theorem test_assemble_pseudo :
    assembleLine "ENCODE 1, 2, 1, 3" =
      .ok [0x010000000000000001, 0x020000000000000002, 0x200000000000000000, 0x210000000000000001,
        0x210000000000000003, 0x220000000000000000] ∧
    assembleLine "SCANLIST 1, 2, ONE, 7" =
      .ok [0x010000000000000001, 0x020000000000000002, 0x300000000000000001, 0x320000000000000007,
        0x330000000000000000] ∧
    assembleLine "SCANCOUNT ANY, 7" =
      .ok [0x310000000000000002, 0x320000000000000007, 0x330000000000000000] := by decide

/-! ### Witnesses: for each obligation with hypotheses, a state and operands that meet them -/

theorem legal_two : (⟨2⟩ : Config).Legal := by decide

theorem witness_inv_idle : Machine.Inv (idleWith 2 0 1) :=
  inv_quiet legal_two (by decide) (by decide) (by decide) (by decide) (by decide) (by decide) (by decide)
    (by decide) (by decide)

theorem witness_inv_open : Machine.Inv encOpen where
  capacity := legal_two
  bufWf := by decide
  bufBound := by decide
  stepPositive := by decide
  enc := fun _ =>
    { configured := by decide, fill := rfl, window := ⟨0, by decide⟩, overflow := by decide, beyond := by decide
      prevLow := by decide, prevGrid := by decide, prevHigh := by decide, noneYet := by decide
      prevBit := by decide, highest := fun h => by cases h }
  list := fun h => absurd h (by decide)
  polarity := by decide
  faultCode := by decide
  faultCodes := by decide
  faultInfo := by decide

/-- One bit set in a zero buffer. -/
theorem bufBit_one {k x : Nat} (h : bufBit (Memory.zeros.setBit (k / 8) (k % 8)) x = true) : x = k := by
  rw [bufBit_setBit Memory.zeros_wf] at h; simpa using h

theorem witness_inv_three : Machine.Inv encThree where
  capacity := legal_two
  bufWf := by decide
  bufBound := by decide
  stepPositive := by decide
  enc := fun _ =>
    { configured := by decide, fill := rfl, window := ⟨0, by decide⟩, overflow := by decide, beyond := by decide
      prevLow := by decide, prevGrid := by decide, prevHigh := by decide, noneYet := by decide
      prevBit := by decide
      highest := fun _ k hk => by
        have h : k = 3 := bufBit_one (k := 3) hk
        subst h; decide }
  list := fun h => absurd h (by decide)
  polarity := by decide
  faultCode := by decide
  faultCodes := by decide
  faultInfo := by decide

theorem witness_inv_top : Machine.Inv encTop where
  capacity := by decide
  bufWf := by decide
  bufBound := by decide
  stepPositive := by decide
  enc := fun _ =>
    { configured := by decide, fill := rfl, window := ⟨0, by decide⟩, overflow := by decide, beyond := by decide
      prevLow := by decide, prevGrid := by decide, prevHigh := by decide, noneYet := by decide
      prevBit := by decide
      highest := fun _ k hk => by
        have h : k = 7 := bufBit_one (k := 7) hk
        subst h; decide }
  list := fun h => absurd h (by decide)
  polarity := by decide
  faultCode := by decide
  faultCodes := by decide
  faultInfo := by decide

theorem witness_inv_list : Machine.Inv listTop where
  capacity := legal_two
  bufWf := by decide
  bufBound := by decide
  stepPositive := by decide
  enc := fun h => absurd h (by decide)
  list := fun _ => { configured := by decide, polarity := by decide, cursor := ⟨0, by decide, by decide⟩ }
  polarity := by decide
  faultCode := by decide
  faultCodes := by decide
  faultInfo := by decide

theorem witness_DecodedWordIsTheCommandsWord : decode 0x3200000000000000FF = .ok (.scanByte 0xFF) := by decide

theorem witness_IllegalWordIsRefusedInEveryState :
    ({ faulted with port := [.command 0x320000000000000100] } : State).port = .command 0x320000000000000100 :: [] ∧
    wordWellFormed 0x320000000000000100 = false := by decide

theorem witness_StepExecutesTheDecodedCommand :
    ({ encOpen with port := [.command 0x210000000000000003] } : State).port = .command 0x210000000000000003 :: [] ∧
    decode 0x210000000000000003 = .ok (.encPush 3) := by decide

theorem witness_IdlePortHoldsTheState : encThree.port = [] := rfl

/-- A response with no payload, one with `P`, and one of `MAP_SPLIT` with `Q`. -/
theorem witness_EveryCommandAnswersExactlyOnce :
    (∃ t, exec (.encPush 3) encThree = .next t) ∧ (∃ t, exec .scanEnd (counting 3) = .next t) ∧
    (∃ t, exec (.mapSplit 7) encOpen = .next t) := ⟨⟨_, rfl⟩, ⟨_, rfl⟩, _, rfl⟩

theorem witness_FaultStateRefusesAllButResetAndRead :
    faulted.control = .fault ∧ Instr.encEnd ≠ .reset ∧ ∀ r, Instr.encEnd ≠ .regRd r :=
  ⟨rfl, by decide, fun _ => by simp⟩

theorem witness_CommandOutsideItsStatesIsRefused :
    listTop.control ≠ .fault ∧ legalIn .encEnd listTop.control = false := by decide

/-- One of the two loaded is not enough. -/
theorem witness_UnconfiguredCommandIsRefused :
    needsConfig (.scanBeginList 3) = true ∧
    legalIn (.scanBeginList 3) ({ fresh 2 with stepSet := true } : State).control = true ∧
    ¬ Configured { fresh 2 with stepSet := true } := by decide

theorem witness_BadOperandIsRefusedLast :
    operandLegal (.scanBeginList 2) = false ∧ legalIn (.scanBeginList 2) (idleWith 2 0 1).control = true ∧
    (needsConfig (.scanBeginList 2) = true → Configured (idleWith 2 0 1)) ∧
    operandLegal (.regRd 11) = false ∧ legalIn (.regRd 11) faulted.control = true := by decide

theorem witness_SetStartLoadsStartInIdle :
    (fresh 2).control = .idle ∧ faulted.control = .fault ∧ encOpen.control ≠ .idle ∧ encOpen.control ≠ .fault := by
  decide

/-- The operands 1 and 0, where the two clauses meet, and the largest and the smallest. -/
theorem witness_SetStepLoadsAPositiveStepInIdle :
    (fresh 2).control = .idle ∧ 1 ≤ (1 : Word).toInt ∧ 1 ≤ (0x7FFFFFFFFFFFFFFF : Word).toInt ∧
    (0 : Word).toInt ≤ 0 ∧ (0x8000000000000000 : Word).toInt ≤ 0 ∧ faulted.control = .fault ∧
    listTop.control ≠ .idle ∧ listTop.control ≠ .fault := by decide

theorem witness_RegisterReadAnswersTheNumberedRegister : 10 < (11 : Word).toNat := by decide

theorem witness_ResetInputActsAsResetWithoutResponse :
    ({ faulted with port := [.resetInput] } : State).port = .resetInput :: [] := rfl

theorem witness_SourceErrorTakesTheReadFault :
    encOpen.control = .enc ∧ listTop.control = .list ∧ (counting 0).control = .count ∧ (fresh 2).control = .idle ∧
    faulted.control = .fault := by decide

/-- `START = 0`, `STEP = 3`: the values -1, 2 and 3 lie under one clause each. -/
theorem witness_ToIndexAnswersTheExactIndex :
    let s := idleWith 2 0 3
    s.control ≠ .fault ∧ Configured s ∧ 1 ≤ s.step.toInt ∧ ¬ Configured (fresh 2) ∧ (fresh 2).control ≠ .fault ∧
    faulted.control = .fault ∧ (0xFFFFFFFFFFFFFFFF : Word).toInt < s.start.toInt ∧
    (s.start.toInt ≤ (2 : Word).toInt ∧ ((2 : Word).toInt - s.start.toInt) % s.step.toInt ≠ 0) ∧
    (s.start.toInt ≤ (3 : Word).toInt ∧ ((3 : Word).toInt - s.start.toInt) % s.step.toInt = 0) := by decide

/-- `START = MAX-1`, `STEP = 1`: index 1 is the last that fits, index 2 the first that does not. -/
theorem witness_ToValueAnswersOrOverflows :
    let s := idleWith 2 0x7FFFFFFFFFFFFFFE 1
    s.control ≠ .fault ∧ Configured s ∧ 1 ≤ s.step.toInt ∧ ¬ Configured (fresh 2) ∧ (fresh 2).control ≠ .fault ∧
    faulted.control = .fault ∧ 2 ^ 63 ≤ s.start.toInt + (2 : Word).toNat * s.step.toInt ∧
    s.start.toInt + (1 : Word).toNat * s.step.toInt < 2 ^ 63 := by decide

theorem witness_SplitAnswersOctetAndBit : encOpen.control ≠ .fault ∧ faulted.control = .fault := by decide

theorem witness_IndexAndValueAreInverseBijections :
    1 ≤ s64 3 ∧ toIndex 0 3 6 = some (.index 2) ∧ toIndex 0 3 9 = some (.index 3) ∧ toValue 0 3 2 = some 6 := by
  decide

theorem witness_MapperChangesOnlyResponses :
    (∃ t, exec (.mapToIndex 5) encThree = .next t) ∧ (∃ t, exec (.mapToValue 5) encThree = .next t) ∧
    ∃ t, exec (.mapSplit 5) encThree = .next t := ⟨⟨_, rfl⟩, ⟨_, rfl⟩, _, rfl⟩

/-- `START = MAX-8`, `STEP = 1`, `B = 1`: the bound is `MAX` exactly. -/
theorem witness_EncodeBeginOpensTheFirstWindow :
    let s := idleWith 1 0x7FFFFFFFFFFFFFF7 1
    faulted.control = .fault ∧ (listTop.control ≠ .fault ∧ listTop.control ≠ .idle) ∧
    ((fresh 2).control = .idle ∧ ¬ Configured (fresh 2)) ∧ s.control = .idle ∧ Configured s ∧ 1 ≤ s64 s.step ∧
    s64 s.start + 8 * s.cfg.bufSize * s64 s.step = maxInt := by decide

/-- After 3 on `START = 0`, `STEP = 1`: 2 and 3; before it, -1; and on `STEP = 2`, 3. -/
theorem witness_GuardReportsTheFirstCheckThatApplies :
    encThree.control = .enc ∧ 1 ≤ s64 encThree.step ∧ (encThree.prevValid = true ∧ s64 2 < s64 encThree.prev) ∧
    s64 3 = s64 encThree.prev ∧
    ((encOpen.prevValid = true → s64 encOpen.prev < s64 0xFFFFFFFFFFFFFFFF) ∧
      s64 0xFFFFFFFFFFFFFFFF < s64 encOpen.start) ∧
    ((encOpen.prevValid = true → s64 encOpen.prev < s64 3) ∧ s64 encOpen.start ≤ s64 3 ∧
      (s64 3 - s64 encOpen.start) % s64 ({ encOpen with step := 2 } : State).step ≠ 0) := by decide

/-- The last value of the window, 15. -/
theorem witness_PushInsideTheWindowSetsOneBit :
    Machine.Inv encThree ∧ encThree.control = .enc ∧ Accepted 15 encThree ∧ s64 15 < s64 encThree.beyond :=
  ⟨witness_inv_three, by decide, by decide, by decide⟩

/-- The boundary value 16; and vector E6, the value `MAX` itself. -/
theorem witness_BoundaryValueFlushesExactlyOnce :
    (Machine.Inv encThree ∧ encThree.control = .enc ∧ Accepted 16 encThree ∧ encThree.beyondOvf = false ∧
      16 = encThree.beyond ∧ ({ encThree with sinkAnswers := [.ok] } : State).sinkAnswers = .ok :: []) ∧
    (Machine.Inv encTop ∧ Accepted 0x7FFFFFFFFFFFFFFF encTop ∧ 0x7FFFFFFFFFFFFFFF = encTop.beyond) :=
  ⟨⟨witness_inv_three, by decide, by decide, by decide, by decide, rfl⟩, witness_inv_top, by decide, by decide⟩

/-- 4 lies in the live window, 16 one window above it and 40 two. -/
theorem witness_PushCrossesTheGapInClosedForm :
    let s := fun answers => ({ encThree with sinkAnswers := answers } : State)
    (Machine.Inv (s []) ∧ (s []).control = .enc ∧ Accepted 4 (s []) ∧ windowsAbove (s64 4) (s []) = 0 ∧
      (s []).sinkAnswers = List.replicate 0 .ok ++ []) ∧
    (Machine.Inv (s [.ok]) ∧ Accepted 16 (s [.ok]) ∧ windowsAbove (s64 16) (s [.ok]) = 1 ∧
      (s [.ok]).sinkAnswers = List.replicate 1 .ok ++ []) ∧
    (Machine.Inv (s [.ok, .ok]) ∧ Accepted 40 (s [.ok, .ok]) ∧ windowsAbove (s64 40) (s [.ok, .ok]) = 2 ∧
      (s [.ok, .ok]).sinkAnswers = List.replicate 2 .ok ++ []) := by
  have inv (answers : List SinkAnswer) : Machine.Inv { encThree with sinkAnswers := answers } :=
    inv_of_frame witness_inv_three rfl rfl rfl rfl rfl rfl rfl rfl rfl rfl rfl rfl rfl rfl rfl rfl rfl
  exact ⟨⟨inv _, by decide⟩, ⟨inv _, by decide⟩, ⟨inv _, by decide⟩⟩

/-- Vector E9: one burst taken, the next failed. -/
theorem witness_FailedFlushLeavesThePreciseFault :
    let s := { encThree with sinkAnswers := [.ok, .fail 1] }
    Machine.Inv s ∧ s.control = .enc ∧ Accepted 40 s ∧ 1 < windowsAbove (s64 40) s ∧
    s.sinkAnswers = List.replicate 1 .ok ++ .fail 1 :: [] :=
  ⟨inv_of_frame witness_inv_three rfl rfl rfl rfl rfl rfl rfl rfl rfl rfl rfl rfl rfl rfl rfl rfl rfl, by decide,
    by decide, by decide, by decide⟩

theorem witness_InvariantFaultIsUnreachable :
    Machine.Inv encThree ∧ encThree.fcode ≠ 3 ∧ ∃ t, exec (.encPush 4) encThree = .next t :=
  ⟨witness_inv_three, by decide, _, rfl⟩

theorem witness_OverflowedWindowNeverFlushes :
    let s := { encTop with bottom := 0x7FFFFFFFFFFFFFFF, beyond := 0x8000000000000007, beyondOvf := true }
    s.control = .enc ∧ s.beyondOvf = true ∧
    look (fun t => t.buf.readFront 1) (exec (.encPush 0x7FFFFFFFFFFFFFFF) s) = some [0x81] := by decide

/-- An all-zero buffer; and a tail of one octet of two, accepted and refused. -/
theorem witness_EncodeEndWritesTheTrimmedTail :
    encOpen.control = .enc ∧ (∀ j < encOpen.cfg.bufSize, encOpen.buf.read j = 0) ∧ encThree.control = .enc ∧
    0 < encThree.cfg.bufSize ∧ encThree.buf.read 0 ≠ 0 ∧
    (∀ j < encThree.cfg.bufSize, 0 < j → encThree.buf.read j = 0) ∧
    sinkAnswer { encThree with sinkAnswers := [.ok] } = .ok ∧
    sinkAnswer { encThree with sinkAnswers := [.fail 0] } = .fail 0 := by decide

/-- Values inside, on the boundary and above it, one of them skipped. -/
theorem witness_StreamWritesTheMinimalBitmap :
    let s := { idleWith 2 0 1 with sinkAnswers := [.ok, .ok, .ok, .ok] }
    Machine.Inv s ∧ s.control = .idle ∧ Configured s ∧ (∀ a ∈ s.sinkAnswers, a = .ok) ∧
    ∀ v ∈ ([3, 2, 16, 40] : List Word), ((s64 v - s64 s.start) / span s).toNat + 1 ≤ s.sinkAnswers.length :=
  ⟨inv_of_frame witness_inv_idle rfl rfl rfl rfl rfl rfl rfl rfl rfl rfl rfl rfl rfl rfl rfl rfl rfl, by decide,
    by decide, by decide, fun v hv => by
      simp only [List.mem_cons, List.not_mem_nil, or_false] at hv
      rcases hv with rfl | rfl | rfl | rfl <;> decide⟩

theorem witness_ListScanBeginsAtStart :
    faulted.control = .fault ∧ (encOpen.control ≠ .fault ∧ encOpen.control ≠ .idle) ∧
    ((fresh 2).control = .idle ∧ ¬ Configured (fresh 2)) ∧
    ((idleWith 2 0 1).control = .idle ∧ Configured (idleWith 2 0 1)) := by decide

theorem witness_CountScanBeginsAtZero :
    faulted.control = .fault ∧ (encOpen.control ≠ .fault ∧ encOpen.control ≠ .idle) ∧
    (fresh 2).control = .idle := by decide

/-- Vector K4: the last matching bit stands for `MAX`. -/
theorem witness_ListOctetEmitsTheMatchingValues :
    listTop.control = .list ∧ 1 ≤ s64 listTop.step ∧
    (∀ j ∈ matchingBits 7 (List.range 8) listTop, ¬ CursorPast j listTop) ∧ cursorAt 2 listTop = maxInt := by decide

/-- Vector K5: bit 3, the first past `MAX`. -/
theorem witness_ListOctetFaultsAtTheFirstValuePastMax :
    let s := { listTop with pol := 0 }
    s.control = .list ∧ 1 ≤ s64 s.step ∧ bitMatches s.pol (bitOf 7 3) = true ∧ CursorPast 3 s ∧
    ∀ i ∈ matchingBits 7 (List.range 3) s, ¬ CursorPast i s := by decide

/-- Octet 7 holds three ones and 0x0F four. -/
theorem matching_counts :
    (matchingBits 7 (List.range 8) (counting 0)).length = 3 ∧
    (matchingBits 0x0F (List.range 8) (counting 0)).length = 4 := by decide

/-- Vector K6: the increment that reaches `2^64-1`, and the one that passes it. -/
theorem witness_CountOctetAddsTheMatchingBits :
    (counting 0).control = .count ∧ (counting 0).pol ≠ 3 ∧
    (0xFFFFFFFFFFFFFFFC : Word).toNat + (matchingBits 7 (List.range 8) (counting 0)).length = 2 ^ 64 - 1 ∧
    2 ^ 64 ≤ (0xFFFFFFFFFFFFFFFF : Word).toNat + (matchingBits 0x0F (List.range 8) (counting 0)).length := by
  rw [matching_counts.1, matching_counts.2]
  exact ⟨rfl, by decide, rfl, by decide⟩

theorem witness_ScanEndClosesTheScan :
    listTop.control = .list ∧ (counting 0).control = .count ∧ faulted.control = .fault ∧
    (fresh 2).control = .idle ∧ encOpen.control = .enc := by decide

/-- `START = MAX-2`, `STEP = 1`, polarity 1: octet 7 stands for `MAX-2`, `MAX-1` and `MAX`. -/
theorem witness_ListScanEmitsEveryMatchingValue :
    let s := idleWith 2 0x7FFFFFFFFFFFFFFD 1
    s.control = .idle ∧ Configured s ∧ 1 ≤ s64 s.step ∧
    matchingValues (s64 s.start) (s64 s.step) 1 [7] = [maxInt - 2, maxInt - 1, maxInt] := by decide

/-- The same octet under polarity 0 stands for values past `MAX`. -/
theorem witness_ListScanFaultsAfterTheLastValue :
    let s := idleWith 2 0x7FFFFFFFFFFFFFFD 1
    s.control = .idle ∧ Configured s ∧ 1 ≤ s64 s.step ∧
    ∃ v ∈ matchingValues (s64 s.start) (s64 s.step) 0 [7], maxInt < v := by decide

theorem witness_CountsOfAnyStreamAreConsistent :
    (fresh 2).control = .idle ∧ 8 * ([7, 0, 0xFF] : List Byte).length < 2 ^ 64 := by decide

/-- The values up to `MAX`, whose octet has bits above it. -/
theorem witness_DecodeOfEncodeIsTheValues :
    let s := idleWith 2 0x7FFFFFFFFFFFFFFD 1
    s.control = .idle ∧ Configured s ∧ 1 ≤ s64 s.step ∧
    ([maxInt - 2, maxInt] : List Int).Pairwise (· < ·) ∧
    ∀ v ∈ ([maxInt - 2, maxInt] : List Int),
      s64 s.start ≤ v ∧ v ≤ maxInt ∧ (v - s64 s.start) % s64 s.step = 0 := by decide

theorem witness_EveryStepKeepsTheInvariant :
    Machine.Inv { encThree with port := [.command 0x210000000000000028] } ∧
    ∃ t, step { encThree with port := [.command 0x120000000000000028] } = .next t :=
  ⟨witness_inv_three.withPort _, _, rfl⟩

theorem witness_EveryStepCompletesUnderTheInvariant :
    Machine.Inv encTop ∧ Machine.Inv encOpen ∧ Machine.Inv listTop :=
  ⟨witness_inv_top, witness_inv_open, witness_inv_list⟩

theorem witness_ControlStateChangesOnlyByTheTable :
    look (fun t => t.control) (exec .encEnd encOpen) = some .idle ∧
    look (fun t => t.control) (exec .srcErr encOpen) = some .fault := by decide

theorem witness_FaultIsStickyUntilReset :
    let s := { faulted with port := [.command 0x200000000000000000] }
    s.control = .fault ∧ (∃ t, step s = .next t) ∧ (∀ rest, s.port ≠ .resetInput :: rest) ∧
    (∀ w n rest, s.port ≠ .resetDuring w n :: rest) ∧
    ∀ rest, s.port ≠ .command (encode .reset) :: rest :=
  ⟨rfl, ⟨_, rfl⟩, fun _ h => absurd (List.cons.inj h).1 (fun h => by cases h),
    fun _ _ _ h => absurd (List.cons.inj h).1 (fun h => by cases h),
    fun _ h => absurd (List.cons.inj h).1 (show PortEvent.command 0x200000000000000000 ≠ .command (encode .reset) by decide)⟩

theorem witness_ProgressionIsFixedWhileAStreamIsOpen :
    encOpen.control ≠ .idle ∧ Instr.setStart 9 ≠ .reset ∧ ∃ t, exec (.setStart 9) encOpen = .next t :=
  ⟨by decide, by decide, _, rfl⟩

theorem witness_HistoriesOnlyGrow :
    look (fun t => t.vals) (step { listTop with port := [.command 0x320000000000000001], vals := [5] }) =
      some [5, maxInt - 2] := by decide

/-- A command cut short with a stream open. -/
theorem witness_ResetInputCutsACommandShort :
    let s := { encThree with port := [.resetDuring 0x210000000000000028 3] }
    Machine.Inv s ∧ s.port = .resetDuring 0x210000000000000028 3 :: [] :=
  ⟨witness_inv_three.withPort _, rfl⟩

theorem witness_CapacityNeverChanges :
    look (fun t => t.cfg) (step { encOpen with port := [.command 0x040000000000000000] }) = some ⟨2⟩ := by decide

theorem witness_OnlyTheEncoderWritesItsState :
    Instr.encEnd ≠ .encBegin ∧ (∀ v, Instr.encEnd ≠ .encPush v) ∧ Instr.encEnd ≠ .reset ∧
    ∃ t, exec .encEnd encOpen = .next t := ⟨by decide, fun _ => by simp, by decide, _, rfl⟩

theorem witness_OnlyTheScannerWritesItsState :
    (∀ p, Instr.scanEnd ≠ .scanBeginList p) ∧ (∀ p, Instr.scanEnd ≠ .scanBeginCount p) ∧
    (∀ b, Instr.scanEnd ≠ .scanByte b) ∧ Instr.scanEnd ≠ .reset ∧ ∃ t, exec .scanEnd listTop = .next t :=
  ⟨fun _ => by simp, fun _ => by simp, fun _ => by simp, by decide, _, rfl⟩

end Sys2Proof.Tests
end

section
/-! Every command leads to one response and keeps the configuration (R7, R13, R75); every step from a state of
the invariant completes (R10, R39); a step runs the decoded command (R35). -/

namespace Sys2Proof.Machine

/-! ### Steps by the event on the port -/

/-- A command word on the port is run in the state without it (R35). -/
theorem step_command {s : State} {w : CommandWord} {rest : List PortEvent} (h : s.port = .command w :: rest) :
    step s = runWord w { s with port := rest } := by
  simp [step, takeEvent, h]

/-- A word that decodes is run as its command (R73). -/
theorem runWord_of_decode {w : CommandWord} {i : Instr} (h : decode w = .ok i) (s : State) :
    runWord w s = exec i s := by
  simp [runWord, h]

/-! ### The one response of a command -/

/-- What every command does on its way from `s` to `t`: the configuration stays (R7), and one response follows
those given, with the fields R13 and R75 leave it. -/
def Answered (i : Instr) (s t : State) : Prop :=
  t.cfg = s.cfg ∧ ∃ (st : Status) (p : Word) (q : Byte), t.rsp = s.rsp ++ [responseWord st p q] ∧
    (st ≠ .ok → p = 0 ∧ q = 0) ∧ ((∀ x, i ≠ .mapSplit x) → q = 0)

/-- A refusal, a disposition or a fault: whatever its status, the response carries nothing (R180, R183). -/
theorem answered_bare {i : Instr} {s u : State} (st : Status) (hc : u.cfg = s.cfg) (hr : u.rsp = s.rsp) :
    Answered i s (respond st 0 0 u) :=
  ⟨hc, st, 0, 0, by rw [respond_rsp, hr], fun _ => ⟨rfl, rfl⟩, fun _ => rfl⟩

/-- A completion: the response carries at most `P` (R75). -/
theorem answered_ok {i : Instr} {s u : State} (p : Word) (hc : u.cfg = s.cfg) (hr : u.rsp = s.rsp) :
    Answered i s (respond .ok p 0 u) :=
  ⟨hc, .ok, p, 0, by rw [respond_rsp, hr], fun h => absurd rfl h, fun _ => rfl⟩

/-- A fault entry answers with its own status and nothing more (R183). -/
theorem answered_raise {i : Instr} {s u : State} (f : FaultCause) (info : Int) (hc : u.cfg = s.cfg)
    (hr : u.rsp = s.rsp) : Answered i s (raise f info u) :=
  answered_bare f.status hc hr

theorem encPush_body_answered {v : Word} {s t : State} (h : commandBody (.encPush v) s = .next t) :
    Answered (.encPush v) s t := by
  simp only [commandBody] at h
  rcases guardValue_any v s with ⟨st, hg⟩ | hg | hg <;> rw [hg] at h
  · cases h
    exact answered_bare st rfl rfl
  · obtain ⟨b, y, f, a, d, o, m, ⟨c, info, -, rfl⟩ | ⟨p, rfl⟩⟩ := pushAccepted_next h
    · exact answered_raise c info rfl rfl
    · exact answered_ok p rfl rfl
  · cases h

theorem encEnd_body_answered {s t : State} (h : commandBody .encEnd s = .next t) : Answered .encEnd s t := by
  cases h
  obtain ⟨a, d, o, h | ⟨p, h⟩⟩ := writeTail_next (s.buf.tailLength s.cfg.bufSize) s <;> rw [h]
  · exact answered_raise _ _ rfl rfl
  · exact answered_ok p rfl rfl

theorem scanByteList_answered (b : Byte) (s : State) : Answered (.scanByte b) s (scanByteList b s) := by
  obtain ⟨c, o, v, ⟨info, h⟩ | ⟨p, h⟩⟩ := scanByteList_next b s <;> rw [h]
  · exact answered_raise _ _ rfl rfl
  · exact answered_ok p rfl rfl

theorem scanByteCount_answered (b : Byte) (s : State) : Answered (.scanByte b) s (scanByteCount b s) := by
  simp only [scanByteCount]
  split
  · exact answered_raise _ _ rfl rfl
  · exact answered_ok _ rfl rfl

/-- Whatever the state, a command that executes answers once. -/
theorem commandBody_answered {i : Instr} {s t : State} (h : commandBody i s = .next t) : Answered i s t := by
  cases i with
  | setStart | setStep | reset | encBegin | scanBeginList | scanBeginCount => cases h; exact answered_ok 0 rfl rfl
  | regRd | scanEnd => cases h; exact answered_ok _ rfl rfl
  | srcErr => cases h; exact answered_raise _ _ rfl rfl
  | mapToIndex v =>
    simp only [commandBody] at h
    split at h
    · cases h
    · cases h; exact answered_bare _ rfl rfl
    · cases h; exact answered_bare _ rfl rfl
    · cases h; exact answered_ok _ rfl rfl
  | mapToValue x =>
    simp only [commandBody] at h
    split at h
    · cases h; exact answered_bare _ rfl rfl
    · cases h; exact answered_ok _ rfl rfl
  | mapSplit x => cases h; exact ⟨rfl, .ok, _, _, rfl, fun hs => absurd rfl hs, fun hi => absurd rfl (hi x)⟩
  | encPush v => exact encPush_body_answered h
  | encEnd => exact encEnd_body_answered h
  | scanByte b =>
    cases h
    split
    · exact scanByteList_answered b s
    · exact scanByteCount_answered b s

/-- Whatever the state, a command answers once, refused or executed. -/
theorem exec_answered {i : Instr} {s t : State} (h : exec i s = .next t) : Answered i s t := by
  rcases exec_cases i s with ⟨-, e, he⟩ | ⟨-, he⟩ <;> rw [he] at h
  · cases h
    exact answered_bare e rfl rfl
  · exact commandBody_answered h

/-! ### The configuration -/

theorem runWord_cfg {w : CommandWord} {s t : State} (h : runWord w s = .next t) : t.cfg = s.cfg := by
  rcases runWord_cases w s with ⟨e, -, he⟩ | ⟨i, -, hi⟩
  · rw [he] at h
    cases h
    rfl
  · exact (exec_answered (hi ▸ h)).1

theorem step_cfg {s t : State} (h : step s = .next t) : t.cfg = s.cfg := by
  rcases step_cases s with ⟨-, hs⟩ | ⟨rest, -, hs⟩ | ⟨w, rest, -, hs⟩ | ⟨w, n, rest, -, hs⟩ <;> rw [hs] at h
  · cases h; rfl
  · cases h; rfl
  · exact runWord_cfg (s := { s with port := rest }) h
  · obtain ⟨u, -, rfl⟩ := cutShort_next h
    rfl

/-! ### Completion under the invariant -/

/-- With a positive step the quotient of `MAP_TOINDEX` exists (R94). -/
theorem mapToIndex_completes {s : State} (hs : 0 < s64 s.step) (v : Word) :
    ∃ t, commandBody (.mapToIndex v) s = .next t := by
  simp only [commandBody, toIndex_of_pos hs]
  split
  · next h => cases h
  all_goals exact ⟨_, rfl⟩

/-- In an encode stream of the invariant the flush loop reaches the window of the value, where its bit has an
index (R125, R128). -/
theorem encPush_completes {s : State} (h : Inv s) (he : s.control = .enc) (v : Word) :
    ∃ t, commandBody (.encPush v) s = .next t := by
  have hs := h.step_pos he
  have henc := h.enc he
  simp only [commandBody]
  rcases guardValue_cases (v := v) (s := s) (by omega) with ⟨st, hg⟩ | ⟨ha, hg⟩ <;> rw [hg]
  · exact ⟨_, rfl⟩
  · have hb := henc.bottom_le ha
    obtain ⟨m, a, d, o, ⟨-, hpush⟩ | ⟨rfl, hpush⟩⟩ := pushAccepted_cases henc.pair h.capacity hs hb
    · exact ⟨_, hpush⟩
    · obtain ⟨-, -, hlow, hhigh⟩ := windowBy_reached h.capacity hs hb
      exact ⟨_, hpush.trans (placeBit_eq _ (Int.lt_of_lt_of_le Int.zero_lt_one hs) hlow hhigh)⟩

/-- Only `MAP_TOINDEX` and `ENC_PUSH` take a quotient, so only they rest on the invariant (R10). -/
theorem commandBody_completes {i : Instr} {s : State} (h : Inv s) (hx : Executes i s) :
    ∃ t, commandBody i s = .next t := by
  obtain ⟨hlegal, hconf, -⟩ := hx
  cases i with
  | mapToIndex v =>
    have hs := h.stepPositive (hconf rfl).2
    exact mapToIndex_completes (by omega) v
  | encPush v =>
    refine encPush_completes h ?_ v
    cases hc : s.control <;> simp [legalIn, hc] at hlegal ⊢
  | mapToValue x =>
    simp only [commandBody]
    split <;> exact ⟨_, rfl⟩
  | setStart | setStep | regRd | reset | srcErr | mapSplit | encBegin | encEnd | scanBeginList | scanBeginCount
  | scanByte | scanEnd => exact ⟨_, rfl⟩

theorem exec_completes {s : State} (h : Inv s) (i : Instr) : ∃ t, exec i s = .next t := by
  rcases exec_cases i s with ⟨-, e, he⟩ | ⟨hx, he⟩
  · exact ⟨_, he⟩
  · rw [he]
    exact commandBody_completes h hx

theorem runWord_completes {s : State} (h : Inv s) (w : CommandWord) : ∃ t, runWord w s = .next t := by
  rcases runWord_cases w s with ⟨e, -, he⟩ | ⟨i, -, hi⟩
  · exact ⟨_, he⟩
  · rw [hi]
    exact exec_completes h i

theorem step_completes {s : State} (h : Inv s) : ∃ t, step s = .next t := by
  rcases step_cases s with ⟨-, hs⟩ | ⟨rest, -, hs⟩ | ⟨w, rest, -, hs⟩ | ⟨w, n, rest, -, hs⟩ <;> rw [hs]
  · exact ⟨_, rfl⟩
  · exact ⟨_, rfl⟩
  · exact runWord_completes (h.withPort rest) w
  · obtain ⟨u, hu⟩ := runWord_completes (h.withPort rest) w
    rw [hu]
    exact ⟨_, rfl⟩

/-! ### The statements of the scope -/

/-- Settles O6: the event is the head of the port, and the word decodes. -/
theorem stepExecutesTheDecodedCommand : Obligations.StepExecutesTheDecodedCommand :=
  fun _ _ _ _ hport hdecode => (step_command hport).trans (runWord_of_decode hdecode _)

/-- Settles O9: a refusal answers with no payload, and each command's body ends in one response. -/
theorem everyCommandAnswersExactlyOnce : Obligations.EveryCommandAnswersExactlyOnce :=
  fun _ _ _ h => (exec_answered h).2

/-- Settles O54: every command and every reset keeps the configuration. -/
theorem capacityNeverChanges : Obligations.CapacityNeverChanges :=
  fun _ _ h => step_cfg h

/-- Settles O49: under the invariant the step is positive and the window holds the value, so each quotient a
command takes exists. -/
theorem everyStepCompletesUnderTheInvariant : Obligations.EveryStepCompletesUnderTheInvariant :=
  fun _ h => step_completes h

end Sys2Proof.Machine
end

section
/-! What each command writes, said once: a change of its own followed by one response or one fault entry (R58,
R166). The frames of the Progression, the encoder and the scanner and the growth of the histories follow from it
(R21 to R28, R33, R36, R54). -/

namespace Sys2Proof.Machine

/-! ### The change and the end of a command -/

/-- The change from `s` to `u` that a command which executes makes before it ends. The fault entry sets the
control state itself, so `ENC_END` may be said to leave `IDLE` behind whether its burst is taken or not. -/
def Writes : Instr → State → State → Prop
  | .setStart v, s, u => u = { s with start := v, startSet := true }
  | .setStep v, s, u => u = { s with step := v, stepSet := true }
  | .regRd _, s, u | .srcErr, s, u | .mapToIndex _, s, u | .mapToValue _, s, u | .mapSplit _, s, u => u = s
  | .reset, s, u => u = resetBlock s
  | .encBegin, s, u =>
    u = { s with
      bottom := s.start
      beyond := wrap64 (s64 s.start + span s), beyondOvf := decide (maxInt < s64 s.start + span s)
      prev := 0, prevValid := false
      buf := .zeros
      control := .enc }
  | .encPush v, s, u =>
    u = s ∨ ∃ (b y : Word) (f : Bool) (a : List SinkAnswer) (d : Nat) (o : List Byte) (m : Memory),
      u = { withSink a d (s.out ++ o) (withWindow b y f (acceptValue v s)) with buf := m }
  | .encEnd, s, u =>
    ∃ (a : List SinkAnswer) (d : Nat) (o : List Byte), u = { withSink a d (s.out ++ o) s with control := .idle }
  | .scanBeginList p, s, u => u = { s with cursor := s.start, cursorOvf := false, pol := p, control := .list }
  | .scanBeginCount p, s, u => u = { s with count := 0, pol := p, control := .count }
  | .scanByte _, s, u =>
    ∃ (c : Word) (o : Bool) (v : List Int) (n : Word), u = { withCursor c o v s with count := n }
  | .scanEnd, s, u => u = { s with control := .idle }

/-- How every command ends: with one response, or with a fault entry (R58, R183). -/
def Ends (u t : State) : Prop :=
  (∃ (st : Status) (p : Word) (q : Byte), t = respond st p q u) ∨
    ∃ (f : FaultCause) (info : Int), t = raise f info u

theorem ends_respond (st : Status) (p : Word) (q : Byte) (u : State) : Ends u (respond st p q u) :=
  .inl ⟨st, p, q, rfl⟩

theorem ends_raise (f : FaultCause) (info : Int) (u : State) : Ends u (raise f info u) :=
  .inr ⟨f, info, rfl⟩

/-- The end of a command writes the control state, the fault registers and `RSP` alone, and `RSP` grows. -/
theorem Ends.frame {u t : State} (h : Ends u t) :
    t = { u with control := t.control, fcode := t.fcode, finfo := t.finfo, rsp := t.rsp } ∧ u.rsp <+: t.rsp := by
  rcases h with ⟨st, p, q, rfl⟩ | ⟨f, info, rfl⟩ <;> exact ⟨rfl, List.prefix_append _ _⟩

theorem encPush_body_next {v : Word} {s t : State} (h : commandBody (.encPush v) s = .next t) :
    ∃ u, Writes (.encPush v) s u ∧ Ends u t := by
  simp only [commandBody] at h
  rcases guardValue_any v s with ⟨st, hg⟩ | hg | hg <;> rw [hg] at h
  · cases h
    exact ⟨s, .inl rfl, ends_respond ..⟩
  · obtain ⟨b, y, f, a, d, o, m, ⟨c, info, -, rfl⟩ | ⟨p, rfl⟩⟩ := pushAccepted_next h
    · exact ⟨_, .inr ⟨b, y, f, a, d, o, m, rfl⟩, ends_raise ..⟩
    · exact ⟨_, .inr ⟨b, y, f, a, d, o, m, rfl⟩, ends_respond ..⟩
  · cases h

theorem writeTail_ends (n : Nat) (s : State) : ∃ u, Writes .encEnd s u ∧ Ends u (writeTail n s) := by
  obtain ⟨a, d, o, h | ⟨p, h⟩⟩ := writeTail_next n s <;> rw [h]
  · exact ⟨_, ⟨a, d, o, rfl⟩, ends_raise ..⟩
  · exact ⟨_, ⟨a, d, o, rfl⟩, ends_respond ..⟩

theorem scanByteList_ends (b : Byte) (s : State) :
    ∃ u, Writes (.scanByte b) s u ∧ Ends u (scanByteList b s) := by
  obtain ⟨c, o, v, ⟨info, h⟩ | ⟨p, h⟩⟩ := scanByteList_next b s <;> rw [h]
  · exact ⟨_, ⟨c, o, v, s.count, rfl⟩, ends_raise ..⟩
  · exact ⟨_, ⟨c, o, v, s.count, rfl⟩, ends_respond ..⟩

theorem scanByteCount_ends (b : Byte) (s : State) :
    ∃ u, Writes (.scanByte b) s u ∧ Ends u (scanByteCount b s) := by
  have hw (n : Word) : Writes (.scanByte b) s { s with count := n } :=
    ⟨s.cursor, s.cursorOvf, [], n, by simp [withCursor]⟩
  simp only [scanByteCount]
  split
  · exact ⟨s, hw s.count, ends_raise ..⟩
  · exact ⟨_, hw _, ends_respond ..⟩

/-- Whatever the state, a command that executes makes its change and ends. -/
theorem commandBody_next {i : Instr} {s t : State} (h : commandBody i s = .next t) :
    ∃ u, Writes i s u ∧ Ends u t := by
  cases i with
  | setStart | setStep | regRd | reset | mapSplit | encBegin | scanBeginList | scanBeginCount | scanEnd =>
    cases h; exact ⟨_, rfl, ends_respond ..⟩
  | srcErr => cases h; exact ⟨_, rfl, ends_raise ..⟩
  | mapToIndex v =>
    simp only [commandBody] at h
    split at h
    · cases h
    all_goals cases h; exact ⟨s, rfl, ends_respond ..⟩
  | mapToValue x =>
    simp only [commandBody] at h
    split at h <;> cases h <;> exact ⟨s, rfl, ends_respond ..⟩
  | encPush v => exact encPush_body_next h
  | encEnd => cases h; exact writeTail_ends _ s
  | scanByte b =>
    cases h
    split
    · exact scanByteList_ends b s
    · exact scanByteCount_ends b s

/-- Whatever the state, a command ends from where it was, refused, or executes its change and ends. -/
theorem exec_next {i : Instr} {s t : State} (h : exec i s = .next t) :
    Ends s t ∨ Executes i s ∧ ∃ u, Writes i s u ∧ Ends u t := by
  rcases exec_cases i s with ⟨-, e, he⟩ | ⟨hx, he⟩ <;> rw [he] at h
  · cases h
    exact .inl (ends_respond ..)
  · exact .inr ⟨hx, commandBody_next h⟩

/-! ### Frames -/

/-- `START`, `STEP` and their set flags are the same (R21, R22). -/
abbrev SameProgression (s t : State) : Prop :=
  t.start = s.start ∧ t.step = s.step ∧ t.startSet = s.startSet ∧ t.stepSet = s.stepSet

/-- `BUF` and the encoder's cursor are the same (R23 to R25, R33). -/
abbrev SameEncoder (s t : State) : Prop :=
  t.buf = s.buf ∧ t.bottom = s.bottom ∧ t.beyond = s.beyond ∧ t.beyondOvf = s.beyondOvf ∧ t.prev = s.prev ∧
    t.prevValid = s.prevValid

/-- The scanner's cursor, count, polarity and value stream are the same (R26 to R28, R57). -/
abbrev SameScanner (s t : State) : Prop :=
  t.cursor = s.cursor ∧ t.cursorOvf = s.cursorOvf ∧ t.count = s.count ∧ t.pol = s.pol ∧ t.vals = s.vals

/-- The three histories are those of `s`, with more at their ends (R36). -/
abbrev Grown (s t : State) : Prop := s.out <+: t.out ∧ s.vals <+: t.vals ∧ s.rsp <+: t.rsp

/-- The end of a command is outside the three frames, so what a command does to them its change does. -/
theorem Ends.sameProgression_iff {s u t : State} (h : Ends u t) : SameProgression s t ↔ SameProgression s u := by
  rw [h.frame.1]

theorem Ends.sameEncoder_iff {s u t : State} (h : Ends u t) : SameEncoder s t ↔ SameEncoder s u := by
  rw [h.frame.1]

theorem Ends.sameScanner_iff {s u t : State} (h : Ends u t) : SameScanner s t ↔ SameScanner s u := by
  rw [h.frame.1]

theorem Ends.grown {s u t : State} (h : Ends u t) (hg : Grown s u) : Grown s t := by
  obtain ⟨hout, hvals, hrsp⟩ := hg
  obtain ⟨ht, hend⟩ := h.frame
  rw [ht]
  exact ⟨hout, hvals, hrsp.trans hend⟩

/-- `SET_START` and `SET_STEP` execute in `IDLE` alone (R160, R161). -/
theorem legalIn_setStart {v : Word} {c : Control} : legalIn (.setStart v) c = true ↔ c = .idle := by
  cases c <;> simp [legalIn]

theorem legalIn_setStep {v : Word} {c : Control} : legalIn (.setStep v) c = true ↔ c = .idle := by
  cases c <;> simp [legalIn]

theorem Executes.idle_of_setStart {v : Word} {s : State} (h : Executes (.setStart v) s) : s.control = .idle :=
  legalIn_setStart.1 h.1

theorem Executes.idle_of_setStep {v : Word} {s : State} (h : Executes (.setStep v) s) : s.control = .idle :=
  legalIn_setStep.1 h.1

/-- Outside `IDLE` only `RESET` has a change that reaches the Progression. -/
theorem Writes.sameProgression {i : Instr} {s u : State} (h : Writes i s u) (hx : Executes i s)
    (hc : s.control ≠ .idle) (hr : i ≠ .reset) : SameProgression s u := by
  cases i with
  | setStart v => exact absurd hx.idle_of_setStart hc
  | setStep v => exact absurd hx.idle_of_setStep hc
  | reset => exact absurd rfl hr
  | encPush v => obtain rfl | ⟨b, y, f, a, d, o, m, rfl⟩ := h <;> exact ⟨rfl, rfl, rfl, rfl⟩
  | encEnd => obtain ⟨a, d, o, rfl⟩ := h; exact ⟨rfl, rfl, rfl, rfl⟩
  | scanByte b => obtain ⟨c, o, v, n, rfl⟩ := h; exact ⟨rfl, rfl, rfl, rfl⟩
  | regRd | srcErr | mapToIndex | mapToValue | mapSplit | encBegin | scanBeginList | scanBeginCount | scanEnd =>
    cases h; exact ⟨rfl, rfl, rfl, rfl⟩

/-- Only the encoder's own commands and `RESET` have a change that reaches the encoder. -/
theorem Writes.sameEncoder {i : Instr} {s u : State} (h : Writes i s u) (hb : i ≠ .encBegin)
    (hp : ∀ v, i ≠ .encPush v) (hr : i ≠ .reset) : SameEncoder s u := by
  cases i with
  | reset => exact absurd rfl hr
  | encBegin => exact absurd rfl hb
  | encPush v => exact absurd rfl (hp v)
  | encEnd => obtain ⟨a, d, o, rfl⟩ := h; exact ⟨rfl, rfl, rfl, rfl, rfl, rfl⟩
  | scanByte b => obtain ⟨c, o, v, n, rfl⟩ := h; exact ⟨rfl, rfl, rfl, rfl, rfl, rfl⟩
  | setStart | setStep | regRd | srcErr | mapToIndex | mapToValue | mapSplit | scanBeginList | scanBeginCount
  | scanEnd => cases h; exact ⟨rfl, rfl, rfl, rfl, rfl, rfl⟩

/-- Only the scanner's own commands and `RESET` have a change that reaches the scanner. -/
theorem Writes.sameScanner {i : Instr} {s u : State} (h : Writes i s u) (hl : ∀ p, i ≠ .scanBeginList p)
    (hn : ∀ p, i ≠ .scanBeginCount p) (hb : ∀ b, i ≠ .scanByte b) (hr : i ≠ .reset) : SameScanner s u := by
  cases i with
  | reset => exact absurd rfl hr
  | scanBeginList p => exact absurd rfl (hl p)
  | scanBeginCount p => exact absurd rfl (hn p)
  | scanByte b => exact absurd rfl (hb b)
  | encPush v => obtain rfl | ⟨b, y, f, a, d, o, m, rfl⟩ := h <;> exact ⟨rfl, rfl, rfl, rfl, rfl⟩
  | encEnd => obtain ⟨a, d, o, rfl⟩ := h; exact ⟨rfl, rfl, rfl, rfl, rfl⟩
  | setStart | setStep | regRd | srcErr | mapToIndex | mapToValue | mapSplit | encBegin | scanEnd =>
    cases h; exact ⟨rfl, rfl, rfl, rfl, rfl⟩

/-! ### Histories -/

theorem Grown.refl (s : State) : Grown s s := ⟨List.prefix_rfl, List.prefix_rfl, List.prefix_rfl⟩

/-- No change of a command takes anything out of a history: bursts and values are appended. -/
theorem Writes.grown {i : Instr} {s u : State} (h : Writes i s u) : Grown s u := by
  cases i with
  | encPush v =>
    obtain rfl | ⟨b, y, f, a, d, o, m, rfl⟩ := h
    · exact .refl u
    · exact ⟨List.prefix_append s.out o, List.prefix_rfl, List.prefix_rfl⟩
  | encEnd => obtain ⟨a, d, o, rfl⟩ := h; exact ⟨List.prefix_append s.out o, List.prefix_rfl, List.prefix_rfl⟩
  | scanByte b =>
    obtain ⟨c, o, v, n, rfl⟩ := h; exact ⟨List.prefix_rfl, List.prefix_append s.vals v, List.prefix_rfl⟩
  | setStart | setStep | regRd | reset | srcErr | mapToIndex | mapToValue | mapSplit | encBegin | scanBeginList
  | scanBeginCount | scanEnd => cases h; exact .refl s

theorem exec_grown {i : Instr} {s t : State} (h : exec i s = .next t) : Grown s t := by
  obtain he | ⟨-, u, hw, he⟩ := exec_next h
  · exact he.grown (.refl s)
  · exact he.grown hw.grown

theorem runWord_grown {w : CommandWord} {s t : State} (h : runWord w s = .next t) : Grown s t := by
  obtain ⟨e, -, he⟩ | ⟨i, -, hi⟩ := runWord_cases w s
  · rw [he] at h
    cases h
    exact (ends_respond ..).grown (.refl s)
  · exact exec_grown (hi ▸ h)

theorem step_grown {s t : State} (h : step s = .next t) : Grown s t := by
  rcases step_cases s with ⟨-, hs⟩ | ⟨rest, -, hs⟩ | ⟨w, rest, -, hs⟩ | ⟨w, n, rest, -, hs⟩ <;> rw [hs] at h
  · cases h; exact .refl s
  · cases h; exact .refl s
  · exact runWord_grown (s := { s with port := rest }) h
  · obtain ⟨u, -, rfl⟩ := cutShort_next h
    exact ⟨prefix_gainUpTo .., prefix_gainUpTo .., List.prefix_rfl⟩

/-! ### The statements on what is written -/

/-- Settles O52: `SET_START` and `SET_STEP` are refused outside `IDLE`. -/
theorem progressionIsFixedWhileAStreamIsOpen : Obligations.ProgressionIsFixedWhileAStreamIsOpen := by
  intro i s t hc hr h
  obtain he | ⟨hx, u, hw, he⟩ := exec_next h
  · exact he.sameProgression_iff.2 ⟨rfl, rfl, rfl, rfl⟩
  · exact he.sameProgression_iff.2 (hw.sameProgression hx hc hr)

/-- Settles O53: every command appends to the histories, and both resets keep them. -/
theorem historiesOnlyGrow : Obligations.HistoriesOnlyGrow :=
  fun _ _ h => step_grown h

/-- Settles O55, by the change each command makes. -/
theorem onlyTheEncoderWritesItsState : Obligations.OnlyTheEncoderWritesItsState := by
  intro i s t hb hp hr h
  obtain he | ⟨-, u, hw, he⟩ := exec_next h
  · exact he.sameEncoder_iff.2 ⟨rfl, rfl, rfl, rfl, rfl, rfl⟩
  · exact he.sameEncoder_iff.2 (hw.sameEncoder hb hp hr)

/-- Settles O56, by the change each command makes. -/
theorem onlyTheScannerWritesItsState : Obligations.OnlyTheScannerWritesItsState := by
  intro i s t hl hn hb hr h
  obtain he | ⟨-, u, hw, he⟩ := exec_next h
  · exact he.sameScanner_iff.2 ⟨rfl, rfl, rfl, rfl, rfl⟩
  · exact he.sameScanner_iff.2 (hw.sameScanner hl hn hb hr)

end Sys2Proof.Machine
end

section
/-! The registers as they read: `STATUS` bit by bit (R31), the state after reset (R32, R38), and the two resets
(R163, R210). -/

namespace Sys2Proof.Machine

/-! ### `STATUS` -/

theorem statusWord_control (s : State) : (statusWord s).extractLsb' 0 3 = s.control.code :=
  BitVec.extractLsb'_append_eq_right

theorem statusWord_pol (s : State) : (statusWord s).extractLsb' 9 2 = s.pol := by
  unfold statusWord
  iterate 7 rw [BitVec.extractLsb'_append_eq_of_le (by decide)]
  exact BitVec.extractLsb'_append_eq_right

theorem statusWord_above_pol (s : State) : (statusWord s).extractLsb' 11 53 = 0 := by
  unfold statusWord
  iterate 7 rw [BitVec.extractLsb'_append_eq_of_le (by decide)]
  exact BitVec.extractLsb'_append_eq_left

/-- Bits 3 to 8: the reserved bit, then the flags in the order of R31. -/
theorem statusWord_flag (s : State) {k : Nat} (hlow : 3 ≤ k) (hhigh : k ≤ 8) :
    (statusWord s).getLsbD k =
      [false, s.startSet, s.stepSet, s.prevValid, s.beyondOvf, s.cursorOvf].getD (k - 3) false := by
  unfold statusWord
  iterate 8 rw [BitVec.getLsbD_append]
  interval_cases k <;> simp

/-- Settles O17: the view is its fields laid end to end. -/
theorem statusWordHasItsLayout : Obligations.StatusWordHasItsLayout := by
  intro s
  refine ⟨?_, ?_, ?_, ?_, ?_, ?_, ?_, statusWord_pol s, statusWord_above_pol s⟩
  · rw [statusWord_control]
    cases s.control <;> rfl
  all_goals exact statusWord_flag s (by decide) (by decide)

/-! ### Resets -/

/-- `RESET` executes in every state (R163, R166). -/
theorem exec_reset (s : State) : exec .reset s = .next (respond .ok 0 0 (resetBlock s)) :=
  exec_run rfl nofun rfl

/-- `REG_RD` of a register number answers it in every state (R162). -/
theorem exec_regRd {r : Word} (hr : r.toNat ≤ 10) (s : State) :
    exec (.regRd r) s = .next (respond .ok ((readRegister r.toNat s).getD 0) 0 s) :=
  exec_run rfl nofun (decide_eq_true hr)

/-- Settles O18, by the fields of the reset block. -/
theorem resetCommandRestoresTheResetValues : Obligations.ResetCommandRestoresTheResetValues :=
  fun s => ⟨respond .ok 0 0 (resetBlock s), exec_reset s, by simp⟩

/-- The draw of `B` is in the range of R7. -/
theorem implementation_legal : Config.implementation.Legal := by
  have := Nat.mod_lt Config.capacityDraw (show 2 ^ 61 - 1 > 0 by decide)
  simp only [Config.Legal, Config.implementation]
  omega

/-- The registers 0 to 9 read 0 after reset (R32, R38). -/
theorem readRegister_reset {r : Nat} (hr : r < 10) : readRegister r State.reset = some 0 := by
  interval_cases r <;> rfl

/-- Settles O46, by the register numbers. -/
theorem resetStateReadsAsTheSpecSays : Obligations.ResetStateReadsAsTheSpecSays := by
  refine ⟨rfl, rfl, rfl, implementation_legal, fun r hr => ?_, exec_regRd (le_refl 10) _⟩
  rw [exec_regRd hr.le, readRegister_reset hr]
  rfl

/-- Settles O47: the state after reset is a reset block with a legal capacity. -/
theorem resetStateMeetsTheInvariant : Obligations.ResetStateMeetsTheInvariant :=
  inv_resetBlock (s := { State.reset with draws := 0 }) implementation_legal

/-! ### The reset input during a command -/

theorem step_resetDuring {s : State} {w : CommandWord} {n : Nat} {rest : List PortEvent}
    (h : s.port = .resetDuring w n :: rest) :
    step s = cutShort n { s with port := rest } (runWord w { s with port := rest }) := by
  simp [step, takeEvent, h]

/-- A history cut short is as long as the cut allows. -/
theorem gainUpTo_length {α : Type} (n : Nat) {before after : List α} (h : before <+: after) :
    (gainUpTo n before after).length = min (before.length + n) after.length := by
  obtain ⟨gain, rfl⟩ := h
  simp [gainUpTo]

/-- Settles O57: the command alone would complete in some `u`, whose histories are cut. -/
theorem resetInputCutsACommandShort : Obligations.ResetInputCutsACommandShort := by
  intro s w n rest hinv hport
  obtain ⟨u, hu⟩ := runWord_completes (hinv.withPort rest) w
  obtain ⟨hout, hvals, -⟩ := runWord_grown hu
  refine ⟨u, ⟨.unspecified u.draws, []⟩, u.draws + 1, gainUpTo n s.out u.out, gainUpTo n s.vals u.vals,
    (step_command rfl).trans hu, ⟨gainUpTo_prefix n hout, gainUpTo_length n hout⟩,
    ⟨gainUpTo_prefix n hvals, gainUpTo_length n hvals⟩, ?_⟩
  rw [step_resetDuring hport, hu]
  rfl

end Sys2Proof.Machine
end

section
/-! Every step keeps the invariant of the reachable states (R39, R210): a lemma for each state a command can lead
to, a lemma for each command, and the step. -/

namespace Sys2Proof.Machine

/-! ### `ENC_PUSH`: the state with the bit of an accepted value set -/

/-- What an accepted push whose bursts are all taken leaves of the block: `PREV` written, the window `m` windows
further on, and the value's bit set there (R121 to R124). -/
def pushedBlock (v : Word) (m : Nat) (s : State) : State :=
  { acceptValue v (windowBy m s) with
    buf := (bufAfterFlush m s).setBit (windowIndex (s64 v) (windowBy m s) / 8)
      (windowIndex (s64 v) (windowBy m s) % 8) }

/-- The placed bit is the one of `pushedBlock`, behind whatever the bursts did to the sink's side. -/
theorem placeBit_pushedBlock {v : Word} {m : Nat} {s : State} {a : List SinkAnswer} {d : Nat} {o : List Byte}
    (hs : 0 < s64 s.step) (hlow : s64 (windowBy m s).bottom ≤ s64 v)
    (hhigh : s64 v < s64 (windowBy m s).bottom + span s) :
    placeBit (s64 v) m (withSink a d o (acceptValue v (windowBy m s))) =
      .next (respond .ok (BitVec.ofNat 64 m) 0 (withSink a d o (pushedBlock v m s))) := by
  refine (placeBit_eq (s := withSink a d o (acceptValue v (windowBy m s))) m hs hlow hhigh).trans ?_
  cases m <;> rfl

theorem windowIndex_mono {x y : Int} {s : State} (hs : 0 < s64 s.step) (h : x ≤ y) :
    windowIndex x s ≤ windowIndex y s :=
  Int.toNat_le_toNat (Int.ediv_le_ediv hs (by omega))

theorem bufAfterFlush_wf {s : State} (h : s.buf.wf) (m : Nat) : (bufAfterFlush m s).wf := by
  unfold bufAfterFlush
  split
  · exact h
  · exact Memory.zeros_wf

theorem bufAfterFlush_fill {s : State} (h : s.buf.fill = .zeros) (m : Nat) : (bufAfterFlush m s).fill = .zeros := by
  unfold bufAfterFlush
  split
  · exact h
  · rfl

theorem bufAfterFlush_bound {s : State} (h : ∀ c ∈ s.buf.cells, c.1 < s.cfg.bufSize) (m : Nat) :
    ∀ c ∈ (bufAfterFlush m s).cells, c.1 < s.cfg.bufSize := by
  unfold bufAfterFlush
  split
  · exact h
  · simp

/-- The bits already set lie at or below the bit of an accepted value (R39 (d)). -/
theorem EncInv.bufBit_le {v : Word} {m k : Nat} {s : State} (h : EncInv s) (hs : 0 < s64 s.step)
    (ha : Accepted v s) (hk : bufBit (bufAfterFlush m s) k = true) :
    k ≤ windowIndex (s64 v) (windowBy m s) := by
  cases m with
  | succ m => simp [bufAfterFlush] at hk
  | zero =>
    rw [windowBy_zero h.pair]
    rw [bufAfterFlush, if_pos rfl] at hk
    cases hp : s.prevValid with
    | false => rw [(h.noneYet hp).1, bufBit_zeros] at hk; cases hk
    | true => exact (h.highest hp k hk).trans (windowIndex_mono hs (le_of_lt (ha.1 hp)))

/-- A value below the exact end of the window is below `BEYOND`, or that end has overflowed (R24, R128). -/
theorem WindowPair.overflow_or_lt {v : Word} {s : State} (h : WindowPair s) (hp : 0 ≤ span s)
    (hv : s64 v < s64 s.bottom + span s) : s.beyondOvf = true ∨ s64 v < s64 s.beyond := by
  have hb := minInt_le_s64 s.bottom
  by_cases ho : maxInt < s64 s.bottom + span s
  · exact .inl (by rw [h.2, decide_eq_true ho])
  · exact .inr (by rwa [h.1, s64_wrap64 (by omega) (by omega)])

/-- A push keeps what R39 (b) to (d) say of the stream: the window has moved by whole spans and holds the value,
whose bit is the highest one set. -/
theorem EncInv.pushedBlock {v : Word} {s : State} (h : EncInv s) (hc : s.cfg.Legal) (hs : 1 ≤ s64 s.step)
    (hwf : s.buf.wf) (ha : Accepted v s) : EncInv (pushedBlock v (windowsAbove (s64 v) s) s) := by
  obtain ⟨hbottom, hpair, hlow, hhigh⟩ := windowBy_reached hc hs (h.bottom_le ha)
  have hspan := span_pos hc hs
  obtain ⟨w, hw⟩ := h.window
  generalize windowsAbove (s64 v) s = m at *
  have hbit := bufBit_setBit (bufAfterFlush_wf hwf m) (windowIndex (s64 v) (windowBy m s))
  exact {
    configured := h.configured
    fill := bufAfterFlush_fill h.fill m
    window := ⟨w + m, by
      show s64 (windowBy m s).bottom = s64 s.start + (w + m : Nat) * span s
      rw [hbottom, hw]; push_cast; ring⟩
    overflow := hpair.2
    beyond := hpair.1
    prevLow := fun _ => hlow
    prevGrid := fun _ => ha.2.2
    prevHigh := fun _ => hpair.overflow_or_lt (by rw [windowBy_span]; omega) hhigh
    noneYet := fun hn => by cases hn
    prevBit := fun _ => (hbit _).trans (Bool.or_eq_true_iff.2 (.inr (decide_eq_true rfl)))
    highest := fun _ k hk => by
      rcases Bool.or_eq_true_iff.1 ((hbit k).symm.trans hk) with hk | hk
      · exact h.bufBit_le (by omega) ha hk
      · exact (of_decide_eq_true hk).le }

/-- The state a push with all its bursts taken leads to. -/
theorem Inv.pushedBlock {v : Word} {s : State} (h : Inv s) (he : s.control = .enc) (ha : Accepted v s) :
    Inv (pushedBlock v (windowsAbove (s64 v) s) s) := by
  have hs := h.step_pos he
  have henc := h.enc he
  obtain ⟨-, -, hlow, hhigh⟩ := windowBy_reached h.capacity hs (henc.bottom_le ha)
  have hidx := windowIndex_lt (s := windowBy _ s) (show 0 < s64 s.step by omega) hlow hhigh
  exact {
    capacity := h.capacity
    bufWf := Memory.setBit_wf (bufAfterFlush_wf h.bufWf _) _ _
    bufBound := Memory.setBit_bound (bufAfterFlush_bound h.bufBound _)
      (Nat.div_lt_of_lt_mul hidx)
    stepPositive := h.stepPositive
    enc := fun _ => henc.pushedBlock h.capacity hs h.bufWf ha
    list := fun hl => by rw [show s.control = .list from hl] at he; cases he
    polarity := h.polarity
    faultCode := h.faultCode
    faultCodes := h.faultCodes
    faultInfo := h.faultInfo }

/-- The sink's side is no part of the invariant. -/
theorem Inv.withSink {s : State} (h : Inv s) (a : List SinkAnswer) (d : Nat) (o : List Byte) :
    Inv (withSink a d o s) :=
  inv_of_frame h rfl rfl rfl rfl rfl rfl rfl rfl rfl rfl rfl rfl rfl rfl rfl rfl rfl

/-! ### Outside the streams -/

/-- What R39 says of a state whatever its control state and fault registers are. -/
abbrev CommonInv (s : State) : Prop :=
  s.cfg.Legal ∧ s.buf.wf ∧ (∀ c ∈ s.buf.cells, c.1 < s.cfg.bufSize) ∧ (s.stepSet = true → 1 ≤ s64 s.step) ∧
    s.pol.toNat ≤ 2

theorem Inv.common {s : State} (h : Inv s) : CommonInv s :=
  ⟨h.capacity, h.bufWf, h.bufBound, h.stepPositive, h.polarity⟩

theorem CommonInv.raise {s : State} (h : CommonInv s) (f : FaultCause) (info : Int) : Inv (raise f info s) := by
  obtain ⟨hcap, hwf, hbound, hstep, hpol⟩ := h
  exact inv_raise f info hcap hwf hbound hstep hpol

/-- No fault is recorded (R39 (g)). -/
abbrev NoFault (s : State) : Prop := s.fcode = 0 ∧ s.finfo = 0

theorem Inv.noFault {s : State} (h : Inv s) (hc : s.control ≠ .fault) : NoFault s :=
  ⟨h.fcode_zero hc, h.faultInfo (h.fcode_zero hc)⟩

/-- In `IDLE` and in a count scan R39 adds only that no fault is recorded. -/
theorem CommonInv.quiet {s : State} (h : CommonInv s) (hf : NoFault s) (hc : s.control = .idle ∨ s.control = .count) :
    Inv s := by
  obtain ⟨hcap, hwf, hbound, hstep, hpol⟩ := h
  obtain ⟨hcode, hinfo⟩ := hf
  refine inv_quiet hcap hwf hbound hstep hpol ?_ ?_ ?_ ?_ fun _ => hinfo
  all_goals rcases hc with hc | hc <;> simp [hc, hcode]

/-- The end of a command keeps the invariant (R183). -/
theorem Ends.inv {u t : State} (h : Ends u t) (hu : Inv u) : Inv t := by
  rcases h with ⟨st, p, q, rfl⟩ | ⟨f, info, rfl⟩
  · exact hu.respond st p q
  · exact hu.common.raise f info

/-! ### Each command -/

theorem legalIn_encPush {v : Word} {c : Control} : legalIn (.encPush v) c = true ↔ c = .enc := by
  cases c <;> simp [legalIn]

/-- The commands that execute in `FAULT` are `REG_RD` and `RESET` (R166). -/
theorem legalIn_fault {i : Instr} (h : legalIn i .fault = true) : i = .reset ∨ ∃ r, i = .regRd r := by
  cases i <;> simp [legalIn] at h ⊢

theorem Executes.noFault {i : Instr} {s : State} (hx : Executes i s) (h : Inv s) (hr : i ≠ .reset)
    (hrd : ∀ r, i ≠ .regRd r) : NoFault s := by
  refine h.noFault fun hc => ?_
  obtain hi | ⟨r, hi⟩ := legalIn_fault (hc ▸ hx.1)
  · exact hr hi
  · exact hrd r hi

/-- `ENC_BEGIN` opens the stream R39 (b) to (d) describe: the first window, no value yet, a zero buffer (R120). -/
theorem encBegin_keeps_inv {s u : State} (h : Inv s) (hx : Executes .encBegin s) (hw : Writes .encBegin s u) :
    Inv u := by
  obtain ⟨hcode, -⟩ := hx.noFault h nofun nofun
  cases hw
  exact {
    capacity := h.capacity
    bufWf := Memory.zeros_wf
    bufBound := by simp
    stepPositive := h.stepPositive
    enc := fun _ => {
      configured := hx.2.1 rfl
      fill := rfl
      window := ⟨0, by simp⟩
      overflow := rfl
      beyond := rfl
      prevLow := nofun
      prevGrid := nofun
      prevHigh := nofun
      noneYet := fun _ => ⟨rfl, rfl⟩
      prevBit := nofun
      highest := nofun }
    list := nofun
    polarity := h.polarity
    faultCode := by simp [hcode]
    faultCodes := h.faultCodes
    faultInfo := h.faultInfo }

/-- `SCAN_BEGIN_LIST` puts the cursor on `START` (R26, R140). -/
theorem scanBeginList_keeps_inv {p : BitVec 2} {s u : State} (h : Inv s) (hx : Executes (.scanBeginList p) s)
    (hw : Writes (.scanBeginList p) s u) : Inv u := by
  obtain ⟨hcode, -⟩ := hx.noFault h nofun nofun
  have hp : p.toNat < 2 := of_decide_eq_true hx.2.2
  have hs := s64_le_maxInt s.start
  cases hw
  exact {
    capacity := h.capacity
    bufWf := h.bufWf
    bufBound := h.bufBound
    stepPositive := h.stepPositive
    enc := nofun
    list := fun _ => {
      configured := hx.2.1 rfl
      polarity := Nat.le_of_lt_succ hp
      cursor := ⟨0, by simp, by simpa using hs⟩ }
    polarity := hp.le
    faultCode := by simp [hcode]
    faultCodes := h.faultCodes
    faultInfo := h.faultInfo }

/-- `SCAN_BEGIN_COUNT` (R141). -/
theorem scanBeginCount_keeps_inv {p : BitVec 2} {s u : State} (h : Inv s) (hx : Executes (.scanBeginCount p) s)
    (hw : Writes (.scanBeginCount p) s u) : Inv u := by
  obtain ⟨hcap, hwf, hbound, hstep, -⟩ := h.common
  have hp : p.toNat < 3 := of_decide_eq_true hx.2.2
  have hf := hx.noFault h nofun nofun
  cases hw
  exact CommonInv.quiet ⟨hcap, hwf, hbound, hstep, Nat.le_of_lt_succ hp⟩ hf (.inr rfl)

/-- `SET_STEP` loads a positive step alone (R161). -/
theorem setStep_keeps_inv {v : Word} {s u : State} (h : Inv s) (hx : Executes (.setStep v) s)
    (hw : Writes (.setStep v) s u) : Inv u := by
  obtain ⟨hcap, hwf, hbound, -, hpol⟩ := h.common
  have hv : 0 < v.toInt := of_decide_eq_true hx.2.2
  have hf := hx.noFault h nofun nofun
  cases hw
  exact CommonInv.quiet ⟨hcap, hwf, hbound, fun _ => hv, hpol⟩ hf (.inl hx.idle_of_setStep)

/-- `SET_START` is refused while the window or the cursor rests on `START` (R160). -/
theorem setStart_keeps_inv {v : Word} {s u : State} (h : Inv s) (hx : Executes (.setStart v) s)
    (hw : Writes (.setStart v) s u) : Inv u := by
  have hf := hx.noFault h nofun nofun
  cases hw
  exact CommonInv.quiet h.common hf (.inl hx.idle_of_setStart)

/-- A push keeps the invariant: it changes nothing, faults short of the value's window, or sets the value's bit
there (R121, R127). -/
theorem encPush_keeps_inv {v : Word} {s t : State} (h : Inv s) (hx : Executes (.encPush v) s)
    (hb : commandBody (.encPush v) s = .next t) : Inv t := by
  have he : s.control = .enc := legalIn_encPush.1 hx.1
  have hs := h.step_pos he
  have henc := h.enc he
  simp only [commandBody] at hb
  obtain ⟨st, hg⟩ | ⟨ha, hg⟩ := guardValue_cases (v := v) (s := s) (by omega) <;> rw [hg] at hb
  · cases hb
    exact h.respond ..
  · have hlow := henc.bottom_le ha
    obtain ⟨m, a, d, o, ⟨-, hpush⟩ | ⟨rfl, hpush⟩⟩ := pushAccepted_cases henc.pair h.capacity hs hlow
    · cases hpush.symm.trans hb
      refine CommonInv.raise ?_ ..
      exact h.common
    · obtain ⟨-, -, hlow', hhigh⟩ := windowBy_reached h.capacity hs hlow
      cases (placeBit_pushedBlock (by omega) hlow' hhigh).symm.trans (hpush.symm.trans hb)
      exact ((h.pushedBlock he ha).withSink ..).respond ..

/-- The cursor moves on inside the invariant (R26, R142). -/
theorem Inv.cursorBy {s : State} (h : Inv s) (hl : s.control = .list) (j : Nat) (o : List Int) :
    Inv (cursorBy j o s) := by
  have hs := h.stepPositive (h.list hl).configured.2
  exact {
    capacity := h.capacity
    bufWf := h.bufWf
    bufBound := h.bufBound
    stepPositive := h.stepPositive
    enc := fun he => by rw [show s.control = .enc from he] at hl; cases hl
    list := fun _ => (h.list hl).cursorBy j o (by omega)
    polarity := h.polarity
    faultCode := h.faultCode
    faultCodes := h.faultCodes
    faultInfo := h.faultInfo }

theorem scanByteList_keeps_inv {b : Byte} {s : State} (h : Inv s) (hl : s.control = .list) :
    Inv (scanByteList b s) := by
  have hs := h.stepPositive (h.list hl).configured.2
  obtain ⟨j, n, fb, o, he⟩ := listBits_cursorBy b (s := s) (by omega)
  have hj := h.cursorBy hl j o
  simp only [scanByteList, he]
  split
  · exact hj.common.raise ..
  · exact hj.respond ..

theorem Inv.withCount {s : State} (h : Inv s) (n : Word) : Inv { s with count := n } :=
  inv_of_frame h rfl rfl rfl rfl rfl rfl rfl rfl rfl rfl rfl rfl rfl rfl rfl rfl rfl

theorem scanByteCount_keeps_inv {b : Byte} {s : State} (h : Inv s) : Inv (scanByteCount b s) := by
  simp only [scanByteCount]
  split
  · exact h.common.raise ..
  · exact (h.withCount _).respond ..

/-- R39: a command that executes leads from the invariant to the invariant. -/
theorem commandBody_keeps_inv {i : Instr} {s t : State} (h : Inv s) (hx : Executes i s)
    (hb : commandBody i s = .next t) : Inv t := by
  obtain ⟨u, hw, he⟩ := commandBody_next hb
  cases i with
  | setStart v => exact he.inv (setStart_keeps_inv h hx hw)
  | setStep v => exact he.inv (setStep_keeps_inv h hx hw)
  | regRd | srcErr | mapToIndex | mapToValue | mapSplit => cases hw; exact he.inv h
  | reset => cases hw; exact he.inv (inv_resetBlock h.capacity)
  | encBegin => exact he.inv (encBegin_keeps_inv h hx hw)
  | encPush v => exact encPush_keeps_inv h hx hb
  | encEnd =>
    have hf := hx.noFault h nofun nofun
    obtain ⟨a, d, o, rfl⟩ := hw
    exact he.inv (CommonInv.quiet h.common hf (.inl rfl))
  | scanBeginList p => exact he.inv (scanBeginList_keeps_inv h hx hw)
  | scanBeginCount p => exact he.inv (scanBeginCount_keeps_inv h hx hw)
  | scanByte b =>
    cases hb
    split
    · next hl => exact scanByteList_keeps_inv h hl
    · exact scanByteCount_keeps_inv h
  | scanEnd =>
    have hf := hx.noFault h nofun nofun
    cases hw
    exact he.inv (CommonInv.quiet h.common hf (.inl rfl))

/-! ### The step -/

theorem exec_keeps_inv {i : Instr} {s t : State} (h : Inv s) (ht : exec i s = .next t) : Inv t := by
  obtain ⟨-, e, he⟩ | ⟨hx, he⟩ := exec_cases i s <;> rw [he] at ht
  · cases ht
    exact h.respond ..
  · exact commandBody_keeps_inv h hx ht

theorem runWord_keeps_inv {w : CommandWord} {s t : State} (h : Inv s) (ht : runWord w s = .next t) : Inv t := by
  obtain ⟨e, -, he⟩ | ⟨i, -, hi⟩ := runWord_cases w s
  · rw [he] at ht
    cases ht
    exact h.respond ..
  · exact exec_keeps_inv h (hi ▸ ht)

theorem step_keeps_inv {s t : State} (h : Inv s) (ht : step s = .next t) : Inv t := by
  rcases step_cases s with ⟨-, hs⟩ | ⟨rest, -, hs⟩ | ⟨w, rest, -, hs⟩ | ⟨w, n, rest, -, hs⟩ <;> rw [hs] at ht
  · cases ht; exact h
  · cases ht; exact inv_resetBlock h.capacity
  · exact runWord_keeps_inv (h.withPort rest) ht
  · obtain ⟨u, -, rfl⟩ := cutShort_next ht
    exact inv_resetBlock h.capacity

/-- Settles O48, by the event on the port and the command it holds. -/
theorem everyStepKeepsTheInvariant : Obligations.EveryStepKeepsTheInvariant :=
  fun _ _ h ht => step_keeps_inv h ht

end Sys2Proof.Machine
end

section
/-! The decoder and the encoder (R70 to R74): a word decodes to a command exactly when it is the word of that
command, and exactly the words of the opcode table are words of commands. -/

namespace Sys2Proof

/-! ### The formats with must-be-zero bits -/

/-- Format Z accepts the operand 0 alone (R71). -/
theorem decodeZ_eq_ok_iff {op : Byte} {x : Word} {i j : Instr} : decodeZ op x i = .ok j ↔ x = 0 ∧ i = j := by
  unfold decodeZ
  split
  · next h => simp [h]
  · next h => exact ⟨nofun, fun hx => absurd hx.1 h⟩

/-- Format O accepts the widened octets (R71). -/
theorem decodeO_eq_ok_iff {op : Byte} {x : Word} {f : Byte → Instr} {j : Instr} :
    decodeO op x f = .ok j ↔ ∃ b : Byte, x = b.setWidth 64 ∧ f b = j := by
  unfold decodeO
  constructor
  · intro hj
    split at hj
    · next hx => exact ⟨_, (setWidth_extractLsb' rfl hx).symm, Except.ok.inj hj⟩
    · cases hj
  · rintro ⟨b, rfl, rfl⟩
    obtain ⟨-, -, hlow, hhigh⟩ := setWidth_fields 0 b
    rw [if_pos hhigh, hlow]

/-- Format P accepts the widened polarities (R71). -/
theorem decodeP_eq_ok_iff {op : Byte} {x : Word} {f : BitVec 2 → Instr} {j : Instr} :
    decodeP op x f = .ok j ↔ ∃ p : BitVec 2, x = p.setWidth 64 ∧ f p = j := by
  unfold decodeP
  constructor
  · intro hj
    split at hj
    · next hx => exact ⟨_, (setWidth_extractLsb' rfl hx).symm, Except.ok.inj hj⟩
    · cases hj
  · rintro ⟨p, rfl, rfl⟩
    obtain ⟨hlow, hhigh, -⟩ := setWidth_fields p 0
    rw [if_pos hhigh, hlow]

/-! ### Decoding and encoding are inverse -/

/-- The decoder takes back what the encoder laid into a word (R71, R73). -/
theorem decode_encode (i : Instr) : decode (encode i) = .ok i := by
  cases i with
  | setStart | setStep | regRd | mapToIndex | mapToValue | mapSplit | encPush => simp [encode, decode]
  | reset | srcErr | encBegin | encEnd | scanEnd => simp [encode, decode, decodeZ_eq_ok_iff]
  | scanBeginList | scanBeginCount => simp [encode, decode, decodeP_eq_ok_iff]
  | scanByte => simp [encode, decode, decodeO_eq_ok_iff]

/-- Whatever the opcode, a word that decodes has the operand its format writes (R71, R74). -/
theorem encode_of_decode {w : CommandWord} {i : Instr} (h : decode w = .ok i) : encode i = w := by
  rw [← commandWord_fields w]
  have hop {n : Nat} (hn : (opcodeField w).toNat = n) : opcodeField w = BitVec.ofNat 8 n := by
    rw [← hn, BitVec.ofNat_toNat, BitVec.setWidth_eq]
  simp only [decode] at h
  split at h
  case h_1 hn | h_2 hn | h_3 hn | h_6 hn | h_7 hn | h_8 hn | h_10 hn =>
    cases h
    rw [hop hn]
    rfl
  case h_4 hn | h_5 hn | h_9 hn | h_11 hn | h_15 hn =>
    obtain ⟨hx, rfl⟩ := decodeZ_eq_ok_iff.1 h
    rw [hx, hop hn]
    rfl
  case h_12 hn | h_13 hn =>
    obtain ⟨p, hx, rfl⟩ := decodeP_eq_ok_iff.1 h
    rw [hx, hop hn]
    rfl
  case h_14 hn =>
    obtain ⟨b, hx, rfl⟩ := decodeO_eq_ok_iff.1 h
    rw [hx, hop hn]
    rfl
  case h_16 => cases h

/-- R70 to R74: the decoder reads `i` from the word of `i` and from no other. -/
theorem decode_eq_ok_iff {w : CommandWord} {i : Instr} : decode w = .ok i ↔ encode i = w :=
  ⟨encode_of_decode, fun h => h ▸ decode_encode i⟩

/-! ### The words of the opcode table -/

/-- The word of every command meets its row (R73). -/
theorem wellFormed_encode (i : Instr) : wordWellFormed (encode i) = true := by
  cases i with
  | setStart v => exact Laws.WordForm.setStart v
  | setStep v => exact Laws.WordForm.setStep v
  | regRd r => exact Laws.WordForm.regRd r
  | reset => exact Laws.WordForm.reset
  | srcErr => exact Laws.WordForm.srcErr
  | mapToIndex v => exact Laws.WordForm.mapToIndex v
  | mapToValue u => exact Laws.WordForm.mapToValue u
  | mapSplit u => exact Laws.WordForm.mapSplit u
  | encBegin => exact Laws.WordForm.encBegin
  | encPush v => exact Laws.WordForm.encPush v
  | encEnd => exact Laws.WordForm.encEnd
  | scanBeginList p => exact Laws.WordForm.scanBeginList p
  | scanBeginCount p => exact Laws.WordForm.scanBeginCount p
  | scanByte b => exact Laws.WordForm.scanByte b
  | scanEnd => exact Laws.WordForm.scanEnd

/-- An operand of format P is its polarity, widened (R71). -/
theorem polarity_of_mask {x : Word} (h : x &&& 0xFFFFFFFFFFFFFFFC = 0) : (x.extractLsb' 0 2).setWidth 64 = x :=
  setWidth_extractLsb' (m := 62) rfl ((extractLsb'_eq_zero_iff rfl polarityMask_bits x).2 h)

/-- An operand of format O is its octet, widened (R71). -/
theorem octet_of_mask {x : Word} (h : x &&& 0xFFFFFFFFFFFFFF00 = 0) : (x.extractLsb' 0 8).setWidth 64 = x :=
  setWidth_extractLsb' (m := 56) rfl ((extractLsb'_eq_zero_iff rfl octetMask_bits x).2 h)

/-- Each row of the table holds only words of its command (R73, R74). -/
theorem exists_encode_of_wellFormed {w : CommandWord} (h : wordWellFormed w = true) : ∃ i, encode i = w := by
  rw [← commandWord_fields w] at h ⊢
  generalize opcodeField w = op, operandField w = x at h ⊢
  simp only [Laws.WordForm.wellFormed_commandWord, Bool.or_eq_true, Bool.and_eq_true, beq_iff_eq, or_assoc] at h
  obtain rfl | rfl | rfl | ⟨rfl, rfl⟩ | ⟨rfl, rfl⟩ | rfl | rfl | rfl | ⟨rfl, rfl⟩ | rfl | ⟨rfl, rfl⟩ | ⟨rfl, hx⟩ |
    ⟨rfl, hx⟩ | ⟨rfl, hx⟩ | ⟨rfl, rfl⟩ := h
  · exact ⟨.setStart x, rfl⟩
  · exact ⟨.setStep x, rfl⟩
  · exact ⟨.regRd x, rfl⟩
  · exact ⟨.reset, rfl⟩
  · exact ⟨.srcErr, rfl⟩
  · exact ⟨.mapToIndex x, rfl⟩
  · exact ⟨.mapToValue x, rfl⟩
  · exact ⟨.mapSplit x, rfl⟩
  · exact ⟨.encBegin, rfl⟩
  · exact ⟨.encPush x, rfl⟩
  · exact ⟨.encEnd, rfl⟩
  · exact ⟨.scanBeginList _, congrArg (commandWord 0x30) (polarity_of_mask hx)⟩
  · exact ⟨.scanBeginCount _, congrArg (commandWord 0x31) (polarity_of_mask hx)⟩
  · exact ⟨.scanByte _, congrArg (commandWord 0x32) (octet_of_mask hx)⟩
  · exact ⟨.scanEnd, rfl⟩

/-- R74: the well-formed words are the words of the commands. -/
theorem exists_decode_iff_wellFormed {w : CommandWord} : (∃ i, decode w = .ok i) ↔ wordWellFormed w = true := by
  simp only [decode_eq_ok_iff]
  refine ⟨?_, exists_encode_of_wellFormed⟩
  rintro ⟨i, rfl⟩
  exact wellFormed_encode i

/-! ### The statements about words -/

/-- Settles O1, by the format of each command. -/
theorem encodedCommandDecodesToItself : Obligations.EncodedCommandDecodesToItself :=
  decode_encode

/-- Settles O2, by the opcode of the word. -/
theorem decodedWordIsTheCommandsWord : Obligations.DecodedWordIsTheCommandsWord :=
  fun _ _ => encode_of_decode

/-- Settles O3: the words that decode are the words of the commands, and so are the words of the table. -/
theorem decoderAcceptsExactlyTheTable : Obligations.DecoderAcceptsExactlyTheTable :=
  fun _ => exists_decode_iff_wellFormed

/-- Settles O4: each word is the word of its command. -/
theorem sampleWordsDecodeAsWritten : Obligations.SampleWordsDecodeAsWritten := by
  refine ⟨?_, ?_, ?_, ?_, ?_, ?_, ?_, ?_⟩ <;> exact decode_eq_ok_iff.2 rfl

end Sys2Proof

namespace Sys2Proof.Machine

/-- Settles O5: the word does not decode, so its step is the refusal (R74). -/
theorem illegalWordIsRefusedInEveryState : Obligations.IllegalWordIsRefusedInEveryState := by
  intro s w rest hport hw
  rw [step_command hport]
  obtain ⟨e, -, hrun⟩ | ⟨i, hi, -⟩ := runWord_cases w { s with port := rest }
  · exact hrun
  · rw [exists_decode_iff_wellFormed.1 ⟨i, hi⟩] at hw
    cases hw

/-- Settles O8: the word is its fields laid end to end. -/
theorem responseWordHoldsItsThreeFields : Obligations.ResponseWordHoldsItsThreeFields := by
  intro st p q
  unfold responseWord
  refine ⟨?_, ?_, BitVec.extractLsb'_append_eq_right, ?_⟩
  · rw [BitVec.extractLsb'_append_eq_of_le (by decide)]
    exact BitVec.extractLsb'_append_eq_left
  · rw [BitVec.extractLsb'_append_eq_of_le (by decide)]
    exact BitVec.extractLsb'_append_eq_right
  · cases st <;> rfl

end Sys2Proof.Machine
end

section
/-! One accepted value inside the live window (R124, R125), and one octet of a list scan without a fault (R142). -/

namespace Sys2Proof.Machine

/-! ### A push inside the live window -/

/-- Setting bit `j` of octet `o`, as an octet reads after it (R124). -/
theorem Memory.read_setBit_at {m : Memory} (h : m.wf) (o j a : Nat) :
    (m.setBit o j).read a = if a = o then m.read a ||| (1 : Byte) <<< j else m.read a := by
  rw [Memory.read_setBit h]
  by_cases ha : a = o
  · rw [if_pos ha, if_pos ha.symm, ha]
  · rw [if_neg ha, if_neg (Ne.symm ha)]

/-- A value below the exact end of the window makes no burst (R122): its bit is set in the live buffer. -/
theorem pushAccepted_inside {v : Int} {s : State} (h : mustFlush v s = false) : pushAccepted v s = placeBit v 0 s := by
  unfold pushAccepted
  rw [flushLoop_stop h]
  rfl

/-- The flush loop stops at a window that ends above the value or past `MAX` (R122). -/
theorem mustFlush_eq_false {v : Int} {s : State} (h : s.beyondOvf = true ∨ v < s64 s.beyond) :
    mustFlush v s = false := by
  rcases h with h | h <;> simp [mustFlush, h]

/-- Settles O28: no burst is made, and the value's index lies in the buffer. -/
theorem pushInsideTheWindowSetsOneBit : Obligations.PushInsideTheWindowSetsOneBit := by
  refine fun v s => ⟨rfl, fun hinv hc ha hin => ?_⟩
  have hs : 0 < s64 s.step := hinv.step_pos hc
  have hlow : s64 s.bottom ≤ s64 v := (hinv.enc hc).bottom_le ha
  have hstop : mustFlush (s64 v) s = false := mustFlush_eq_false hin
  have hhigh : s64 v < s64 s.bottom + span s := by
    have hspan := span_pos hinv.capacity hs
    have hiff := mustFlush_iff (hinv.enc hc).pair (by omega) (s64_le_maxInt v)
    rw [hstop] at hiff
    simpa using hiff
  have hexec : exec (.encPush v) s = placeBit (s64 v) 0 (acceptValue v s) := by
    rw [exec_run (legalIn_encPush.2 hc) nofun rfl]
    simp only [commandBody, guardValue_accepted hs ha]
    exact pushAccepted_inside hstop
  refine ⟨_, hexec.trans (placeBit_eq (s := acceptValue v s) 0 hs hlow hhigh), windowIndex_lt hs hlow hhigh,
    fun a => ?_, rfl⟩
  exact Memory.read_setBit_at hinv.bufWf ..

/-! ### An octet of a list scan -/

/-- Settles O38: all eight bits are gone through, and the cursor is eight bits further on. -/
theorem listOctetEmitsTheMatchingValues : Obligations.ListOctetEmitsTheMatchingValues := by
  refine fun b s => ⟨rfl, fun hc hs hfit => ?_⟩
  have hbits := listBits_all b (s := s) (by omega) 8 0 0 []
  rw [← List.range_eq_range', cursorBy_zero] at hbits
  rw [exec_run (i := .scanByte b) (by rw [hc]; rfl) nofun rfl]
  simp only [commandBody, if_pos hc, scanByteList, hbits hfit, Nat.zero_add, List.nil_append]
  rfl

end Sys2Proof.Machine
end

section
/-! The IndexMapper (R92 to R102): when `toIndex` and `toValue` answer what, that they are inverse to each other,
and the three commands that answer with them. -/

namespace Sys2Proof.Machine

/-! ### Refusals by the tables -/

/-- In `FAULT` a command that the table of R166 does not allow there is refused `ERR_FAULTED` (R184). -/
theorem exec_faulted {i : Instr} {s : State} (hf : s.control = .fault) (hl : legalIn i .fault = false) :
    exec i s = OnlyAnswers .errFaulted s :=
  (exec_eq i s).trans (checked_faulted hf hl)

/-- A command that needs the configuration is refused without it (R167 (4)). -/
theorem exec_unconfigured {i : Instr} {s : State} (hl : legalIn i s.control = true) (hn : needsConfig i = true)
    (hc : ¬ Configured s) : exec i s = OnlyAnswers .errNotConfigured s := by
  rw [exec_eq, hn]
  exact checked_config hl hc

/-- The mapper commands execute in every state but `FAULT` (R166). -/
theorem legalIn_mapToIndex {v : Word} {c : Control} : legalIn (.mapToIndex v) c = true ↔ c ≠ .fault := by
  cases c <;> simp [legalIn]

theorem legalIn_mapToValue {i : Word} {c : Control} : legalIn (.mapToValue i) c = true ↔ c ≠ .fault :=
  legalIn_mapToIndex (v := i)

theorem legalIn_mapSplit {i : Word} {c : Control} : legalIn (.mapSplit i) c = true ↔ c ≠ .fault :=
  legalIn_mapToIndex (v := i)

/-! ### `toIndex`, for a positive step (R94) -/

section ToIndex
variable {start step v : Word} (hd : 0 < s64 step)
include hd

theorem toIndex_eq_belowStart (hv : s64 v < s64 start) : toIndex start step v = some .belowStart := by
  rw [toIndex_of_pos hd, if_pos hv]

theorem toIndex_eq_notRepresentable (hv : s64 start ≤ s64 v) (hr : (s64 v - s64 start) % s64 step ≠ 0) :
    toIndex start step v = some .notRepresentable := by
  rw [toIndex_of_pos hd, if_neg (by omega), if_pos hr]

theorem toIndex_eq_index (hv : s64 start ≤ s64 v) (hr : (s64 v - s64 start) % s64 step = 0) :
    toIndex start step v = some (.index ((s64 v - s64 start) / s64 step).toNat) := by
  rw [toIndex_of_pos hd, if_neg (by omega), if_neg (not_not.2 hr)]

/-- `toIndex` answers `i` for the value `start + i*step` and for no other. -/
theorem toIndex_eq_index_iff {i : Nat} :
    toIndex start step v = some (.index i) ↔ s64 v = s64 start + i * s64 step := by
  constructor
  · intro h
    rw [toIndex_of_pos hd] at h
    split at h
    · cases h
    · next hv =>
      split at h
      · cases h
      · next hr =>
        cases h
        have hq : 0 ≤ (s64 v - s64 start) / s64 step := Int.ediv_nonneg (by omega) hd.le
        have hm := Int.ediv_mul_cancel (Int.dvd_of_emod_eq_zero (not_not.1 hr))
        rw [Int.toNat_of_nonneg hq]
        omega
  · intro hv
    have hi : 0 ≤ i * s64 step := Int.mul_nonneg (Int.natCast_nonneg i) hd.le
    have hdiff : s64 v - s64 start = i * s64 step := by omega
    rw [toIndex_eq_index hd (by omega) (by rw [hdiff, Int.mul_emod_left]), hdiff,
      Int.mul_ediv_cancel _ hd.ne', Int.toNat_natCast]

end ToIndex

/-! ### `toValue` (R95) -/

theorem toValue_eq_none {start step i : Word} (h : maxInt < mad i start step) : toValue start step i = none :=
  if_pos h

theorem toValue_eq_mad {start step i : Word} (h : mad i start step ≤ maxInt) :
    toValue start step i = some (mad i start step) :=
  if_neg (not_lt.2 h)

theorem toValue_eq_some_iff {start step i : Word} {z : Int} :
    toValue start step i = some z ↔ mad i start step = z ∧ mad i start step ≤ maxInt := by
  rw [toValue, Option.ite_none_left_eq_some, Option.some.injEq, not_lt, and_comm]

theorem toValue_isSome_iff {start step i : Word} :
    (toValue start step i).isSome = true ↔ mad i start step ≤ maxInt := by
  simp [Option.isSome_iff_exists, toValue_eq_some_iff]

/-- Going up from `start`, a value that does not exceed `MAX` is a value of 64 bits (R95, R101). -/
theorem s64_wrap64_mad {start step i : Word} (hd : 0 < s64 step) (h : mad i start step ≤ maxInt) :
    s64 (wrap64 (mad i start step)) = mad i start step := by
  have hlow := minInt_le_s64 start
  have hi : 0 ≤ u64 i * s64 step := Int.mul_nonneg (Int.natCast_nonneg _) hd.le
  exact s64_wrap64 (by unfold mad; omega) h

/-! ### The two functions against each other (R97) -/

/-- Settles O24: both functions relate the index `i` to the exact value `start + i*step`. -/
theorem indexAndValueAreInverseBijections : Obligations.IndexAndValueAreInverseBijections := by
  intro start step hstep
  have hd : 0 < s64 step := by omega
  refine ⟨fun v i h => ?_, fun i z h => ?_, fun v v' i i' h h' => ?_, fun i => ?_⟩
  · have hi := toIndex_lt h
    have hv := (toIndex_eq_index_iff hd).1 h
    have hmad : mad (BitVec.ofNat 64 i) start step = s64 v := by rw [mad, u64_ofNat hi, hv]
    exact ⟨hi, toValue_eq_some_iff.2 ⟨hmad, hmad ▸ s64_le_maxInt v⟩⟩
  · obtain ⟨rfl, hmax⟩ := toValue_eq_some_iff.1 h
    exact (toIndex_eq_index_iff hd).2 (s64_wrap64_mad hd hmax)
  · rw [(toIndex_eq_index_iff hd).1 h, (toIndex_eq_index_iff hd).1 h', Int.add_lt_add_iff_left,
      Int.mul_lt_mul_right hd, Int.ofNat_lt]
  · rw [toValue_isSome_iff, Int.le_ediv_iff_mul_le hd, mad]
    omega

/-! ### The commands -/

/-- Settles O21, by the three answers of `toIndex`. -/
theorem toIndexAnswersTheExactIndex : Obligations.ToIndexAnswersTheExactIndex := by
  refine fun v s => ⟨rfl, fun hf => exec_faulted hf rfl,
    fun hf => exec_unconfigured (legalIn_mapToIndex.2 hf) rfl, fun hf hc hstep => ?_⟩
  have hd : 0 < s64 s.step := hstep
  rw [exec_run (legalIn_mapToIndex.2 hf) (fun _ => hc) rfl]
  simp only [commandBody]
  refine ⟨fun hv => ?_, fun hv hr => ?_, fun hv hr => ?_⟩
  · rw [toIndex_eq_belowStart hd hv]
    rfl
  · rw [toIndex_eq_notRepresentable hd hv hr]
    rfl
  · have hindex := toIndex_eq_index hd hv hr
    have hq : 0 ≤ (s64 v - s64 s.start) / s64 s.step := Int.ediv_nonneg (Int.sub_nonneg.2 hv) hd.le
    refine ⟨BitVec.ofNat 64 ((s64 v - s64 s.start) / s64 s.step).toNat, ?_, by rw [hindex]; rfl⟩
    exact (congrArg Nat.cast (u64_ofNat (toIndex_lt hindex))).trans (Int.toNat_of_nonneg hq)

/-- Settles O22: the exact sum exceeds `MAX`, or wrapping keeps it. -/
theorem toValueAnswersOrOverflows : Obligations.ToValueAnswersOrOverflows := by
  refine fun i s => ⟨rfl, fun hf => exec_faulted hf rfl,
    fun hf => exec_unconfigured (legalIn_mapToValue.2 hf) rfl, fun hf hc hstep => ?_⟩
  rw [exec_run (legalIn_mapToValue.2 hf) (fun _ => hc) rfl]
  simp only [commandBody]
  refine ⟨fun hover => ?_, fun hfits => ?_⟩
  · rw [toValue_eq_none (Int.sub_one_lt_of_le hover)]
    rfl
  · have hmax : mad i s.start s.step ≤ maxInt := Int.le_sub_one_of_lt hfits
    exact ⟨wrap64 (mad i s.start s.step), s64_wrap64_mad hstep hmax, by rw [toValue_eq_mad hmax]; rfl⟩

/-- The octet number of an index is the index without its low three bits (R96). -/
theorem ofNat_split_octet (i : Word) : BitVec.ofNat 64 (split (u64 i)).1 = i >>> 3 := by
  apply BitVec.eq_of_toNat_eq
  have := i.isLt
  simp only [split, u64, BitVec.toNat_ofNat, BitVec.toNat_ushiftRight, Nat.shiftRight_eq_div_pow]
  omega

/-- The bit number of an index is its low three bits (R96). -/
theorem ofNat_split_bit (i : Word) : BitVec.ofNat 8 (split (u64 i)).2 = i.setWidth 8 &&& 7 := by
  apply BitVec.eq_of_toNat_eq
  have hlow : i.toNat % 2 ^ 8 &&& 7 = i.toNat % 2 ^ 8 % 2 ^ 3 := Nat.and_two_pow_sub_one_eq_mod _ 3
  rw [BitVec.toNat_and, BitVec.toNat_setWidth]
  refine Eq.trans ?_ hlow.symm
  simp only [split, u64, BitVec.toNat_ofNat]
  omega

/-- Settles O23: the bits of the index are those of its octet number and its bit number. -/
theorem splitAnswersOctetAndBit : Obligations.SplitAnswersOctetAndBit := by
  refine fun i s => ⟨rfl, fun hf => ?_, fun hf => exec_faulted hf rfl⟩
  rw [exec_run (legalIn_mapSplit.2 hf) nofun rfl, ← ofNat_split_octet, ← ofNat_split_bit]
  rfl

/-- The state with one more response and no other change. -/
def OneMoreResponse (s t : State) : Prop := ∃ r : ResponseWord, t = { s with rsp := s.rsp ++ [r] }

theorem oneMoreResponse_respond (st : Status) (p : Word) (q : Byte) (s : State) :
    OneMoreResponse s (respond st p q s) := ⟨_, rfl⟩

/-- A refusal only answers (R180), so a command changes no more than `RSP` if its body does not. -/
theorem oneMoreResponse_of_body {i : Instr} {s t : State}
    (hbody : commandBody i s = .next t → OneMoreResponse s t) (h : exec i s = .next t) : OneMoreResponse s t := by
  obtain ⟨-, e, he⟩ | ⟨-, he⟩ := exec_cases i s <;> rw [he] at h
  · cases h
    exact oneMoreResponse_respond ..
  · exact hbody h

/-- Settles O25: each answer of the three commands, refused or executed, is one response. -/
theorem mapperChangesOnlyResponses : Obligations.MapperChangesOnlyResponses := by
  rintro x s t (h | h | h) <;> refine oneMoreResponse_of_body (fun hbody => ?_) h <;>
    simp only [commandBody] at hbody
  · split at hbody
    · cases hbody
    all_goals cases hbody; exact oneMoreResponse_respond ..
  · split at hbody <;> cases hbody <;> exact oneMoreResponse_respond ..
  · cases hbody
    exact oneMoreResponse_respond ..

end Sys2Proof.Machine
end

section
/-! The value guard (R110 to R115): the disposition of each of its checks, and `ENC_PUSH` of a value that is not
accepted. -/

namespace Sys2Proof.Machine

/-! ### The checks of the guard, in their order (R111) -/

section Guard
variable {v : Word} {s : State}

theorem guardValue_unsorted (hp : s.prevValid = true) (hv : s64 v < s64 s.prev) :
    guardValue v s = .skip .skipUnsorted :=
  if_pos ⟨hp, hv⟩

theorem guardValue_duplicate (hp : s.prevValid = true) (hv : s64 v = s64 s.prev) :
    guardValue v s = .skip .skipDuplicate := by
  unfold guardValue
  rw [if_neg fun h => h.2.ne hv, if_pos ⟨hp, hv⟩]

/-- A value above the last accepted one passes the ordering check (R112); then `toIndex` decides (R113, R114). -/
theorem guardValue_belowStart (hup : s.prevValid = true → s64 s.prev < s64 v)
    (hi : toIndex s.start s.step v = some .belowStart) : guardValue v s = .skip .belowStart := by
  unfold guardValue
  rw [if_neg fun h => (hup h.1).not_gt h.2, if_neg fun h => (hup h.1).ne' h.2, hi]

theorem guardValue_notRepresentable (hup : s.prevValid = true → s64 s.prev < s64 v)
    (hi : toIndex s.start s.step v = some .notRepresentable) : guardValue v s = .skip .notRepresentable := by
  unfold guardValue
  rw [if_neg fun h => (hup h.1).not_gt h.2, if_neg fun h => (hup h.1).ne' h.2, hi]

/-- A disposition is the whole effect of the push (R111). -/
theorem exec_encPush_skip {st : Status} (hc : s.control = .enc) (hg : guardValue v s = .skip st) :
    exec (.encPush v) s = OnlyAnswers st s := by
  rw [exec_run (legalIn_encPush.2 hc) nofun rfl]
  simp only [commandBody, hg]
  rfl

end Guard

/-- Settles O27: the guard answers the disposition of the first check that applies. -/
theorem guardReportsTheFirstCheckThatApplies : Obligations.GuardReportsTheFirstCheckThatApplies := by
  refine fun v s hc hs => ⟨fun hp hv => ?_, fun hp hv => ?_, fun hup hv => ?_, fun hup hv hr => ?_⟩ <;>
    apply exec_encPush_skip hc
  · exact guardValue_unsorted hp hv
  · exact guardValue_duplicate hp hv
  · exact guardValue_belowStart hup (toIndex_eq_belowStart hs hv)
  · exact guardValue_notRepresentable hup (toIndex_eq_notRepresentable hs hv hr)

end Sys2Proof.Machine
end

section
/-! A whole encode stream (R118, R129): how the octets written and the live buffer stand to the bitmap of the
values accepted so far, from `ENC_BEGIN` through every push to `ENC_END`. -/

namespace Sys2Proof.Machine

/-! ### The first octets of the bitmap -/

/-- The first `n` octets of the infinite stream `M` of R129 for the values `A`. -/
def firstOctets (a d : Int) (A : List Int) (n : Nat) : List Byte := (List.range n).map (bitmapOctet a d A)

theorem firstOctets_add (a d : Int) (A : List Int) (n k : Nat) :
    firstOctets a d A (n + k) = firstOctets a d A n ++ (List.range k).map fun i => bitmapOctet a d A (n + i) := by
  simp [firstOctets, List.range_add, Function.comp_def]

/-- One more value, whose index lies `i` bits past the first `n` octets, sets one bit. -/
theorem bitmapOctet_concat {a d v : Int} {n i : Nat} (hd : 1 ≤ d) (hv : v = a + (8 * n + i : Nat) * d)
    (A : List Int) (p : Nat) :
    bitmapOctet a d (A ++ [v]) p =
      if p = n + i / 8 then bitmapOctet a d A p ||| (1 : Byte) <<< (i % 8) else bitmapOctet a d A p := by
  rw [hv, bitmapOctet_append hd, Nat.mul_add_div (by decide), Nat.mul_add_mod]

/-- The octets below the one of a new value stay as they are. -/
theorem firstOctets_concat {a d v : Int} {n i : Nat} (hd : 1 ≤ d) (hv : v = a + (8 * n + i : Nat) * d)
    (A : List Int) : firstOctets a d (A ++ [v]) n = firstOctets a d A n := by
  refine List.map_congr_left fun p hp => ?_
  have hlt : p < n := List.mem_range.1 hp
  rw [bitmapOctet_concat hd hv, if_neg (by omega)]

/-- The bitmap ends with the octet of the last value (R129). -/
theorem bitmapOf_eq_firstOctets {a d m : Int} {A : List Int} (h : A.getLast? = some m) :
    bitmapOf a d A = firstOctets a d A (((m - a) / d).toNat / 8 + 1) := by
  rw [bitmapOf, h]
  rfl

/-! ### Values, indices and windows -/

/-- The last value accepted in the stream, if there is one (R115). -/
def lastAccepted (s : State) : Option Int := if s.prevValid = true then some (s64 s.prev) else none

/-- The guard accepts by the last value accepted, as R118 says. -/
theorem accepted_iff {v : Word} {s : State} :
    Accepted v s ↔ (∀ p ∈ lastAccepted s, p < s64 v) ∧ s64 s.start ≤ s64 v ∧
      (s64 v - s64 s.start) % s64 s.step = 0 := by
  cases hp : s.prevValid <;> simp [Accepted, lastAccepted, hp]

/-- An accepted value is the value of its index (R97). -/
theorem Accepted.eq_index {v : Word} {s : State} (ha : Accepted v s) (hs : 0 < s64 s.step) :
    s64 v = s64 s.start + ((s64 v - s64 s.start) / s64 s.step).toNat * s64 s.step :=
  (toIndex_eq_index_iff hs).1 (toIndex_eq_index hs ha.2.1 ha.2.2)

section Window
variable {v : Int} {w : Nat} {s : State} (hw : s64 s.bottom = s64 s.start + w * span s)
include hw

/-- The index of a value counts the bits of the windows below the live one and its bits there. -/
theorem index_eq_add_windowIndex (hs : 0 < s64 s.step) (hv : s64 s.bottom ≤ v) :
    ((v - s64 s.start) / s64 s.step).toNat = 8 * (w * s.cfg.bufSize) + windowIndex v s := by
  have hsub : v - s64 s.start = v - s64 s.bottom + (8 * (w * s.cfg.bufSize) : Nat) * s64 s.step := by
    rw [hw, span]; push_cast; ring
  have hq : 0 ≤ (v - s64 s.bottom) / s64 s.step := Int.ediv_nonneg (by omega) hs.le
  rw [hsub, Int.add_mul_ediv_right _ _ hs.ne', windowIndex]
  omega

/-- The number of a value's window, counted from the first window and from the live one. -/
theorem windowNumber_eq_add_windowsAbove (hspan : 0 < span s) (hv : s64 s.bottom ≤ v) :
    ((v - s64 s.start) / span s).toNat = w + windowsAbove v s := by
  have hsub : v - s64 s.start = v - s64 s.bottom + w * span s := by rw [hw]; ring
  have hq : 0 ≤ (v - s64 s.bottom) / span s := Int.ediv_nonneg (by omega) hspan.le
  rw [hsub, Int.add_mul_ediv_right _ _ hspan.ne', windowsAbove]
  omega

end Window

/-! ### The commands of the stream -/

/-- `ENC_PUSH` of an accepted value when the sink takes every burst (R121 to R124, R131). -/
theorem exec_encPush_accepted {v : Word} {s : State} {rest : List SinkAnswer} (h : Inv s) (hc : s.control = .enc)
    (ha : Accepted v s) (hsink : s.sinkAnswers = List.replicate (windowsAbove (s64 v) s) .ok ++ rest) :
    exec (.encPush v) s =
      .next (respond .ok (BitVec.ofNat 64 (windowsAbove (s64 v) s)) 0
        (withSink rest s.draws (s.out ++ flushedOctets (windowsAbove (s64 v) s) s)
          (pushedBlock v (windowsAbove (s64 v) s) s))) := by
  have hs := h.step_pos hc
  have hlow := (h.enc hc).bottom_le ha
  obtain ⟨-, -, hlow', hhigh⟩ := windowBy_reached h.capacity hs hlow
  rw [exec_run (legalIn_encPush.2 hc) nofun rfl]
  simp only [commandBody, guardValue_accepted hs ha]
  exact (pushAccepted_all (h.enc hc).pair h.capacity hs hlow hsink).trans (placeBit_pushedBlock hs hlow' hhigh)

/-- `ENC_PUSH` of a value that is not accepted only answers (R111, R180). -/
theorem exec_encPush_rejected {v : Word} {s : State} (h : Inv s) (hc : s.control = .enc) (ha : ¬ Accepted v s) :
    ∃ st, exec (.encPush v) s = .next (respond st 0 0 s) := by
  obtain ⟨st, hg⟩ | ⟨ha', -⟩ := guardValue_cases (v := v) (h.step_pos hc)
  · exact ⟨st, exec_encPush_skip hc hg⟩
  · exact absurd ha' ha

theorem exec_encEnd {s : State} (hc : s.control = .enc) :
    exec .encEnd s = .next (writeTail (s.buf.tailLength s.cfg.bufSize) s) :=
  exec_run (by rw [hc]; rfl) nofun rfl

/-- A tail that the sink takes (R126). -/
theorem writeTail_succ_ok {s : State} {n : Nat} {rest : List SinkAnswer} (h : s.sinkAnswers = .ok :: rest) :
    writeTail (n + 1) s =
      closeStream (BitVec.ofNat 64 (n + 1)) (withSink rest s.draws (s.out ++ s.buf.readFront (n + 1)) s) := by
  rw [writeTail, if_neg n.succ_ne_zero, sinkWrite_ok h]

/-- The trim scan stops at the octet of the last accepted value (R39 (d), R126). -/
theorem EncInv.tailLength_eq {s : State} (h : EncInv s) (hp : s.prevValid = true)
    (hlt : windowIndex (s64 s.prev) s < 8 * s.cfg.bufSize) :
    s.buf.tailLength s.cfg.bufSize = windowIndex (s64 s.prev) s / 8 + 1 := by
  refine Memory.tailLength_eq (Nat.div_lt_of_lt_mul hlt) (fun hz => ?_) fun j hj _ => ?_
  · have hbit := (read_eq_zero_iff _ _).1 hz _ rfl
    rw [h.prevBit hp] at hbit
    cases hbit
  · refine (read_eq_zero_iff _ _).2 fun k hk => Bool.eq_false_iff.2 fun hbit => ?_
    have := h.highest hp k hbit
    omega

/-! ### The stream so far -/

/-- The encode stream opened in `s₀` has come to `s`: `A` are the values accepted, `w` windows have been written,
all with the answer `ok`; the octets in `OUT` and in `BUF` are those of the bitmap of `A` up to the end of the live
window, and no value of `A` lies above that end. -/
structure StreamAt (s₀ : State) (A : List Int) (w : Nat) (s : State) : Prop where
  inv : Inv s
  opened : s.control = .enc
  cfg : s.cfg = s₀.cfg
  start : s.start = s₀.start
  step : s.step = s₀.step
  window : s64 s.bottom = s64 s.start + w * span s
  last : A.getLast? = lastAccepted s
  below : ∀ x ∈ A, x < s64 s.bottom + span s
  answers : s.sinkAnswers = List.replicate (s₀.sinkAnswers.length - w) .ok
  spare : A ≠ [] → w < s₀.sinkAnswers.length
  written : s.out = s₀.out ++ firstOctets (s64 s.start) (s64 s.step) A (w * s.cfg.bufSize)
  buffered : ∀ a < s.cfg.bufSize,
    s.buf.read a = bitmapOctet (s64 s.start) (s64 s.step) A (w * s.cfg.bufSize + a)

/-- A response is no part of it. -/
theorem StreamAt.respond {s₀ s : State} {A : List Int} {w : Nat} (h : StreamAt s₀ A w s) (st : Status) (p : Word)
    (q : Byte) : StreamAt s₀ A w (respond st p q s) :=
  { h with inv := h.inv.respond st p q }

/-- `ENC_BEGIN` opens a stream with nothing accepted and nothing written (R120). -/
theorem exec_encBegin_streamAt {s₀ : State} (h : Inv s₀) (hc : s₀.control = .idle) (hcfg : Configured s₀)
    (hok : ∀ a ∈ s₀.sinkAnswers, a = .ok) : ∃ s, exec .encBegin s₀ = .next s ∧ StreamAt s₀ [] 0 s := by
  have hrun : exec .encBegin s₀ = commandBody .encBegin s₀ := exec_run (by rw [hc]; rfl) (fun _ => hcfg) rfl
  exact ⟨_, hrun, {
    inv := exec_keeps_inv h hrun
    opened := rfl
    cfg := rfl
    start := rfl
    step := rfl
    window := by simp
    last := rfl
    below := nofun
    answers := List.eq_replicate_of_mem hok
    spare := fun hne => absurd rfl hne
    written := by simp [firstOctets]
    buffered := fun _ _ => (bitmapOctet_zero (h.stepPositive hcfg.2) [] _ nofun).symm }⟩

section StreamAt
variable {s₀ s : State} {A : List Int} {w : Nat} (h : StreamAt s₀ A w s)
include h

theorem StreamAt.step_pos : 1 ≤ s64 s.step := h.inv.step_pos h.opened

theorem StreamAt.span_eq : span s = span s₀ := by rw [span, span, h.cfg, h.step]

/-- The octets past the live window are zero. -/
theorem StreamAt.octet_above {p : Nat} (hp : (w + 1) * s.cfg.bufSize ≤ p) :
    bitmapOctet (s64 s.start) (s64 s.step) A p = 0 := by
  refine bitmapOctet_zero h.step_pos A p fun x hx => (h.below x hx).trans_le ?_
  have hend : s64 s.bottom + span s = s64 s.start + (8 * ((w + 1) * s.cfg.bufSize) : Nat) * s64 s.step := by
    rw [h.window, span]; push_cast; ring
  have hbits : ((8 * ((w + 1) * s.cfg.bufSize) : Nat) : Int) * s64 s.step ≤ (8 * p : Nat) * s64 s.step :=
    Int.mul_le_mul_of_nonneg_right (by omega) (by have := h.step_pos; omega)
  omega

/-- The buffer the flush loop leaves holds the octets of the window it has reached (R123). -/
theorem StreamAt.bufAfterFlush_read (m : Nat) {a : Nat} (ha : a < s.cfg.bufSize) :
    (bufAfterFlush m s).read a = bitmapOctet (s64 s.start) (s64 s.step) A ((w + m) * s.cfg.bufSize + a) := by
  cases m with
  | zero => exact h.buffered a ha
  | succ m =>
    refine (h.octet_above ?_).symm
    exact (Nat.mul_le_mul_right _ (by omega)).trans (Nat.le_add_right _ _)

/-- The bursts of the flush loop continue the octets of the bitmap (R122, R131). -/
theorem StreamAt.firstOctets_flushed (m : Nat) :
    firstOctets (s64 s.start) (s64 s.step) A ((w + m) * s.cfg.bufSize) =
      firstOctets (s64 s.start) (s64 s.step) A (w * s.cfg.bufSize) ++ flushedOctets m s := by
  cases m with
  | zero => simp [flushedOctets]
  | succ m =>
    have hlive : s.buf.readFront s.cfg.bufSize =
        (List.range s.cfg.bufSize).map fun i => bitmapOctet (s64 s.start) (s64 s.step) A (w * s.cfg.bufSize + i) :=
      List.map_congr_left fun a ha => h.buffered a (List.mem_range.1 ha)
    have hgap : List.replicate (m * s.cfg.bufSize) 0 = (List.range (m * s.cfg.bufSize)).map fun i =>
        bitmapOctet (s64 s.start) (s64 s.step) A (w * s.cfg.bufSize + s.cfg.bufSize + i) := by
      refine (List.eq_replicate_iff.2 ⟨by simp, fun b hb => ?_⟩).symm
      obtain ⟨i, -, rfl⟩ := List.mem_map.1 hb
      exact h.octet_above (by rw [Nat.succ_mul]; omega)
    rw [show (w + (m + 1)) * s.cfg.bufSize = w * s.cfg.bufSize + s.cfg.bufSize + m * s.cfg.bufSize by ring,
      firstOctets_add, firstOctets_add, flushedOctets, if_neg m.succ_ne_zero, hlive, Nat.add_sub_cancel, hgap,
      List.append_assoc]

/-- An accepted value with answers enough takes the stream on to its window, with the value's bit set. -/
theorem StreamAt.push_accepted {v : Word} (ha : Accepted v s)
    (hn : ((s64 v - s64 s₀.start) / span s₀).toNat + 1 ≤ s₀.sinkAnswers.length) :
    ∃ t, exec (.encPush v) s = .next t ∧ StreamAt s₀ (A ++ [s64 v]) (w + windowsAbove (s64 v) s) t := by
  have hs : 0 < s64 s.step := h.step_pos
  have hlow := (h.inv.enc h.opened).bottom_le ha
  have hspan : 0 < span s := by have := span_pos h.inv.capacity hs; omega
  obtain ⟨hbottom, -, hlow', hhigh⟩ := windowBy_reached h.inv.capacity hs hlow
  rw [← h.start, ← h.span_eq, windowNumber_eq_add_windowsAbove h.window hspan hlow] at hn
  have hsink : s.sinkAnswers = List.replicate (windowsAbove (s64 v) s) .ok ++
      List.replicate (s₀.sinkAnswers.length - (w + windowsAbove (s64 v) s)) .ok := by
    rw [h.answers, List.replicate_append_replicate]
    congr 1
    omega
  have hexec := exec_encPush_accepted h.inv h.opened ha hsink
  generalize windowsAbove (s64 v) s = m at *
  have hwindow : s64 (windowBy m s).bottom = s64 s.start + (w + m : Nat) * span s := by
    rw [hbottom, h.window]; push_cast; ring
  have hvalue : s64 v = s64 s.start +
      (8 * ((w + m) * s.cfg.bufSize) + windowIndex (s64 v) (windowBy m s) : Nat) * s64 s.step :=
    (ha.eq_index hs).trans (congrArg (fun k : Nat => s64 s.start + k * s64 s.step)
      (index_eq_add_windowIndex (s := windowBy m s) hwindow hs hlow'))
  have hbelow : ∀ x ∈ A ++ [s64 v], x < s64 (windowBy m s).bottom + span s := by
    intro x hx
    rcases List.mem_append.1 hx with hx | hx
    · have hm : 0 ≤ (m : Int) * span s := by positivity
      have := h.below x hx
      omega
    · rwa [List.mem_singleton.1 hx]
  have hwritten : s.out ++ flushedOctets m s =
      s₀.out ++ firstOctets (s64 s.start) (s64 s.step) (A ++ [s64 v]) ((w + m) * s.cfg.bufSize) := by
    rw [firstOctets_concat hs hvalue, h.firstOctets_flushed, h.written, List.append_assoc]
  have hbuffered : ∀ a < s.cfg.bufSize, (pushedBlock v m s).buf.read a =
      bitmapOctet (s64 s.start) (s64 s.step) (A ++ [s64 v]) ((w + m) * s.cfg.bufSize + a) := by
    intro a hlt
    rw [bitmapOctet_concat hs hvalue, pushedBlock, Memory.read_setBit_at (bufAfterFlush_wf h.inv.bufWf m),
      h.bufAfterFlush_read m hlt]
    simp only [Nat.add_left_cancel_iff]
  exact ⟨_, hexec, {
    inv := exec_keeps_inv h.inv hexec
    opened := h.opened
    cfg := h.cfg
    start := h.start
    step := h.step
    window := hwindow
    last := List.getLast?_concat
    below := hbelow
    answers := rfl
    spare := fun _ => hn
    written := hwritten
    buffered := hbuffered }⟩

/-- `ENC_END` writes what is left of the bitmap: its octets in the live window (R126, R129). -/
theorem StreamAt.finish : ∃ t, exec .encEnd s = .next t ∧ t.control = .idle ∧
    t.out = s₀.out ++ bitmapOf (s64 s.start) (s64 s.step) A := by
  have hs : 0 < s64 s.step := h.step_pos
  have henc := h.inv.enc h.opened
  refine ⟨_, exec_encEnd h.opened, ?_⟩
  have hlast := h.last
  cases hp : s.prevValid with
  | false =>
    obtain ⟨hbuf, hbottom⟩ := henc.noneYet hp
    have hA : A = [] := by simpa [lastAccepted, hp] using hlast
    have hw : w = 0 := by
      have hspan := span_pos h.inv.capacity hs
      have hw := h.window
      rw [hbottom, left_eq_add, mul_eq_zero] at hw
      omega
    rw [Memory.tailLength_zero fun j _ => by rw [hbuf, Memory.zeros_read]]
    refine ⟨rfl, ?_⟩
    show s.out = _
    simp [h.written, hw, hA, firstOctets, bitmapOf]
  | true =>
    simp only [lastAccepted, hp, if_true] at hlast
    have hmem := List.mem_of_getLast? hlast
    have hlow := henc.prevLow hp
    have hlt := windowIndex_lt hs hlow (h.below _ hmem)
    have hw := h.spare (List.ne_nil_of_mem hmem)
    have hsink : s.sinkAnswers = .ok :: List.replicate (s₀.sinkAnswers.length - w - 1) .ok := by
      rw [h.answers, ← List.replicate_succ]
      congr 1
      omega
    rw [henc.tailLength_eq hp hlt, writeTail_succ_ok hsink]
    refine ⟨rfl, ?_⟩
    have htail : s.buf.readFront (windowIndex (s64 s.prev) s / 8 + 1) =
        (List.range (windowIndex (s64 s.prev) s / 8 + 1)).map fun i =>
          bitmapOctet (s64 s.start) (s64 s.step) A (w * s.cfg.bufSize + i) :=
      List.map_congr_left fun a ha => h.buffered a (by have := List.mem_range.1 ha; omega)
    show s.out ++ s.buf.readFront _ = _
    rw [bitmapOf_eq_firstOctets hlast, index_eq_add_windowIndex h.window hs hlow, h.written, htail,
      List.append_assoc, ← firstOctets_add, ← Nat.add_assoc, Nat.mul_add_div (by decide)]

end StreamAt

/-- Any pushes take the stream on to the bitmap of the values R118 accepts among them, by induction on the
pushes. -/
theorem StreamAt.pushes {s₀ s : State} {A : List Int} {w : Nat} {vs : List Word} (h : StreamAt s₀ A w s)
    (hn : ∀ v ∈ vs, ((s64 v - s64 s₀.start) / span s₀).toNat + 1 ≤ s₀.sinkAnswers.length) :
    ∃ t w', execAll (vs.map .encPush) s = .next t ∧ StreamAt s₀
      (A ++ acceptedFrom (s64 s₀.start) (s64 s₀.step) (lastAccepted s) (vs.map s64)) w' t := by
  induction vs generalizing s A w with
  | nil => exact ⟨s, w, rfl, by simpa [acceptedFrom] using h⟩
  | cons v vs ih =>
    obtain ⟨hv, hvs⟩ := List.forall_mem_cons.1 hn
    have haccepted := accepted_iff (v := v) (s := s)
    rw [h.start, h.step] at haccepted
    simp only [List.map_cons, execAll, acceptedFrom]
    by_cases ha : Accepted v s
    · obtain ⟨t, hexec, ht⟩ := h.push_accepted ha hv
      obtain ⟨u, w', hrun, hu⟩ := ih ht hvs
      refine ⟨u, w', by rw [hexec]; exact hrun, ?_⟩
      rw [← ht.last, List.getLast?_concat, List.append_assoc] at hu
      rwa [if_pos (haccepted.1 ha)]
    · obtain ⟨st, hexec⟩ := exec_encPush_rejected h.inv h.opened ha
      obtain ⟨u, w', hrun, hu⟩ := ih (h.respond st 0 0) hvs
      refine ⟨u, w', by rw [hexec]; exact hrun, ?_⟩
      rwa [if_neg (haccepted.not.1 ha)]

/-- Settles O35: from `ENC_BEGIN` on, `OUT` and `BUF` hold the bitmap of the values accepted so far up to the end
of the live window, and `ENC_END` writes the rest of it. -/
theorem streamWritesTheMinimalBitmap : Obligations.StreamWritesTheMinimalBitmap := by
  intro s vs hinv hc hcfg hok hn
  obtain ⟨s₁, hbegin, h₁⟩ := exec_encBegin_streamAt hinv hc hcfg hok
  obtain ⟨s₂, w, hpushes, h₂⟩ := h₁.pushes hn
  obtain ⟨t, hend, hidle, hout⟩ := h₂.finish
  rw [← h₁.last, h₂.start, h₂.step] at hout
  refine ⟨t, ?_, hidle, hout⟩
  simp only [execAll, hbegin]
  rw [execAll_append hpushes]
  simp only [execAll, hend]

end Sys2Proof.Machine
end

section
/-! The BitmapEncoder (R120 to R132): what opens a stream, a push across the gap to its window, a burst that fails,
and the tail. -/

namespace Sys2Proof.Machine

/-! ### `ENC_BEGIN` (R120) -/

/-- Outside `FAULT`, a command in a state that the table of R166 does not allow it is refused `ERR_STATE`. -/
theorem exec_wrongState {i : Instr} {s : State} (hf : s.control ≠ .fault) (hl : legalIn i s.control = false) :
    exec i s = OnlyAnswers .errState s :=
  (exec_eq i s).trans (checked_state hf hl)

theorem legalIn_encBegin {c : Control} : legalIn .encBegin c = true ↔ c = .idle := by
  cases c <;> simp [legalIn]

/-- Settles O26: the checks in their order, then the window at `START` over the empty buffer. -/
theorem encodeBeginOpensTheFirstWindow : Obligations.EncodeBeginOpensTheFirstWindow := by
  refine fun s => ⟨rfl, fun hf => exec_faulted hf rfl, fun hf hi => ?_, fun hi hn => ?_, fun hi hcfg => ⟨?_, ?_⟩⟩
  · exact exec_wrongState hf (Bool.eq_false_iff.2 fun hl => hi (legalIn_encBegin.1 hl))
  · exact exec_unconfigured (legalIn_encBegin.2 hi) rfl hn
  · intro hs hmax
    have hlow := minInt_le_s64 s.start
    have hspan : 0 ≤ 8 * (s.cfg.bufSize : Int) * s64 s.step := by positivity
    exact s64_wrap64 (by omega) hmax
  · exact ⟨.zeros, Memory.zeros_read, exec_run (legalIn_encBegin.2 hi) (fun _ => hcfg) rfl⟩

/-! ### `ENC_PUSH` in closed form (R121 to R124, R131) -/

/-- `ENC_PUSH` of an accepted value is what follows the guard (R115, R121). -/
theorem exec_encPush_eq_pushAccepted {v : Word} {s : State} (hc : s.control = .enc) (hs : 0 < s64 s.step)
    (ha : Accepted v s) : exec (.encPush v) s = pushAccepted (s64 v) (acceptValue v s) := by
  rw [exec_run (legalIn_encPush.2 hc) nofun rfl]
  simp only [commandBody, guardValue_accepted hs ha]

/-- A window further on is told by its `BOTTOM` (R24). -/
theorem WindowPair.windowBy_eq {m : Nat} {s : State} (h : WindowPair (windowBy m s)) :
    windowBy m s = { s with
      bottom := (windowBy m s).bottom, beyond := wrap64 (s64 (windowBy m s).bottom + span s)
      beyondOvf := decide (maxInt < s64 (windowBy m s).bottom + span s) } := by
  obtain ⟨hbeyond, hovf⟩ := h
  rw [windowBy_span] at hbeyond hovf
  rw [← hbeyond, ← hovf]
  rfl

/-- The end of a window that has not overflowed is exact (R24). -/
theorem WindowPair.s64_beyond {s : State} (h : WindowPair s) (hp : 0 ≤ span s) (ho : s.beyondOvf = false) :
    s64 s.beyond = s64 s.bottom + span s := by
  obtain ⟨hbeyond, hovf⟩ := h
  have hlow := minInt_le_s64 s.bottom
  have hmax : ¬ maxInt < s64 s.bottom + span s := of_decide_eq_false (hovf ▸ ho)
  rw [hbeyond, s64_wrap64 (by omega) (by omega)]

section ValueInWindow
variable {v : Int} {w : Nat} {s : State} (hw : s64 s.bottom = s64 s.start + w * span s) (hlow : s64 s.bottom ≤ v)
  (hhigh : v < s64 s.bottom + span s)
include hw hlow hhigh

/-- The live window is the one whose number the value's distance from `START` gives (R131). -/
theorem windowNumber_of_live : (v - s64 s.start) / span s = w := by
  have hnumber := windowNumber_eq_add_windowsAbove hw (by omega) hlow
  rw [windowsAbove_zero (by omega) hlow hhigh] at hnumber
  have hwspan : 0 ≤ (w : Int) * span s := Int.mul_nonneg (by omega) (by omega)
  rw [← Int.toNat_of_nonneg (Int.ediv_nonneg (show 0 ≤ v - s64 s.start by omega) (by omega)), hnumber, Nat.add_zero]

/-- The index of a value in the live window is its index modulo the bits of a window (R124, R131). -/
theorem index_mod_eq_windowIndex (hs : 0 < s64 s.step) :
    ((v - s64 s.start) / s64 s.step % (8 * s.cfg.bufSize)).toNat = windowIndex v s := by
  have hwspan : 0 ≤ (w : Int) * span s := Int.mul_nonneg (by omega) (by omega)
  have hi : 0 ≤ (v - s64 s.start) / s64 s.step := Int.ediv_nonneg (by omega) hs.le
  rw [← Int.toNat_of_nonneg hi, index_eq_add_windowIndex hw hs hlow, Nat.mul_left_comm]
  exact_mod_cast Nat.mul_add_mod_of_lt (windowIndex_lt hs hlow hhigh)

end ValueInWindow

/-- Settles O30: the window has moved by whole spans to the one that holds the value. -/
theorem pushCrossesTheGapInClosedForm : Obligations.PushCrossesTheGapInClosedForm := by
  intro v s rest h hc ha hsink
  have hs : 0 < s64 s.step := h.step_pos hc
  obtain ⟨w, hw⟩ := (h.enc hc).window
  obtain ⟨hbottom, hpair, hlow, hhigh⟩ := windowBy_reached h.capacity hs ((h.enc hc).bottom_le ha)
  have hexec := exec_encPush_accepted h hc ha hsink
  generalize windowsAbove (s64 v) s = m at *
  have hwindow : s64 (windowBy m s).bottom = s64 s.start + (w + m : Nat) * span s := by
    rw [hbottom, hw]; push_cast; ring
  have hnumber := windowNumber_of_live (s := windowBy m s) hwindow hlow hhigh
  have hindex := index_mod_eq_windowIndex (s := windowBy m s) hwindow hlow hhigh hs
  refine ⟨_, hexec, ?_, hbottom, rfl, fun a => ?_, ?_⟩
  · exact hwindow.trans (congrArg (s64 s.start + · * span s) hnumber.symm)
  · exact (Memory.read_setBit_at (bufAfterFlush_wf h.bufWf m) ..).trans (by rw [← hindex]; rfl)
  · exact congrArg (fun u => respond .ok (BitVec.ofNat 64 m) 0
      (withSink rest s.draws (s.out ++ flushedOctets m s) { acceptValue v u with buf := (pushedBlock v m s).buf }))
      hpair.windowBy_eq

/-- Settles O29: `BEYOND` is the first value of the next window. -/
theorem boundaryValueFlushesExactlyOnce : Obligations.BoundaryValueFlushesExactlyOnce := by
  intro v s rest h hc ha ho hv hsink
  have hs : 0 < s64 s.step := h.step_pos hc
  have hspan := span_pos h.capacity hs
  have hlow := (h.enc hc).bottom_le ha
  have hend : s64 v = s64 s.bottom + span s := hv ▸ (h.enc hc).pair.s64_beyond (by omega) ho
  have hone : windowsAbove (s64 v) s = 1 :=
    windowsAbove_unique (by omega) (by push_cast; omega) (by push_cast; omega)
  obtain ⟨hbottom, hpair, -, -⟩ := windowBy_reached h.capacity hs hlow
  have hexec := exec_encPush_accepted h hc ha (by rw [hone]; exact hsink)
  rw [hone] at hbottom hpair hexec
  have hmoved : s64 (windowBy 1 s).bottom = s64 v := by rw [hbottom, hend]; push_cast; ring
  have hindex : windowIndex (s64 v) (windowBy 1 s) = 0 := by simp [windowIndex, hmoved]
  refine ⟨_, hexec, ?_, (s64_inj.1 hmoved).trans hv, rfl, fun a => ?_, fun hno => ?_⟩
  · simp [flushedOctets, pushedBlock]
  · simp [pushedBlock, hindex, bufAfterFlush, Memory.read_setBit_at Memory.zeros_wf]
  · exact (hpair.s64_beyond (by rw [windowBy_span]; omega) hno).trans (by rw [hmoved]; rfl)

/-! ### A burst that fails (R127, R183) -/

/-- `ENC_PUSH` of an accepted value when the sink takes `m` bursts and fails the next (R127). -/
theorem exec_encPush_failed {v : Word} {s : State} {m k : Nat} {rest : List SinkAnswer} (h : Inv s)
    (hc : s.control = .enc) (ha : Accepted v s) (hm : m < windowsAbove (s64 v) s)
    (hsink : s.sinkAnswers = List.replicate m .ok ++ .fail k :: rest) :
    exec (.encPush v) s = .next (raise .ioWrite s.cfg.bufSize
      (withSink rest s.draws
        (s.out ++ flushedOctets m s ++ (flushBurst m s).take (k % (flushBurst m s).length))
        (acceptValue v (windowBy m s)))) := by
  have hs : 0 < s64 s.step := h.step_pos hc
  have hspan := span_pos h.capacity hs
  have hloop := flushLoop_fails (s := acceptValue v s) (h.enc hc).pair (show 0 < span s by omega)
    (s64_le_maxInt v) ((h.enc hc).bottom_le ha) hm hsink
  rw [exec_encPush_eq_pushAccepted hc hs ha, pushAccepted, hloop]
  rfl

theorem flushBurst_length (m : Nat) (s : State) : (flushBurst m s).length = s.cfg.bufSize := by
  unfold flushBurst
  split <;> simp

theorem wrap64_natCast (n : Nat) : wrap64 n = BitVec.ofNat 64 n := BitVec.ofInt_natCast ..

/-- Settles O31: the loop stops at the failed burst, before the buffer is touched. -/
theorem failedFlushLeavesThePreciseFault : Obligations.FailedFlushLeavesThePreciseFault := by
  intro v s m k rest h hc ha hm hsink
  have hs : 0 < s64 s.step := h.step_pos hc
  have hspan := span_pos h.capacity hs
  have hlow := (h.enc hc).bottom_le ha
  have hreach : s64 s.bottom + m * span s ≤ s64 v := by
    obtain ⟨hle, -⟩ := windowsAbove_bounds (s := s) (by omega) hlow
    have hmul : (m : Int) * span s ≤ windowsAbove (s64 v) s * span s :=
      Int.mul_le_mul_of_nonneg_right (by omega) (by omega)
    omega
  obtain ⟨hbottom, hpair⟩ := windowBy_pair m (by omega) (s64_le_maxInt v) hreach
  have hexec := exec_encPush_failed h hc ha hm hsink
  rw [flushBurst_length] at hexec
  refine ⟨_, hexec, hbottom, ⟨_, Nat.mod_lt k h.capacity.1, Nat.mod_eq_of_lt, rfl⟩, ?_⟩
  rw [← wrap64_natCast]
  exact congrArg (fun u => raise .ioWrite s.cfg.bufSize (withSink rest s.draws
    (s.out ++ flushedOctets m s ++ (flushBurst m s).take (k % s.cfg.bufSize)) (acceptValue v u))) hpair.windowBy_eq

/-! ### The `INVARIANT` fault (R125, R128) -/

/-- What `ENC_PUSH` can do to the fault code under the invariant: the value's index lies in its window, so `IO_WRITE`
is the one fault. -/
theorem encPush_fcode {v : Word} {s t : State} (h : Inv s) (hc : s.control = .enc)
    (ht : exec (.encPush v) s = .next t) : t.fcode = s.fcode ∨ t.fcode = FaultCause.ioWrite.code := by
  by_cases ha : Accepted v s
  · have hs : 0 < s64 s.step := h.step_pos hc
    have hlow := (h.enc hc).bottom_le ha
    rw [exec_encPush_eq_pushAccepted hc hs ha] at ht
    obtain ⟨m, a, d, o, ⟨-, hpush⟩ | ⟨rfl, hpush⟩⟩ := pushAccepted_cases (h.enc hc).pair h.capacity hs hlow
    · cases hpush.symm.trans ht
      exact .inr rfl
    · obtain ⟨-, -, hlow', hhigh⟩ := windowBy_reached h.capacity hs hlow
      cases (placeBit_pushedBlock hs hlow' hhigh).symm.trans (hpush.symm.trans ht)
      exact .inl rfl
  · obtain ⟨st, hexec⟩ := exec_encPush_rejected h hc ha
    cases hexec.symm.trans ht
    exact .inl rfl

/-- No command but `ENC_PUSH` takes the `INVARIANT` fault, from any state. -/
theorem commandBody_fcode_ne {i : Instr} {s t : State} (hi : ∀ v, i ≠ .encPush v) (hf : s.fcode ≠ 3)
    (ht : commandBody i s = .next t) : t.fcode ≠ 3 := by
  cases i with
  | setStart | setStep | regRd | mapSplit | encBegin | scanBeginList | scanBeginCount | scanEnd => cases ht; exact hf
  | reset => cases ht; exact of_decide_eq_true rfl
  | srcErr => cases ht; simp [FaultCause.code]
  | mapToIndex v =>
    simp only [commandBody] at ht
    split at ht
    · cases ht
    all_goals cases ht; exact hf
  | mapToValue x =>
    simp only [commandBody] at ht
    split at ht <;> cases ht <;> exact hf
  | encPush v => exact absurd rfl (hi v)
  | encEnd =>
    cases ht
    obtain ⟨a, d, o, h | ⟨p, h⟩⟩ := writeTail_next (s.buf.tailLength s.cfg.bufSize) s <;> rw [h]
    · simp [FaultCause.code]
    · exact hf
  | scanByte b =>
    cases ht
    split
    · obtain ⟨c, o, v, ⟨info, h⟩ | ⟨p, h⟩⟩ := scanByteList_next b s <;> rw [h]
      · simp [FaultCause.code]
      · exact hf
    · simp only [scanByteCount]
      split
      · simp [FaultCause.code]
      · exact hf

/-- Settles O32: a refusal keeps the fault code, `ENC_PUSH` may set 1, and no other command sets 3. -/
theorem invariantFaultIsUnreachable : Obligations.InvariantFaultIsUnreachable := by
  intro i s t h hf ht
  obtain ⟨-, e, he⟩ | ⟨hx, he⟩ := exec_cases i s
  · cases he.symm.trans ht
    exact hf
  · by_cases hi : ∃ v, i = .encPush v
    · obtain ⟨v, rfl⟩ := hi
      obtain hcode | hcode := encPush_fcode h (legalIn_encPush.1 hx.1) ht <;> rw [hcode]
      · exact hf
      · exact of_decide_eq_true rfl
    · exact commandBody_fcode_ne (not_exists.1 hi) hf (he ▸ ht)

/-! ### A window past `MAX` (R132) -/

/-- Placing a bit writes `BUF` and ends, in every state (R123 to R125). -/
theorem placeBit_ends {v : Int} {k : Nat} {s t : State} (h : placeBit v k s = .next t) :
    ∃ m : Memory, Ends { s with buf := m } t := by
  have hreset : resetAfterFlush k s = { s with buf := (resetAfterFlush k s).buf } := by
    unfold resetAfterFlush
    split <;> rfl
  simp only [placeBit] at h
  rw [hreset] at h
  split at h
  · cases h
  · split at h <;> cases h
    · exact ⟨_, ends_raise ..⟩
    · exact ⟨_, ends_respond ..⟩

/-- Settles O33: the flush loop stops at once, and what follows it writes neither the window nor the sink's side. -/
theorem overflowedWindowNeverFlushes : Obligations.OverflowedWindowNeverFlushes := by
  intro v s t hc ho ht
  rw [exec_run (legalIn_encPush.2 hc) nofun rfl] at ht
  simp only [commandBody] at ht
  obtain ⟨st, hg⟩ | hg | hg := guardValue_any v s <;> rw [hg] at ht
  · cases ht
    exact ⟨ho, rfl, rfl, rfl, rfl⟩
  · have hstop : mustFlush (s64 v) (acceptValue v s) = false := mustFlush_eq_false (.inl ho)
    obtain ⟨m, hend⟩ := placeBit_ends ((pushAccepted_inside hstop).symm.trans ht)
    rw [hend.frame.1]
    exact ⟨ho, rfl, rfl, rfl, rfl⟩
  · cases ht

/-! ### `ENC_END` (R126, R127) -/

/-- A tail that is not empty, by the sink's answer. -/
theorem writeTail_succ_of_ok {s : State} (n : Nat) (h : sinkAnswer s = .ok) :
    writeTail (n + 1) s =
      closeStream (BitVec.ofNat 64 (n + 1)) (appendOut (s.buf.readFront (n + 1)) (useSinkAnswer s)) := by
  simp [writeTail, sinkWrite, h, octetsTaken]

theorem writeTail_succ_of_fail {s : State} {k : Nat} (n : Nat) (h : sinkAnswer s = .fail k) :
    writeTail (n + 1) s = raise .ioWrite (n + 1 : Nat)
      (appendOut ((s.buf.readFront (n + 1)).take (k % (n + 1))) (useSinkAnswer s)) := by
  rw [writeTail, if_neg n.succ_ne_zero, sinkWrite, h, octetsTaken, Memory.readFront_length]
  rfl

/-- Settles O34: the trim scan finds the last non-zero octet, and the sink's answer says how the stream ends. -/
theorem encodeEndWritesTheTrimmedTail : Obligations.EncodeEndWritesTheTrimmedTail := by
  intro s hc
  rw [exec_encEnd hc]
  refine ⟨fun hz => ?_, fun last hlt hne hz => ?_⟩
  · rw [Memory.tailLength_zero hz]
    rfl
  · rw [Memory.tailLength_eq hlt hne hz]
    refine ⟨fun hok => ?_, fun k hfail => ⟨k % (last + 1), Nat.mod_lt _ last.succ_pos, Nat.mod_eq_of_lt, ?_⟩⟩
    · rw [writeTail_succ_of_ok last hok]
      simp [closeStream, respond, appendOut]
    · rw [writeTail_succ_of_fail last hfail, ← wrap64_natCast]
      simp [raise, respond, appendOut, responseWord, FaultCause.code, FaultCause.status, Status.code]

end Sys2Proof.Machine
end

section
/-! A whole list scan (R142, R149), and that it gives back the values a bitmap was made from (R129, R150). -/

namespace Sys2Proof.Machine

/-! ### The octets of a list scan -/

/-- The values of the matching bits of the first octet, then those of the rest from eight steps further on (R149). -/
theorem matchingValues_cons (a d : Int) (p : BitVec 2) (b : Byte) (bs : List Byte) :
    matchingValues a d p (b :: bs) =
      ((List.range 8).filter fun j => bitMatches p (bitOf b j)).map (fun j : Nat => a + j * d) ++
        matchingValues (a + 8 * d) d p bs := by
  have hlow : (List.range 8).filter (fun i => bitMatches p (bitOf ((b :: bs).getD (i / 8) 0) (i % 8))) =
      (List.range 8).filter fun j => bitMatches p (bitOf b j) := by
    refine List.filter_congr fun i hi => ?_
    have hlt := List.mem_range.1 hi
    rw [Nat.div_eq_of_lt hlt, Nat.mod_eq_of_lt hlt, List.getD_cons_zero]
  have hhigh (i : Nat) : (b :: bs).getD ((8 + i) / 8) 0 = bs.getD (i / 8) 0 := by
    rw [Nat.add_div_left i (by decide), List.getD_cons_succ]
  rw [matchingValues, List.length_cons, Nat.mul_succ, Nat.add_comm, List.range_add, List.filter_append, hlow,
    List.map_append, List.filter_map, List.map_map, matchingValues]
  simp only [Function.comp_def, hhigh, Nat.add_mod_left]
  congr 2
  funext i
  push_cast
  ring

/-- The exact value of the cursor is `a`: `CURSOR` holds it wrapped, and the flag says whether it is past `MAX`
(R26). -/
def CursorIs (a : Int) (s : State) : Prop :=
  minInt ≤ a ∧ s.cursor = wrap64 a ∧ s.cursorOvf = decide (maxInt < a)

section CursorIs
variable {a : Int} {s : State} (h : CursorIs a s)
include h

theorem CursorIs.cursorAt_eq (hmax : a ≤ maxInt) (j : Nat) : cursorAt j s = a + j * s64 s.step := by
  obtain ⟨hmin, hcursor, -⟩ := h
  rw [cursorAt, hcursor, s64_wrap64 hmin hmax]

theorem CursorIs.cursorPast_iff (hs : 0 ≤ s64 s.step) (j : Nat) :
    CursorPast j s ↔ maxInt < a + j * s64 s.step := by
  have hj : 0 ≤ (j : Int) * s64 s.step := by positivity
  by_cases hmax : a ≤ maxInt
  · rw [CursorPast, h.cursorAt_eq hmax, h.2.2]
    simp
    omega
  · refine iff_of_true (.inl ?_) (by omega)
    rw [h.2.2]
    exact decide_eq_true (by omega)

theorem CursorIs.next_octet (hs : 0 ≤ s64 s.step) {t : State} (hcursor : t.cursor = wrap64 (cursorAt 8 s))
    (hovf : t.cursorOvf = decide (CursorPast 8 s)) : CursorIs (a + 8 * s64 s.step) t := by
  have hmin := h.1
  refine ⟨by omega, ?_, ?_⟩
  · rw [hcursor, cursorAt, h.2.1, wrap64_s64_wrap64_add]
    rfl
  · rw [hovf]
    exact decide_eq_decide.2 (h.cursorPast_iff hs 8)

end CursorIs

/-- The octets of a list scan emit the values of their matching bits, by induction on the octets (R142). -/
theorem scanOctets_emit {bs : List Byte} {a : Int} {s : State} (hc : s.control = .list) (hs : 1 ≤ s64 s.step)
    (h : CursorIs a s) (hfit : ∀ v ∈ matchingValues a (s64 s.step) s.pol bs, v ≤ maxInt) :
    ∃ t, execAll (bs.map .scanByte) s = .next t ∧ t.control = .list ∧
      t.vals = s.vals ++ matchingValues a (s64 s.step) s.pol bs := by
  induction bs generalizing a s with
  | nil => exact ⟨s, rfl, hc, by simp [matchingValues]⟩
  | cons b bs ih =>
    rw [matchingValues_cons] at hfit ⊢
    obtain ⟨hoctet, hrest⟩ := List.forall_mem_append.1 hfit
    have hbits : ∀ j ∈ matchingBits b (List.range 8) s, a + j * s64 s.step ≤ maxInt := fun j hj =>
      hoctet _ (List.mem_map_of_mem hj)
    have hexec := (listOctetEmitsTheMatchingValues b s).2 hc hs fun j hj => by
      rw [h.cursorPast_iff (by omega)]
      exact (hbits j hj).not_gt
    have hvals : (matchingBits b (List.range 8) s).map (fun j => cursorAt j s) =
        (matchingBits b (List.range 8) s).map fun j : Nat => a + j * s64 s.step := by
      refine List.map_congr_left fun j hj => h.cursorAt_eq ?_ j
      have hfits := hbits j hj
      have hge : 0 ≤ (j : Int) * s64 s.step := by positivity
      omega
    rw [hvals] at hexec
    obtain ⟨t, hrun, hlist, hout⟩ := ih (s := { s with
      cursor := wrap64 (cursorAt 8 s), cursorOvf := decide (CursorPast 8 s)
      vals := _
      rsp := _ }) hc hs (h.next_octet (by omega) rfl rfl) hrest
    refine ⟨t, ?_, hlist, ?_⟩
    · simp only [List.map_cons, execAll, hexec]
      exact hrun
    · rw [hout]
      exact List.append_assoc ..

theorem exec_scanEnd {s : State} (hc : s.control = .list) :
    exec .scanEnd s = .next (respond .ok 0 0 { s with control := .idle }) := by
  rw [exec_run (i := .scanEnd) (by rw [hc]; rfl) nofun rfl]
  simp [commandBody, hc]

/-- A whole list scan whose values all fit emits the values of its matching bits (R149). -/
theorem listScan_emits {s : State} {p : BitVec 2} {bs : List Byte} (hc : s.control = .idle) (hcfg : Configured s)
    (hs : 1 ≤ s64 s.step) (hp : p.toNat < 2)
    (hfit : ∀ v ∈ matchingValues (s64 s.start) (s64 s.step) p bs, v ≤ maxInt) :
    ∃ t, execAll (.scanBeginList p :: (bs.map .scanByte ++ [.scanEnd])) s = .next t ∧ t.control = .idle ∧
      t.vals = s.vals ++ matchingValues (s64 s.start) (s64 s.step) p bs := by
  have hbegin : exec (.scanBeginList p) s = commandBody (.scanBeginList p) s :=
    exec_run (by rw [hc]; rfl) (fun _ => hcfg) (decide_eq_true hp)
  have hmax := s64_le_maxInt s.start
  obtain ⟨t, hrun, hlist, hvals⟩ := scanOctets_emit (bs := bs) (a := s64 s.start)
    (s := respond .ok 0 0 { s with cursor := s.start, cursorOvf := false, pol := p, control := .list }) rfl hs
    ⟨minInt_le_s64 _, (wrap64_s64 _).symm, (decide_eq_false (by omega)).symm⟩ hfit
  refine ⟨respond .ok 0 0 { t with control := .idle }, ?_, rfl, hvals⟩
  simp only [execAll, hbegin, commandBody]
  rw [execAll_append hrun]
  simp only [execAll, exec_scanEnd hlist]

/-! ### The values of a bitmap -/

/-- The values of matching bits rise (R149). -/
theorem matchingValues_pairwise {d : Int} (hd : 1 ≤ d) (a : Int) (p : BitVec 2) (bs : List Byte) :
    (matchingValues a d p bs).Pairwise (· < ·) := by
  refine List.Pairwise.map _ (fun i j hij => ?_) (List.pairwise_lt_range.filter _)
  have : (i : Int) * d < j * d := Int.mul_lt_mul_of_pos_right (by exact_mod_cast hij) (by omega)
  omega

theorem mem_matchingValues {a d v : Int} {p : BitVec 2} {bs : List Byte} :
    v ∈ matchingValues a d p bs ↔
      ∃ i < 8 * bs.length, bitMatches p (bitOf (bs.getD (i / 8) 0) (i % 8)) = true ∧ a + i * d = v := by
  simp [matchingValues, and_assoc]

/-- Bit number `i` of the first octets of the bitmap is set for the value of index `i` alone (R129). -/
theorem bitMatches_firstOctets {a d : Int} {A : List Int} {n i : Nat} (hi : i < 8 * n) :
    bitMatches 1 (bitOf ((firstOctets a d A n).getD (i / 8) 0) (i % 8)) = true ↔ a + i * d ∈ A := by
  have hget : (firstOctets a d A n).getD (i / 8) 0 = bitmapOctet a d A (i / 8) := by
    simp [firstOctets, List.getD_eq_getElem?_getD, show i / 8 < n by omega]
  rw [hget, bitOf_bitmapOctet _ _ _ _ (Nat.mod_lt _ (by decide)), Nat.div_add_mod]
  by_cases hm : a + i * d ∈ A <;> simp [hm, bitMatches]

/-- The last value of a rising list is the greatest. -/
theorem le_of_getLast? {V : List Int} {m v : Int} (hV : V.Pairwise (· < ·)) (hm : V.getLast? = some m)
    (hv : v ∈ V) : v ≤ m := by
  have hle := (hV.imp Int.le_of_lt).rel_getLast hv
  rwa [← Option.some.inj ((List.getLast?_eq_some_getLast _).symm.trans hm)]

theorem firstOctets_length (a d : Int) (A : List Int) (n : Nat) : (firstOctets a d A n).length = n := by
  simp [firstOctets]

/-- The values of the 1 bits of the bitmap of a rising list of representable values are that list (R129, R150). -/
theorem matchingValues_bitmapOf {a d : Int} {V : List Int} (hd : 1 ≤ d) (hV : V.Pairwise (· < ·))
    (hrep : ∀ v ∈ V, a ≤ v ∧ (v - a) % d = 0) : matchingValues a d 1 (bitmapOf a d V) = V := by
  cases hlast : V.getLast? with
  | none =>
    rw [List.getLast?_eq_none_iff.1 hlast]
    rfl
  | some m =>
    rw [bitmapOf_eq_firstOctets hlast]
    refine (matchingValues_pairwise hd ..).eq_of_mem_iff hV fun v => ?_
    rw [mem_matchingValues, firstOctets_length]
    constructor
    · rintro ⟨i, hi, hbit, rfl⟩
      exact (bitMatches_firstOctets hi).1 hbit
    · intro hv
      obtain ⟨hlow, hgrid⟩ := hrep v hv
      have hindex : a + ((v - a) / d).toNat * d = v := by
        rw [Int.toNat_of_nonneg (Int.ediv_nonneg (by omega) (by omega)), Int.ediv_mul_cancel_of_emod_eq_zero hgrid]
        omega
      have hle : ((v - a) / d).toNat ≤ ((m - a) / d).toNat :=
        Int.toNat_le_toNat (Int.ediv_le_ediv (by omega) (by have := le_of_getLast? hV hlast hv; omega))
      have hlt : ((v - a) / d).toNat < 8 * (((m - a) / d).toNat / 8 + 1) := by omega
      exact ⟨_, hlt, (bitMatches_firstOctets hlt).2 (hindex.symm ▸ hv), hindex⟩

/-- Settles O45: the scan emits the values of the 1 bits, which are those the bitmap was made from. -/
theorem decodeOfEncodeIsTheValues : Obligations.DecodeOfEncodeIsTheValues := by
  intro s V hc hcfg hs hV hrep
  have hvalues : matchingValues (s64 s.start) (s64 s.step) 1 (bitmapOf (s64 s.start) (s64 s.step) V) = V :=
    matchingValues_bitmapOf hs hV fun v hv => ⟨(hrep v hv).1, (hrep v hv).2.2⟩
  have hscan := listScan_emits (p := 1) (bs := bitmapOf (s64 s.start) (s64 s.step) V) hc hcfg hs (by decide)
  rw [hvalues] at hscan
  exact hscan fun v hv => (hrep v hv).2.1

end Sys2Proof.Machine
end

section
/-! The commands of the BitmapScanner (R140 to R148): what opens a scan, an octet that faults in list mode, an octet in
count mode, and what closes a scan. -/

namespace Sys2Proof.Machine

/-! ### `SCAN_BEGIN_LIST` and `SCAN_BEGIN_COUNT` (R140, R141) -/

/-- An operand outside the legal ones is refused when every other check has passed (R167 (5)). -/
theorem exec_badOperand {i : Instr} {s : State} (hl : legalIn i s.control = true)
    (hc : needsConfig i = true → Configured s) (ho : operandLegal i = false) :
    exec i s = OnlyAnswers .errBadOperand s := by
  rw [exec_eq, ho]
  exact checked_operand hl hc

theorem legalIn_scanBeginList {p : BitVec 2} {c : Control} : legalIn (.scanBeginList p) c = true ↔ c = .idle :=
  legalIn_encBegin

theorem legalIn_scanBeginCount {p : BitVec 2} {c : Control} : legalIn (.scanBeginCount p) c = true ↔ c = .idle :=
  legalIn_encBegin

theorem exec_scanBeginList {p : BitVec 2} {s : State} (hc : s.control = .idle) (hcfg : Configured s)
    (hp : p = 0 ∨ p = 1) :
    exec (.scanBeginList p) s =
      .next (respond .ok 0 0 { s with cursor := s.start, cursorOvf := false, pol := p, control := .list }) :=
  exec_run (legalIn_scanBeginList.2 hc) (fun _ => hcfg) (by rcases hp with rfl | rfl <;> rfl)

theorem exec_scanBeginCount {p : BitVec 2} {s : State} (hc : s.control = .idle) (hp : p = 0 ∨ p = 1 ∨ p = 2) :
    exec (.scanBeginCount p) s =
      .next (respond .ok 0 0 { s with count := 0, pol := p, control := .count }) :=
  exec_run (legalIn_scanBeginCount.2 hc) nofun (by rcases hp with rfl | rfl | rfl <;> rfl)

/-- Settles O36: the checks in their order, then the cursor on `START`. -/
theorem listScanBeginsAtStart : Obligations.ListScanBeginsAtStart := by
  refine fun p s => ⟨rfl, fun hf => exec_faulted hf rfl, fun hf hi => ?_, fun hi hn => ?_, fun hi hcfg hp => ?_,
    fun hi hcfg hp => exec_scanBeginList hi hcfg hp⟩
  · exact exec_wrongState hf (Bool.eq_false_iff.2 fun hl => hi (legalIn_scanBeginList.1 hl))
  · exact exec_unconfigured (legalIn_scanBeginList.2 hi) rfl hn
  · exact exec_badOperand (legalIn_scanBeginList.2 hi) (fun _ => hcfg) (by rcases hp with rfl | rfl <;> rfl)

/-- Settles O37: the checks in their order, none of them on the configuration, then a count of 0. -/
theorem countScanBeginsAtZero : Obligations.CountScanBeginsAtZero := by
  refine fun p s => ⟨rfl, fun hf => exec_faulted hf rfl, fun hf hi => ?_, fun hi hp => ?_,
    fun hi hp => exec_scanBeginCount hi hp⟩
  · exact exec_wrongState hf (Bool.eq_false_iff.2 fun hl => hi (legalIn_scanBeginCount.1 hl))
  · exact exec_badOperand (legalIn_scanBeginCount.2 hi) nofun (by rw [hp]; rfl)

/-! ### `SCAN_BYTE` in list mode (R142, R147) -/

theorem exec_scanByte_list {b : Byte} {s : State} (hc : s.control = .list) :
    exec (.scanByte b) s = .next (scanByteList b s) := by
  rw [exec_run (i := .scanByte b) (by rw [hc]; rfl) nofun rfl]
  simp only [commandBody, if_pos hc]

/-- Settles O39: the loop over the bits stops at the faulting one, and the fault entry follows. -/
theorem listOctetFaultsAtTheFirstValuePastMax : Obligations.ListOctetFaultsAtTheFirstValuePastMax := by
  intro b j s hc hs hj hmatch hpast hbelow
  rw [List.range_eq_range'] at hbelow
  have hbits := listBits_fault b (s := s) (by omega) 8 0 j 0 [] hj (by rwa [Nat.zero_add]) (by rwa [Nat.zero_add])
    hbelow
  simp only [← List.range_eq_range', cursorBy_zero, Nat.zero_add, List.nil_append] at hbits
  rw [exec_scanByte_list hc]
  simp only [scanByteList, hbits, raise, wrap64_natCast, cursorBy, decide_eq_true hpast]
  rfl

/-! ### `SCAN_BYTE` in count mode (R143, R144, R148) -/

/-- The increment of an octet is the number of its matching bits, or eight for "any" (R143). -/
theorem countIncrement_eq_matching {b : Byte} {s : State} (hp : s.pol ≠ 3) :
    countIncrement s.pol b = if s.pol = 2 then 8 else (matchingBits b (List.range 8) s).length := by
  by_cases hany : s.pol = 2
  · rw [if_pos hany, hany]
    rfl
  · rw [if_neg hany]
    exact countIncrement_eq_length (by generalize s.pol = p at *; revert p; decide) b

theorem exec_scanByte_count {b : Byte} {s : State} (hc : s.control = .count) :
    exec (.scanByte b) s = .next (scanByteCount b s) := by
  rw [exec_run (i := .scanByte b) (by rw [hc]; rfl) nofun rfl]
  simp [commandBody, hc]

/-- A count that stays below `2^64` (R143). -/
theorem scanByteCount_fits {b : Byte} {s : State} (hfit : s.count.toNat + countIncrement s.pol b < 2 ^ 64) :
    (s.count + BitVec.ofNat 64 (countIncrement s.pol b)).toNat = s.count.toNat + countIncrement s.pol b ∧
    scanByteCount b s =
      respond .ok (BitVec.ofNat 64 (countIncrement s.pol b)) 0
        { s with count := s.count + BitVec.ofNat 64 (countIncrement s.pol b) } := by
  refine ⟨?_, if_neg (not_lt.2 (Nat.le_sub_one_of_lt hfit))⟩
  rw [BitVec.toNat_add, BitVec.toNat_ofNat, Nat.add_mod_mod, Nat.mod_eq_of_lt hfit]

/-- A count that would pass `2^64 - 1` (R148). -/
theorem scanByteCount_overflows {b : Byte} {s : State} (h : 2 ^ 64 ≤ s.count.toNat + countIncrement s.pol b) :
    scanByteCount b s = raise .arith (countIncrement s.pol b) s :=
  if_pos (Nat.sub_one_lt_of_le (by decide) h)

/-- Settles O40: the exact sum fits the count, or the fault entry leaves it. -/
theorem countOctetAddsTheMatchingBits : Obligations.CountOctetAddsTheMatchingBits := by
  refine fun b s hc hp => ⟨countIncrement s.pol b, countIncrement_eq_matching hp, fun hfit => ?_, fun hover => ?_⟩
  · obtain ⟨hcount, hnext⟩ := scanByteCount_fits hfit
    exact ⟨_, hcount, by rw [exec_scanByte_count hc, hnext]; rfl⟩
  · rw [exec_scanByte_count hc, scanByteCount_overflows hover, ← wrap64_natCast]
    rfl

/-! ### `SCAN_END` (R146) -/

theorem exec_scanEnd_count {s : State} (hc : s.control = .count) :
    exec .scanEnd s = .next (respond .ok s.count 0 { s with control := .idle }) := by
  rw [exec_run (i := .scanEnd) (by rw [hc]; rfl) nofun rfl]
  simp only [commandBody, if_pos hc]

/-- Settles O41, by the control state. -/
theorem scanEndClosesTheScan : Obligations.ScanEndClosesTheScan := by
  refine fun s => ⟨rfl, exec_scanEnd, exec_scanEnd_count, fun hf => exec_faulted hf rfl, fun hc => ?_⟩
  rcases hc with hc | hc <;> exact exec_wrongState (by rw [hc]; decide) (by rw [hc]; rfl)

end Sys2Proof.Machine
end

section
/-! Whole scans (R149, R150): a list scan that emits every value, one that ends in the `ARITH` fault, and the counts of
one stream under the three polarities. -/

namespace Sys2Proof.Machine

/-- Settles O42: the scan of a stream whose values all fit. -/
theorem listScanEmitsEveryMatchingValue : Obligations.ListScanEmitsEveryMatchingValue :=
  fun _ _ _ hc hcfg hs hp hfit => listScan_emits hc hcfg hs (by rcases hp with rfl | rfl <;> decide) hfit

/-! ### A list scan that ends in the fault -/

theorem le_of_mem_matchingValues {a d v : Int} {p : BitVec 2} {bs : List Byte} (hd : 0 ≤ d)
    (hv : v ∈ matchingValues a d p bs) : a ≤ v := by
  obtain ⟨i, -, -, rfl⟩ := mem_matchingValues.1 hv
  have : 0 ≤ (i : Int) * d := by positivity
  omega

/-- The values of a stream up to `m` are those of the bits of the first octet below a bit `j` that is past `m`, when
those are not (R149). -/
theorem filter_matchingValues_cons {a d m : Int} {p : BitVec 2} {b : Byte} {j : Nat} (bs : List Byte) (hd : 0 ≤ d)
    (hj : j ≤ 8) (hpast : m < a + j * d)
    (hbelow : ∀ i ∈ (List.range j).filter fun i => bitMatches p (bitOf b i), a + i * d ≤ m) :
    (matchingValues a d p (b :: bs)).filter (fun v => v ≤ m) =
      ((List.range j).filter fun i => bitMatches p (bitOf b i)).map fun i : Nat => a + i * d := by
  have hfrom (i : Nat) (hi : j ≤ i) : m < a + i * d := by
    have : (j : Int) * d ≤ i * d := Int.mul_le_mul_of_nonneg_right (by omega) hd
    omega
  obtain ⟨k, hk⟩ := Nat.exists_eq_add_of_le hj
  have hsmall : ∀ v ∈ ((List.range j).filter fun i => bitMatches p (bitOf b i)).map (fun i : Nat => a + i * d),
      v ≤ m := List.forall_mem_map.2 hbelow
  have hlarge : ∀ v ∈ (((List.range k).map (j + ·)).filter fun i => bitMatches p (bitOf b i)).map
      (fun i : Nat => a + i * d) ++ matchingValues (a + 8 * d) d p bs, m < v := by
    refine List.forall_mem_append.2 ⟨List.forall_mem_map.2 fun i hi => hfrom i ?_, fun v hv => ?_⟩
    · obtain ⟨e, -, rfl⟩ := List.mem_map.1 (List.mem_filter.1 hi).1
      exact Nat.le_add_right ..
    · exact (hfrom 8 hj).trans_le (le_of_mem_matchingValues hd hv)
  rw [matchingValues_cons, hk, List.range_add, List.filter_append (List.range j), List.map_append,
    List.append_assoc, List.filter_append, List.filter_eq_self.2 fun v hv => decide_eq_true (hsmall v hv),
    List.filter_eq_nil_iff.2 fun v hv => decide_eq_true_iff.not.2 (hlarge v hv).not_ge, List.append_nil]

/-- When a value of the matching bits of an octet is past `MAX`, one is the first (R147). -/
theorem exists_first_past {a d : Int} {b : Byte} {s : State}
    (h : ∃ j, j ∈ matchingBits b (List.range 8) s ∧ maxInt < a + j * d) :
    ∃ j, j < 8 ∧ bitMatches s.pol (bitOf b j) = true ∧ maxInt < a + j * d ∧
      ∀ i ∈ matchingBits b (List.range j) s, a + i * d ≤ maxInt := by
  obtain ⟨hj, hpast⟩ := Nat.find_spec h
  obtain ⟨hlt, hmatch⟩ := List.mem_filter.1 hj
  refine ⟨Nat.find h, List.mem_range.1 hlt, hmatch, hpast, fun i hi => not_lt.1 fun hgt => ?_⟩
  obtain ⟨hij, himatch⟩ := List.mem_filter.1 hi
  have hi8 : i < 8 := (List.mem_range.1 hij).trans (List.mem_range.1 hlt)
  exact Nat.find_min h (List.mem_range.1 hij) ⟨List.mem_filter.2 ⟨List.mem_range.2 hi8, himatch⟩, hgt⟩

section ListOctet
variable {a : Int} {b : Byte} {s : State} (hc : s.control = .list) (hs : 1 ≤ s64 s.step) (h : CursorIs a s)
include hs h

/-- Values up to `MAX` are those the cursor reads at their bits (R26). -/
theorem CursorIs.map_cursorAt {js : List Nat} (hfit : ∀ j ∈ js, a + j * s64 s.step ≤ maxInt) :
    js.map (fun j => cursorAt j s) = js.map fun j : Nat => a + j * s64 s.step := by
  refine List.map_congr_left fun j hj => h.cursorAt_eq ?_ j
  have hle := hfit j hj
  have hge : 0 ≤ (j : Int) * s64 s.step := by positivity
  omega

include hc

/-- An octet whose values all fit: they are emitted, and the scan goes on eight steps further (R142). -/
theorem exec_scanByte_emits (hfit : ∀ j ∈ matchingBits b (List.range 8) s, a + j * s64 s.step ≤ maxInt) :
    ∃ t, exec (.scanByte b) s = .next t ∧ t.control = .list ∧ t.step = s.step ∧ t.pol = s.pol ∧
      CursorIs (a + 8 * s64 s.step) t ∧
      t.vals = s.vals ++ (matchingBits b (List.range 8) s).map fun j : Nat => a + j * s64 s.step := by
  have hexec := (listOctetEmitsTheMatchingValues b s).2 hc hs fun j hj => by
    rw [h.cursorPast_iff (by omega)]
    exact (hfit j hj).not_gt
  exact ⟨_, hexec, hc, rfl, rfl, h.next_octet (by omega) rfl rfl, congrArg (s.vals ++ ·) (h.map_cursorAt hs hfit)⟩

/-- An octet with a value past `MAX`: of the values of the stream from here on those up to `MAX` are emitted, and the
fault is taken (R142, R147). -/
theorem exec_scanByte_faults (bs : List Byte)
    (hpast : ∃ j, j ∈ matchingBits b (List.range 8) s ∧ maxInt < a + j * s64 s.step) :
    ∃ t, exec (.scanByte b) s = .next t ∧ t.control = .fault ∧ t.fcode = 4 ∧
      t.vals = s.vals ++ (matchingValues a (s64 s.step) s.pol (b :: bs)).filter fun v => v ≤ maxInt := by
  obtain ⟨j, hj, hmatch, hgt, hbelow⟩ := exists_first_past hpast
  have hexec := listOctetFaultsAtTheFirstValuePastMax b j s hc hs hj hmatch
    ((h.cursorPast_iff (by omega) j).2 hgt) fun i hi => by
      rw [h.cursorPast_iff (by omega)]
      exact (hbelow i hi).not_gt
  refine ⟨_, hexec, rfl, rfl, ?_⟩
  rw [filter_matchingValues_cons bs (by omega) hj.le hgt hbelow]
  exact congrArg (s.vals ++ ·) (h.map_cursorAt hs hbelow)

end ListOctet

/-- The octets after a fault are refused (R184). -/
theorem scanOctets_faulted (bs : List Byte) {s : State} (hf : s.control = .fault) :
    ∃ t, execAll (bs.map .scanByte) s = .next t ∧ t.control = .fault ∧ t.fcode = s.fcode ∧ t.vals = s.vals := by
  induction bs generalizing s with
  | nil => exact ⟨s, rfl, hf, rfl, rfl⟩
  | cons b bs ih =>
    obtain ⟨t, hrun, ht⟩ := ih (s := respond .errFaulted 0 0 s) hf
    refine ⟨t, ?_, ht⟩
    simp only [List.map_cons, execAll, exec_faulted (i := .scanByte b) hf rfl]
    exact hrun

/-- The octets of a list scan that reach a value past `MAX` emit the smaller ones and end in the fault, by induction
on the octets: each fits, or holds the faulting bit (R142, R147). -/
theorem scanOctets_fault {bs : List Byte} {a : Int} {s : State} (hc : s.control = .list) (hs : 1 ≤ s64 s.step)
    (h : CursorIs a s) (hpast : ∃ v ∈ matchingValues a (s64 s.step) s.pol bs, maxInt < v) :
    ∃ t, execAll (bs.map .scanByte) s = .next t ∧ t.control = .fault ∧ t.fcode = 4 ∧
      t.vals = s.vals ++ (matchingValues a (s64 s.step) s.pol bs).filter fun v => v ≤ maxInt := by
  induction bs generalizing a s with
  | nil => obtain ⟨v, hv, -⟩ := hpast; cases hv
  | cons b bs ih =>
    by_cases hoctet : ∃ j, j ∈ matchingBits b (List.range 8) s ∧ maxInt < a + j * s64 s.step
    · obtain ⟨u, hexec, hfault, hcode, hvals⟩ := exec_scanByte_faults hc hs h bs hoctet
      obtain ⟨t, hrun, htf, htc, htv⟩ := scanOctets_faulted bs hfault
      refine ⟨t, ?_, htf, htc.trans hcode, htv.trans hvals⟩
      simp only [List.map_cons, execAll, hexec, hrun]
    · have hfit : ∀ j ∈ matchingBits b (List.range 8) s, a + j * s64 s.step ≤ maxInt := fun j hj =>
        not_lt.1 fun hgt => hoctet ⟨j, hj, hgt⟩
      have hfirst : ∀ v ∈ (matchingBits b (List.range 8) s).map (fun j : Nat => a + j * s64 s.step), v ≤ maxInt :=
        List.forall_mem_map.2 hfit
      have hcons : matchingValues a (s64 s.step) s.pol (b :: bs) =
          (matchingBits b (List.range 8) s).map (fun j : Nat => a + j * s64 s.step) ++
            matchingValues (a + 8 * s64 s.step) (s64 s.step) s.pol bs := matchingValues_cons ..
      rw [hcons] at hpast ⊢
      obtain ⟨v, hv, hgt⟩ := hpast
      have hrest := (List.mem_append.1 hv).resolve_left fun hv => (hfirst v hv).not_gt hgt
      obtain ⟨u, hexec, hlist, hstep, hpol, hcur, hvals⟩ := exec_scanByte_emits hc hs h hfit
      rw [← hstep, ← hpol] at hrest
      obtain ⟨t, hrun, htf, htc, htv⟩ := ih hlist (hstep ▸ hs) (hstep ▸ hcur) ⟨v, hrest, hgt⟩
      refine ⟨t, ?_, htf, htc, ?_⟩
      · simp only [List.map_cons, execAll, hexec, hrun]
      · rw [htv, hvals, hstep, hpol, List.filter_append, List.append_assoc,
          List.filter_eq_self.2 fun v hv => decide_eq_true (hfirst v hv)]

/-- Settles O43: the cursor starts at `START`, and the octets lead to the first value past `MAX`. -/
theorem listScanFaultsAfterTheLastValue : Obligations.ListScanFaultsAfterTheLastValue := by
  intro s p bs hc hcfg hs hp hpast
  have hmax := s64_le_maxInt s.start
  obtain ⟨t, hrun, ht⟩ := scanOctets_fault (a := s64 s.start)
    (s := respond .ok 0 0 { s with cursor := s.start, cursorOvf := false, pol := p, control := .list }) rfl hs
    ⟨minInt_le_s64 _, (wrap64_s64 _).symm, (decide_eq_false (by omega)).symm⟩ hpast
  refine ⟨t, ?_, ht⟩
  simp only [execAll, exec_scanBeginList hc hcfg hp, hrun]

/-! ### Count scans -/

/-- What a count scan of the octets adds up to (R143, R149). -/
def streamCount (p : BitVec 2) (bs : List Byte) : Nat := (bs.map (countIncrement p)).sum

@[simp] theorem streamCount_nil (p : BitVec 2) : streamCount p [] = 0 := rfl

@[simp] theorem streamCount_cons (p : BitVec 2) (b : Byte) (bs : List Byte) :
    streamCount p (b :: bs) = countIncrement p b + streamCount p bs := List.sum_cons

theorem streamCount_any (bs : List Byte) : streamCount 2 bs = 8 * bs.length := by
  induction bs with
  | nil => rfl
  | cons b bs ih =>
    rw [streamCount_cons, ih, List.length_cons, Nat.mul_succ, Nat.add_comm]
    rfl

/-- The 0 bits and the 1 bits of a stream are all its bits (R150 (c)). -/
theorem streamCount_zero_add_one (bs : List Byte) : streamCount 0 bs + streamCount 1 bs = streamCount 2 bs := by
  induction bs with
  | nil => rfl
  | cons b bs ih =>
    have hoctet := countIncrement_add b
    have hany : countIncrement 2 b = 8 := rfl
    simp only [streamCount_cons]
    omega

/-- The octets of a count scan whose count stays below `2^64`, by induction on the octets (R143). -/
theorem scanOctets_count {bs : List Byte} {s : State} (hc : s.control = .count)
    (hfit : s.count.toNat + streamCount s.pol bs < 2 ^ 64) :
    ∃ t, execAll (bs.map .scanByte) s = .next t ∧ t.control = .count ∧
      t.count.toNat = s.count.toNat + streamCount s.pol bs := by
  induction bs generalizing s with
  | nil => exact ⟨s, rfl, hc, rfl⟩
  | cons b bs ih =>
    rw [streamCount_cons, ← Nat.add_assoc] at hfit ⊢
    obtain ⟨hcount, hnext⟩ := scanByteCount_fits (Nat.lt_of_le_of_lt (Nat.le_add_right ..) hfit)
    rw [← hcount] at hfit ⊢
    obtain ⟨t, hrun, ht⟩ := ih (s := respond .ok (BitVec.ofNat 64 (countIncrement s.pol b)) 0
      { s with count := s.count + BitVec.ofNat 64 (countIncrement s.pol b) }) hc hfit
    refine ⟨t, ?_, ht⟩
    simp only [List.map_cons, execAll, exec_scanByte_count hc, hnext]
    exact hrun

/-- A whole count scan ends with the count of the stream, which its last response carries (R146, R149). -/
theorem countScan_counts {s : State} {p : BitVec 2} {bs : List Byte} (hc : s.control = .idle)
    (hp : p = 0 ∨ p = 1 ∨ p = 2) (hfit : streamCount p bs < 2 ^ 64) :
    ∃ t, execAll (.scanBeginCount p :: (bs.map .scanByte ++ [.scanEnd])) s = .next t ∧
      t.rsp.getLast? = some (responseWord .ok t.count 0) ∧ t.count.toNat = streamCount p bs := by
  obtain ⟨t, hrun, hcount, hsum⟩ := scanOctets_count (bs := bs)
    (s := respond .ok 0 0 { s with count := 0, pol := p, control := .count }) rfl ((Nat.zero_add _).trans_lt hfit)
  refine ⟨respond .ok t.count 0 { t with control := .idle }, ?_, List.getLast?_concat,
    hsum.trans (Nat.zero_add _)⟩
  simp only [execAll, exec_scanBeginCount hc hp]
  rw [execAll_append hrun]
  simp only [execAll, exec_scanEnd_count hcount]

/-- Settles O44: each scan ends with the count of the stream, and no count exceeds that of "any". -/
theorem countsOfAnyStreamAreConsistent : Obligations.CountsOfAnyStreamAreConsistent := by
  intro s bs hc hlen
  have hadd := streamCount_zero_add_one bs
  have hany := streamCount_any bs
  obtain ⟨t0, hrun0, hrsp0, hcount0⟩ := countScan_counts (p := 0) (bs := bs) hc (by decide) (by omega)
  obtain ⟨t1, hrun1, hrsp1, hcount1⟩ := countScan_counts (p := 1) (bs := bs) hc (by decide) (by omega)
  obtain ⟨t2, hrun2, hrsp2, hcount2⟩ := countScan_counts (p := 2) (bs := bs) hc (by decide) (by omega)
  exact ⟨t0, t1, t2, hrun0, hrun1, hrun2, hrsp0, hrsp1, hrsp2, by rw [hcount0, hcount1, hcount2, hadd],
    hcount2.trans hany⟩

end Sys2Proof.Machine
end

section
/-! The checks every command makes before it executes (R166, R167, R184), and the system commands that load a register,
read one or report a read error (R160 to R164). -/

namespace Sys2Proof.Machine

/-! ### The checks -/

/-- Settles O10: only `RESET` and `REG_RD` execute in `FAULT`. -/
theorem faultStateRefusesAllButResetAndRead : Obligations.FaultStateRefusesAllButResetAndRead := by
  intro i s hf hreset hread
  refine exec_faulted hf (Bool.eq_false_iff.2 fun hl => ?_)
  obtain hi | ⟨r, hi⟩ := legalIn_fault hl
  · exact hreset hi
  · exact hread r hi

/-- Settles O11: the check on the control state. -/
theorem commandOutsideItsStatesIsRefused : Obligations.CommandOutsideItsStatesIsRefused :=
  fun _ _ hf hl => exec_wrongState hf hl

/-- Settles O12: the check on the configuration, which comes before that on the operand. -/
theorem unconfiguredCommandIsRefused : Obligations.UnconfiguredCommandIsRefused :=
  fun _ _ hn hl hc => exec_unconfigured hl hn hc

/-- Settles O13: the check on the operand. -/
theorem badOperandIsRefusedLast : Obligations.BadOperandIsRefusedLast :=
  fun _ _ ho hl hc => exec_badOperand hl hc ho

/-! ### `SET_START`, `SET_STEP`, `REG_RD` and `SRC_ERR` -/

/-- Settles O14: the check on the control state, then the load. -/
theorem setStartLoadsStartInIdle : Obligations.SetStartLoadsStartInIdle := by
  refine fun v s => ⟨rfl, fun hi => exec_run (legalIn_setStart.2 hi) nofun rfl, fun hf => exec_faulted hf rfl,
    fun hi hf => ?_⟩
  exact exec_wrongState hf (Bool.eq_false_iff.2 fun hl => hi (legalIn_setStart.1 hl))

/-- Settles O15: the checks in their order, then the load. -/
theorem setStepLoadsAPositiveStepInIdle : Obligations.SetStepLoadsAPositiveStepInIdle := by
  refine fun v s => ⟨rfl, fun hi hv => exec_run (legalIn_setStep.2 hi) nofun (decide_eq_true hv), fun hi hv => ?_,
    fun hf => exec_faulted hf rfl, fun hi hf => ?_⟩
  · exact exec_badOperand (legalIn_setStep.2 hi) nofun (decide_eq_false hv.not_gt)
  · exact exec_wrongState hf (Bool.eq_false_iff.2 fun hl => hi (legalIn_setStep.1 hl))

/-- Settles O16: each number up to 10 is answered with its register, and the others are no register. -/
theorem registerReadAnswersTheNumberedRegister : Obligations.RegisterReadAnswersTheNumberedRegister := by
  refine fun s => ⟨fun _ => rfl, ?_, ?_, ?_, ?_, ?_, ?_, ?_, ?_, ?_, ?_, ?_, fun r hr => ?_⟩
  case refine_12 => exact exec_badOperand rfl nofun (decide_eq_false hr.not_ge)
  all_goals exact exec_regRd (by decide) s

/-- `SRC_ERR` executes while a stream is open (R164, R166). -/
theorem legalIn_srcErr {c : Control} : legalIn .srcErr c = true ↔ c = .enc ∨ c = .list ∨ c = .count := by
  cases c <;> simp [legalIn]

/-- Settles O20: the check on the control state, then the fault entry. -/
theorem sourceErrorTakesTheReadFault : Obligations.SourceErrorTakesTheReadFault := by
  refine fun s => ⟨rfl, fun hopen => exec_run (legalIn_srcErr.2 hopen) nofun rfl, fun hi => ?_,
    fun hf => exec_faulted hf rfl⟩
  exact exec_wrongState (by rw [hi]; decide) (by rw [hi]; rfl)

end Sys2Proof.Machine
end

section
/-! The control state: every command, refused or executed, changes it as the table of R165 says. -/

namespace Sys2Proof.Machine

theorem legalIn_encEnd {c : Control} : legalIn .encEnd c = true ↔ c = .enc :=
  legalIn_encPush (v := 0)

/-- The scanner's octets and its end are for the two scans alone (R166). -/
theorem legalIn_scanByte {b : Byte} {c : Control} : legalIn (.scanByte b) c = true ↔ c = .list ∨ c = .count := by
  cases c <;> simp [legalIn]

theorem legalIn_scanEnd {c : Control} : legalIn .scanEnd c = true ↔ c = .list ∨ c = .count :=
  legalIn_scanByte (b := 0)

/-- A command that is refused leaves `STATE` as it is, and the table allows it (R165, R180): the commands that always
change it are refused for the state alone. -/
theorem transition_self_of_refused {i : Instr} {s : State} (h : ¬ Executes i s) :
    transition i s.control s.control = true := by
  cases i with
  | reset => exact absurd ⟨rfl, nofun, rfl⟩ h
  | srcErr | encEnd | scanEnd =>
    have hillegal : legalIn _ s.control ≠ true := fun hl => h ⟨hl, nofun, rfl⟩
    cases hc : s.control <;> simp [hc, legalIn, transition] at hillegal ⊢
  | setStart | setStep | regRd | mapToIndex | mapToValue | mapSplit | encBegin | encPush | scanBeginList
  | scanBeginCount | scanByte => simp [transition]

/-- The end of a command leaves the control state of its change, or `FAULT` (R183). -/
theorem Ends.control {u t : State} (h : Ends u t) : t.control = u.control ∨ t.control = .fault := by
  rcases h with ⟨st, p, q, rfl⟩ | ⟨f, info, rfl⟩
  · exact .inl rfl
  · exact .inr rfl

/-- A command that executes changes `STATE` as the table says: `ENC_PUSH`, `ENC_END` and `SCAN_BYTE` by their change or
the fault entry, every other command in one way (R165). -/
theorem transition_of_body {i : Instr} {s t : State} (hx : Executes i s) (h : commandBody i s = .next t) :
    transition i s.control t.control = true := by
  obtain ⟨hlegal, hcfg, hop⟩ := hx
  obtain ⟨u, hw, he⟩ := commandBody_next h
  cases i with
  | setStart | setStep | regRd | mapSplit => cases h; simp [transition]
  | reset => cases h; rfl
  | mapToIndex v =>
    obtain ⟨r, rfl⟩ := mapperChangesOnlyResponses v s t (.inl ((exec_run hlegal hcfg hop).trans h))
    simp [transition]
  | mapToValue x =>
    obtain ⟨r, rfl⟩ := mapperChangesOnlyResponses x s t (.inr (.inl ((exec_run hlegal hcfg hop).trans h)))
    simp [transition]
  | encBegin => cases h; simp [transition, legalIn_encBegin.1 hlegal]
  | scanBeginList => cases h; simp [transition, legalIn_scanBeginList.1 hlegal]
  | scanBeginCount => cases h; simp [transition, legalIn_scanBeginCount.1 hlegal]
  | srcErr => cases h; obtain hc | hc | hc := legalIn_srcErr.1 hlegal <;> simp [transition, hc]
  | scanEnd => cases h; obtain hc | hc := legalIn_scanEnd.1 hlegal <;> simp [transition, hc]
  | encPush v =>
    have hu : u.control = s.control := by obtain rfl | ⟨b, y, f, a, d, o, m, rfl⟩ := hw <;> rfl
    obtain ht | ht := he.control <;> simp [transition, ht, hu, legalIn_encPush.1 hlegal]
  | encEnd =>
    have hu : u.control = .idle := by obtain ⟨a, d, o, rfl⟩ := hw; rfl
    obtain ht | ht := he.control <;> simp [transition, ht, hu, legalIn_encEnd.1 hlegal]
  | scanByte b =>
    have hu : u.control = s.control := by obtain ⟨c, o, v, n, rfl⟩ := hw; rfl
    obtain ht | ht := he.control
    · simp [transition, ht, hu]
    · obtain hc | hc := legalIn_scanByte.1 hlegal <;> simp [transition, ht, hc]

/-- Settles O50: a refused command leaves `STATE`, and a command that executes follows the table. -/
theorem controlStateChangesOnlyByTheTable : Obligations.ControlStateChangesOnlyByTheTable := by
  intro i s t h
  obtain ⟨hx, e, he⟩ | ⟨hx, he⟩ := exec_cases i s <;> rw [he] at h
  · cases h
    exact transition_self_of_refused hx
  · exact transition_of_body hx h

end Sys2Proof.Machine
end

section
/-! What a step makes of the port: nothing presented, the reset input between commands, and a command word in `FAULT`
(R184, R185, R191, R210). -/

namespace Sys2Proof.Machine

/-- With nothing on the port the state is held (R191). -/
theorem step_idle {s : State} (h : s.port = []) : step s = .next s := by
  simp [step, takeEvent, holdState, h]

/-- The reset input is taken from the port and resets the block (R210). -/
theorem step_resetInput {s : State} {rest : List PortEvent} (h : s.port = .resetInput :: rest) :
    step s = .next (resetBlock { s with port := rest }) := by
  simp [step, takeEvent, applyResetInput, h]

/-- Settles O7: nothing is taken from the port. -/
theorem idlePortHoldsTheState : Obligations.IdlePortHoldsTheState :=
  fun _ => step_idle

/-- Settles O19: `RESET` answers after the same reset of the block. -/
theorem resetInputActsAsResetWithoutResponse : Obligations.ResetInputActsAsResetWithoutResponse :=
  fun s rest hport => ⟨resetBlock { s with port := rest }, respond .ok 0 0 (resetBlock { s with port := rest }),
    step_resetInput hport, exec_reset _, rfl, rfl, rfl⟩

/-- In `FAULT` every command but `RESET` answers and does nothing else: it is refused, or reads a register (R184). -/
theorem exec_fault_responds {i : Instr} {s t : State} (hf : s.control = .fault) (hr : i ≠ .reset)
    (h : exec i s = .next t) : OneMoreResponse s t := by
  obtain ⟨-, e, he⟩ | ⟨⟨hlegal, -, -⟩, he⟩ := exec_cases i s <;> rw [he] at h
  · cases h
    exact oneMoreResponse_respond ..
  · obtain hi | ⟨r, rfl⟩ := legalIn_fault (hf ▸ hlegal)
    · exact absurd hi hr
    · cases h
      exact oneMoreResponse_respond ..

/-- In `FAULT` every word but that of `RESET` is answered and does nothing else (R74, R184). -/
theorem runWord_fault_responds {w : CommandWord} {s t : State} (hf : s.control = .fault) (hw : w ≠ encode .reset)
    (h : runWord w s = .next t) : OneMoreResponse s t := by
  obtain ⟨e, -, he⟩ | ⟨i, hi, he⟩ := runWord_cases w s <;> rw [he] at h
  · cases h
    exact oneMoreResponse_respond ..
  · refine exec_fault_responds hf (fun hreset => hw ?_) h
    rw [← encode_of_decode hi, hreset]

/-- Settles O51, by the event on the port: without either reset it is none, or a word other than that of `RESET`. -/
theorem faultIsStickyUntilReset : Obligations.FaultIsStickyUntilReset := by
  intro s t hf h hinput hduring hreset
  have hframe : t = { s with port := t.port, rsp := t.rsp } := by
    obtain ⟨-, hs⟩ | ⟨rest, hp, -⟩ | ⟨w, rest, hp, hs⟩ | ⟨w, n, rest, hp, -⟩ := step_cases s
    · cases hs.symm.trans h
      rfl
    · exact absurd hp (hinput rest)
    · have hw : w ≠ encode .reset := fun hw => hreset rest (hw ▸ hp)
      obtain ⟨r, rfl⟩ := runWord_fault_responds (s := { s with port := rest }) hf hw (hs.symm.trans h)
      rfl
    · exact absurd hp (hduring w n rest)
  refine ⟨?_, hframe⟩
  rw [hframe, faultOut, hf]
  rfl

end Sys2Proof.Machine
end
